-- ==== Sys2Proof/Word.lean ====
section
/-! DEFINITION. The machine's words: 32-bit words, bytes, the 4-lane row register, the 4 by 4 state
matrix and the 64-byte block (spec 00_scope.md R8, R10; 40_arx_datapath.md R86). -/

namespace Sys2Proof

/-- A state word: 32 bits, unsigned, bit 0 the least significant (R8). -/
abbrev Word := BitVec 32

/-- A byte: 8 bits (R8). -/
abbrev Byte := BitVec 8

/-- A row register: four lanes of 32 bits, lane 0 first (R10, R86). -/
structure Row where
  l0 : Word
  l1 : Word
  l2 : Word
  l3 : Word
deriving DecidableEq, Repr

/-- A state matrix in row-major order: rows `a`, `b`, `c`, `d` hold words 0..3, 4..7, 8..11, 12..15 (R10). -/
structure Matrix where
  a : Row
  b : Row
  c : Row
  d : Row
deriving DecidableEq, Repr

/-- One serialised block: 64 bytes, byte 0 first (R34, R93). -/
abbrev Block := Vector Byte 64

/-- The matrix all of whose words are 0. -/
def Matrix.zero : Matrix := ⟨⟨0, 0, 0, 0⟩, ⟨0, 0, 0, 0⟩, ⟨0, 0, 0, 0⟩, ⟨0, 0, 0, 0⟩⟩

/-- The block all of whose bytes are 0. -/
def zeroBlock : Block := Vector.replicate 64 0

end Sys2Proof
end

