-- ==== Sys2Proof/Syntax.lean ====
section
/-! DEFINITION. The command set: one constructor for each row of spec/opcode_table.json
(30_encoding.md R65, R69). -/

namespace Sys2Proof

/-- A command of the engine. Only EMIT carries an operand, the byte count `n` of format N, 7 bits (R67, R68). -/
inductive Instr where
  | nop
  | init
  | loadx
  | dround
  | feed
  | emit (n : BitVec 7)
  | block
  | process
deriving DecidableEq, Repr

end Sys2Proof
end

