-- ==== Sys2Proof/WellFormed.lean ====
section
/-! DEFINITION. When a command can be written down: the one restriction on an operand that the spec
makes, `n <= 64` of EMIT (30_encoding.md R68, R71). -/

namespace Sys2Proof

/-- A well-formed command: EMIT counts 0 to 64 bytes, "65 to 127 are reserved encodings" (R68).
The other seven commands have no operand. -/
def Instr.wf : Instr → Bool
  | .emit n => n.toNat ≤ 64
  | .nop | .init | .loadx | .dround | .feed | .block | .process => true

end Sys2Proof
end

