-- ==== Sys2Proof/Decode.lean ====
section
/-! DEFINITION. Decoding and encoding of command words (30_encoding.md R66 to R72). A command is one
32-bit word; `decode` is total on all 2^32 words and answers `none` for an illegal command. -/

namespace Sys2Proof

/-- Bits 31:24 of a command word: the opcode field (R66, R67). -/
def opcodeField (w : Word) : BitVec 8 := w.extractLsb' 24 8

/-- The opcode of a command (the first column of the map of R69). -/
def Instr.opcode : Instr → BitVec 8
  | .nop => 0x00
  | .init => 0x01
  | .loadx => 0x02
  | .dround => 0x03
  | .feed => 0x04
  | .emit _ => 0x05
  | .block => 0x06
  | .process => 0x07

/-- The command of format Z with a given opcode, if there is one (R66, R69). -/
def formatZ (op : BitVec 8) : Option Instr :=
  if op = 0x00 then some .nop
  else if op = 0x01 then some .init
  else if op = 0x02 then some .loadx
  else if op = 0x03 then some .dround
  else if op = 0x04 then some .feed
  else if op = 0x06 then some .block
  else if op = 0x07 then some .process
  else none

/-- `Decode(w)` of R70: `none` is its answer `illegal`. -/
def decode (w : Word) : Option Instr :=
  if opcodeField w = 0x05 then
    if w.extractLsb' 7 17 = 0 ∧ (w.extractLsb' 0 7).toNat ≤ 64 then
      some (.emit (w.extractLsb' 0 7))
    else none
  else if w.extractLsb' 0 24 = 0 then formatZ (opcodeField w)
  else none

/-- The `mask` column of the opcode map (R69). -/
def Instr.mask : Instr → Word
  | .emit _ => 0xFFFFFF80
  | .nop | .init | .loadx | .dround | .feed | .block | .process => 0xFFFFFFFF

/-- The `match` column of the opcode map (R69). -/
def Instr.pattern : Instr → Word
  | .nop => 0x00000000
  | .init => 0x01000000
  | .loadx => 0x02000000
  | .dround => 0x03000000
  | .feed => 0x04000000
  | .emit _ => 0x05000000
  | .block => 0x06000000
  | .process => 0x07000000

/-- The operand field of a command: `n` in bits 6:0 of format N, zero in format Z (R66, R67). -/
def Instr.operand : Instr → BitVec 24
  | .emit n => n.setWidth 24
  | .nop | .init | .loadx | .dround | .feed | .block | .process => 0

/-- The command word of a command: `opcode * 2^24`, plus `n` for EMIT (R66, R67). -/
def encode (i : Instr) : Word := i.opcode ++ i.operand

/-- The instruction the decoder reads from a table row's word: a command is one 32-bit word written
to `CMD`, so the row's bits are that word; bits beyond 32 belong to no command (R72). -/
def decodeTableWord (nbits w : Nat) : Option Instr :=
  if w % 2 ^ nbits < 2 ^ 32 then decode (BitVec.ofNat 32 (w % 2 ^ nbits)) else none

end Sys2Proof
end

