-- ==== Sys2Proof/Config.lean ====
section
/-! DEFINITION. The parameters of the instance (00_scope.md R6) and the values the spec leaves
unspecified. The parameters marked fixed by R6 (word width 32, 16 words, 32 key bytes, 8 nonce bytes,
64-byte blocks, 32-bit LEN) are built into the types; the ones marked param are the fields here. -/

namespace Sys2Proof

/-- `BPI`: blocks per iteration of the vector path; `one` is the scalar-only engine (R6). -/
inductive Bpi where
  | one
  | two
  | three
  | four
deriving DecidableEq, Repr

/-- The number a `Bpi` stands for. -/
def Bpi.count : Bpi → Nat
  | .one => 1
  | .two => 2
  | .three => 3
  | .four => 4

/-- `CTR_WIDTH`: width of the block counter that is incremented (R6). -/
inductive CtrWidth where
  | w32
  | w64
deriving DecidableEq, Repr

/-- A run of data-memory addresses `base .. base + size - 1`. -/
structure Region where
  base : Nat
  size : Nat
deriving DecidableEq, Repr

/-- The parameters of one instance (R6). `holes` lists the addresses below `2^AW` that the platform
predicate `MemOK` refuses. -/
structure Config where
  bpi : Bpi
  ctrWidth : CtrWidth
  aw : Nat
  base : Nat
  holes : List Region
deriving DecidableEq, Repr

/-- The legal parameter values: `AW` is 8 to 32 (R6), `BASE` is a multiple of 256 (20_memory.md R57). -/
abbrev Config.Legal (c : Config) : Prop := 8 ≤ c.aw ∧ c.aw ≤ 32 ∧ c.base % 256 = 0

/-- The defaults of R6. DESIGN CHOICE `BASE = 0` (log 2); `MemOK` true everywhere (log 3). -/
def Config.default : Config := ⟨.four, .w64, 32, 0, []⟩

/-- FREE VALUE (log 11): had output byte `i` of the command reached memory when the command was ended
by a BUS error or by reset? "unspecified which, byte by byte" (60_exceptions.md R151,
70_reset_and_hazards.md R166). The first argument is the number of the draw. -/
opaque Config.landed : Nat → Nat → Bool

/-- FREE VALUE (log 14): did the engine read the input byte after this write of it by another agent?
"the engine uses either the old or the new byte, unspecified which" (20_memory.md R62). The argument is
the number of the draw. -/
opaque Config.sees : Nat → Bool

/-- FREE VALUE (log 14): the byte that stands in the output buffer where another agent wrote while the
buffer was the engine's: "the spec promises nothing else" (20_memory.md R62). The argument is the number
of the draw. -/
opaque Config.raced : Nat → Byte

/-- DESIGN CHOICE, unsafe (log 4): what a byte of data memory reads as that nothing has written. -/
def Config.unwritten : Byte := 0

end Sys2Proof
end

