-- ==== Sys2Proof/Machine/State.lean ====
section
/-! DEFINITION. Everything the spec gives the machine (10_state.md), the ways a step can stop, and the
state after reset (10_state.md R40). -/

namespace Sys2Proof.Machine

/-- The closed set of error codes (60_exceptions.md R140; 10_state.md R17). `none` is NONE. -/
inductive Err where
  | none
  | illcmd
  | rounds
  | seq
  | range
  | overlap
  | bus
deriving DecidableEq, Repr

/-- The sequencer's phases (10_state.md R38). -/
inductive Phase where
  | idle
  | initp
  | loadp
  | roundp
  | feedp
  | emitp
deriving DecidableEq, Repr

/-- `NDR`, double-rounds per block: one of 4, 6, 10 (10_state.md R36). -/
inductive Ndr where
  | four
  | six
  | ten
deriving DecidableEq, Repr

/-- `CFG`: its three fields; the reserved bits hold nothing (10_state.md R20, R21, R22). -/
structure Cfg where
  rc : BitVec 2
  ks : Bool
  ven : Bool
deriving DecidableEq, Repr

/-- One of the vector slots 1 to `BPI - 1`: its working matrix and scratch buffer (10_state.md R33). -/
structure Slot where
  x : Matrix
  ks : Block
deriving DecidableEq, Repr

/-- Data memory: the listed bytes, by strictly rising address, none of them equal to what an unlisted
byte reads as (20_memory.md R48). -/
abbrev Memory := List Host.Cell

/-- How far an engine turn goes: a whole command's effect, or one phase (10_state.md R38). -/
inductive Grain where
  | whole
  | phase
deriving DecidableEq, Repr

/-- A write by another agent of a byte that belongs to the engine (20_memory.md R62), with the number of
the draw that its free values take. -/
structure Race where
  addr : Nat
  value : Byte
  tag : Nat
deriving DecidableEq, Repr

/-- What the outside can do to the machine, and the turns it leaves to the engine (10_state.md R13). -/
inductive Event where
  /-- A host bus write: byte address, size in bytes, data (43_host_register_access.md R124; 20_memory.md R53). -/
  | hostWrite (addr size : Nat) (data : Word)
  /-- A host bus read: byte address, size in bytes (43_host_register_access.md R125; 20_memory.md R53). -/
  | hostRead (addr size : Nat)
  /-- The host's `wait`: `RD STATUS` repeated until the value read has `BUSY = 0` (30_encoding.md R75);
  between two of its reads the engine moves as `g` says (log 21). -/
  | hostWait (g : Grain)
  /-- The engine moves (43_host_register_access.md R127). -/
  | engine (g : Grain)
  /-- Another agent writes a byte of data memory (20_memory.md R46, R62). -/
  | memWrite (addr : Nat) (value : Byte)
  /-- Another agent reads a byte of data memory (20_memory.md R46, R62). -/
  | memRead (addr : Nat)
  /-- The platform asserts reset (70_reset_and_hazards.md R166). -/
  | reset
deriving DecidableEq, Repr

/-- The answer of the last transaction of the host or of another agent. `busError` carries no data:
"returns no defined data" (20_memory.md R53). -/
inductive BusReply where
  | none
  | ack
  | word (w : Word)
  | byte (b : Byte)
  | busError
deriving DecidableEq, Repr

/-- The machine: the state of 10_state.md, the data memory beside it, and the model's own fields. -/
structure State where
  /-- The parameters of the instance (00_scope.md R6); no step writes them (log 1). -/
  config : Config
  /-- `CFG` (R20). -/
  cfg : Cfg
  /-- `SRC` (R24). -/
  src : Word
  /-- `DST` (R24). -/
  dst : Word
  /-- `LEN` (R25). -/
  len : Word
  /-- `CTR0` (R26). -/
  ctr0 : Word
  /-- `CTR1` (R26). -/
  ctr1 : Word
  /-- `NONCE0` (R27). -/
  nonce0 : Word
  /-- `NONCE1` (R27). -/
  nonce1 : Word
  /-- `KEY0` .. `KEY7` (R29). -/
  key : Vector Word 8
  /-- `STATUS.BUSY` (R16). -/
  busy : Bool
  /-- `STATUS.DONE` (R16). -/
  done : Bool
  /-- `STATUS.SV` (R37). -/
  sv : Bool
  /-- `STATUS.XV` (R37). -/
  xv : Bool
  /-- `STATUS.KV` (R37). -/
  kv : Bool
  /-- `STATUS.WRB` (R18). -/
  wrb : Bool
  /-- `STATUS.ERR` (R17). -/
  err : Err
  /-- `STATUS.DRC` (R19). -/
  drc : BitVec 5
  /-- The base matrix (R31). -/
  S : Matrix
  /-- The working matrix, slot 0 (R32). -/
  X : Matrix
  /-- The scratch buffer, slot 0 (R34). -/
  KS : Block
  /-- Vector slots 1 to `BPI - 1` (R33). -/
  slots : List Slot
  /-- Address of the next input byte (R35). -/
  sp : Word
  /-- Address of the next output byte (R35). -/
  dp : Word
  /-- Bytes of the call not yet emitted (R35). -/
  rem : Word
  /-- Latched round count (R36). -/
  ndr : Ndr
  /-- Latched `CFG.KS` (R36). -/
  ksl : Bool
  /-- Latched `CFG.VEN` (R36). -/
  venl : Bool
  /-- Opcode of the command in progress (R38). -/
  op : BitVec 8
  /-- The phase (R38). -/
  ph : Phase
  /-- Operand of the EMIT in progress (log 10). -/
  emitN : BitVec 7
  /-- Data memory (20_memory.md R48). -/
  mem : Memory
  /-- MODEL'S OWN: the effect of the command in progress is complete (log 9). -/
  fin : Bool
  /-- MODEL'S OWN: data memory when the command in progress was accepted (log 12). -/
  accMem : Memory
  /-- MODEL'S OWN: the block the EMIT in progress was accepted with (log 12). -/
  accKS : Block
  /-- MODEL'S OWN: other agents' writes of the engine's bytes since acceptance, latest first (log 14). -/
  races : List Race
  /-- MODEL'S OWN: how many free-value draws were made (log 11). -/
  draw : Nat
  /-- MODEL'S OWN: the answer of the last transaction (log 16). -/
  bus : BusReply
  /-- MODEL'S OWN: what the outside does next, in order (log 7). -/
  inbox : List Event
deriving DecidableEq, Repr

/-- Why a step can stop with a fault: it never does. The engine's exceptions are checked failures latched
in `ERR`, after which the machine goes on (60_exceptions.md R140); every other open case is a free value. -/
inductive Fault
deriving DecidableEq, Repr

/-- Why a step can be refused. -/
inductive Refusal where
  /-- Raised by an arm of `exec` that has no meaning yet; no arm of this model is such an arm. Safe. -/
  | notModelled (mnemonic : String)
deriving DecidableEq, Repr

/-- The state after reset of an instance with given parameters (10_state.md R40). What R40 gives no
value is zero, and `NDR` is 10 (DESIGN CHOICE, log 5). -/
def State.resetWith (c : Config) : State where
  config := c
  cfg := ⟨0, false, decide (1 < c.bpi.count)⟩
  src := 0
  dst := 0
  len := 0
  ctr0 := 0
  ctr1 := 0
  nonce0 := 0
  nonce1 := 0
  key := Vector.replicate 8 0
  busy := false
  done := false
  sv := false
  xv := false
  kv := false
  wrb := false
  err := .none
  drc := 0
  S := Matrix.zero
  X := Matrix.zero
  KS := zeroBlock
  slots := List.replicate (c.bpi.count - 1) ⟨Matrix.zero, zeroBlock⟩
  sp := 0
  dp := 0
  rem := 0
  ndr := .ten
  ksl := false
  venl := false
  op := 0x00
  ph := .idle
  emitN := 0
  mem := []
  fin := false
  accMem := []
  accKS := zeroBlock
  races := []
  draw := 0
  bus := .none
  inbox := []

/-- The machine right after reset, with the default parameters (10_state.md R40; 00_scope.md R6). -/
def State.reset : State := State.resetWith Config.default

end Sys2Proof.Machine
end

