-- ==== Sys2Proof/Machine/Datapath.lean ====
section
/-! DEFINITION. The ARX datapath as pure functions (40_arx_datapath.md R77 to R96) and the access to
the words of a matrix. -/

namespace Sys2Proof

/-- The 16 words of a matrix in row-major order (00_scope.md R10). -/
def Matrix.words (m : Matrix) : Vector Word 16 :=
  #v[m.a.l0, m.a.l1, m.a.l2, m.a.l3, m.b.l0, m.b.l1, m.b.l2, m.b.l3,
     m.c.l0, m.c.l1, m.c.l2, m.c.l3, m.d.l0, m.d.l1, m.d.l2, m.d.l3]

/-- The four lanes of a row register, lane 0 first (R86). -/
def Row.lanes (v : Row) : Vector Word 4 := #v[v.l0, v.l1, v.l2, v.l3]

end Sys2Proof

namespace Sys2Proof.Machine

/-- The hardwired constant words `CONST0..3`, "expand 32-byte k" (10_state.md R28). -/
def constRow : Row := ⟨0x61707865, 0x3320646E, 0x79622D32, 0x6B206574⟩

/-- `InitMatrix(K, C, N)`: constants, key, counter, nonce (R77). -/
def initMatrix (key : Vector Word 8) (c0 c1 n0 n1 : Word) : Matrix where
  a := constRow
  b := ⟨key[0], key[1], key[2], key[3]⟩
  c := ⟨key[4], key[5], key[6], key[7]⟩
  d := ⟨c0, c1, n0, n1⟩

/-- `add32(a, b) = trunc_32(a + b)` (R78). -/
def add32 (a b : Word) : Word := a + b

/-- `xor32(a, b)` (R79). -/
def xor32 (a b : Word) : Word := a ^^^ b

/-- `rotl(v, n) = trunc_32(v * 2^n) + (v / 2^(32-n))`, for `0 < n < 32` (R80). -/
def rotl (v : Word) (n : Nat) : Word := (v <<< n) + (v >>> (32 - n))

/-- The quarter-round on four words (R81). -/
def QR (a b c d : Word) : Word × Word × Word × Word :=
  let a := add32 a b
  let d := rotl (xor32 d a) 16
  let c := add32 c d
  let b := rotl (xor32 b c) 12
  let a := add32 a b
  let d := rotl (xor32 d a) 8
  let c := add32 c d
  let b := rotl (xor32 b c) 7
  (a, b, c, d)

/-- The column phase: `QR` on the columns `(i, 4+i, 8+i, 12+i)` (R82, R83). -/
def colRound (m : Matrix) : Matrix :=
  let (m0, m4, m8, m12) := QR m.a.l0 m.b.l0 m.c.l0 m.d.l0
  let (m1, m5, m9, m13) := QR m.a.l1 m.b.l1 m.c.l1 m.d.l1
  let (m2, m6, m10, m14) := QR m.a.l2 m.b.l2 m.c.l2 m.d.l2
  let (m3, m7, m11, m15) := QR m.a.l3 m.b.l3 m.c.l3 m.d.l3
  ⟨⟨m0, m1, m2, m3⟩, ⟨m4, m5, m6, m7⟩, ⟨m8, m9, m10, m11⟩, ⟨m12, m13, m14, m15⟩⟩

/-- The diagonal phase: `QR` on (0,5,10,15), (1,6,11,12), (2,7,8,13), (3,4,9,14) (R82, R84). -/
def diagRound (m : Matrix) : Matrix :=
  let (m0, m5, m10, m15) := QR m.a.l0 m.b.l1 m.c.l2 m.d.l3
  let (m1, m6, m11, m12) := QR m.a.l1 m.b.l2 m.c.l3 m.d.l0
  let (m2, m7, m8, m13) := QR m.a.l2 m.b.l3 m.c.l0 m.d.l1
  let (m3, m4, m9, m14) := QR m.a.l3 m.b.l0 m.c.l1 m.d.l2
  ⟨⟨m0, m1, m2, m3⟩, ⟨m4, m5, m6, m7⟩, ⟨m8, m9, m10, m11⟩, ⟨m12, m13, m14, m15⟩⟩

/-- The double-round `DR(M) = DiagRound(ColRound(M))` (R85). -/
def DR (m : Matrix) : Matrix := diagRound (colRound m)

/-- Lane-wise addition (R86). -/
def vadd (u v : Row) : Row :=
  ⟨add32 u.l0 v.l0, add32 u.l1 v.l1, add32 u.l2 v.l2, add32 u.l3 v.l3⟩

/-- Lane-wise exclusive-or (R86). -/
def vxor (u v : Row) : Row :=
  ⟨xor32 u.l0 v.l0, xor32 u.l1 v.l1, xor32 u.l2 v.l2, xor32 u.l3 v.l3⟩

/-- Lane-wise rotation of the bits (R86). -/
def vrotl (v : Row) (n : Nat) : Row := ⟨rotl v.l0 n, rotl v.l1 n, rotl v.l2 n, rotl v.l3 n⟩

/-- `lanerot(V, 1)[i] = V[(i + 1) mod 4]` (R87). -/
def lanerot1 (v : Row) : Row := ⟨v.l1, v.l2, v.l3, v.l0⟩

/-- `lanerot(V, n)[i] = V[(i + n) mod 4]`: `n` rotations by one lane towards lane 0 (R87). -/
def lanerot (v : Row) : Nat → Row
  | 0 => v
  | n + 1 => lanerot1 (lanerot v n)

/-- The quarter-round macro on four row registers (R88). -/
def VQR (a b c d : Row) : Row × Row × Row × Row :=
  let a := vadd a b
  let d := vrotl (vxor d a) 16
  let c := vadd c d
  let b := vrotl (vxor b c) 12
  let a := vadd a b
  let d := vrotl (vxor d a) 8
  let c := vadd c d
  let b := vrotl (vxor b c) 7
  (a, b, c, d)

/-- The double-round in its lane-rotation form (R89). -/
def DRlane (m : Matrix) : Matrix :=
  let (a, b, c, d) := VQR m.a m.b m.c m.d
  let (a, b, c, d) := VQR a (lanerot b 1) (lanerot c 2) (lanerot d 3)
  ⟨a, lanerot b 3, lanerot c 2, lanerot d 1⟩

/-- `Rounds(M, ndr)`: `DR` applied `ndr` times (R91). -/
def rounds (m : Matrix) : Nat → Matrix
  | 0 => m
  | n + 1 => DR (rounds m n)

/-- `FeedForward(Y, M)`: all 16 words added (R92). -/
def feedForward (y m : Matrix) : Matrix := ⟨vadd y.a m.a, vadd y.b m.b, vadd y.c m.c, vadd y.d m.d⟩

/-- Byte `k` of a word, least significant first: bits `8k+7 .. 8k` (R93; 20_memory.md R49). -/
def byteOf (w : Word) (k : Nat) : Byte := w.extractLsb' (8 * k) 8

/-- `Ser(Z)`: word 0 first, each word least significant byte first, `B[4i + k] = Z[i][8k+7 : 8k]` (R93). -/
def ser (z : Matrix) : Block := Vector.ofFn fun j : Fin 64 => byteOf z.words[j.val / 4] (j.val % 4)

/-- `CtrInc(M)`: the counter advance in words 12 and 13 (R94). -/
def ctrInc (w : CtrWidth) (m : Matrix) : Matrix :=
  match w with
  | .w64 =>
    let c : BitVec 64 := (m.d.l1 ++ m.d.l0) + 1
    { m with d := { m.d with l0 := c.extractLsb' 0 32, l1 := c.extractLsb' 32 32 } }
  | .w32 => { m with d := { m.d with l0 := add32 m.d.l0 1 } }

/-- `CtrIncBy(M, k)`: `CtrInc` applied `k` times (R94). -/
def ctrIncBy (w : CtrWidth) (m : Matrix) : Nat → Matrix
  | 0 => m
  | k + 1 => ctrInc w (ctrIncBy w m k)

/-- The first component of `BlockFn(M, ndr)`: the keystream block of the counter value in `M` (R95). -/
def blockBytes (m : Matrix) (ndr : Nat) : Block := ser (feedForward (rounds m ndr) m)

/-- `BlockFn(M, ndr)`: the block and the matrix with the counter advanced (R95). -/
def blockFn (w : CtrWidth) (m : Matrix) (ndr : Nat) : Block × Matrix := (blockBytes m ndr, ctrInc w m)

/-- `Keystream(M0, ndr, i)`: byte `i mod 64` of the block of counter `i / 64` on from `M0` (R96). -/
def keystream (w : CtrWidth) (m0 : Matrix) (ndr i : Nat) : Byte :=
  (blockBytes (ctrIncBy w m0 (i / 64)) ndr)[i % 64]'(Nat.mod_lt _ (by decide))

end Sys2Proof.Machine
end

