-- ==== Sys2Proof/Machine/Flags.lean ====
section
/-! DEFINITION. Status bits and codes: the error codes, the round counts, the STATUS, CFG and CAP words
as the host reads them, and the predicates the acceptance checks evaluate (10_state.md R16 to R23;
60_exceptions.md R140; 41_stage_commands.md R103). The engine has no arithmetic flags (10_state.md R37). -/

namespace Sys2Proof.Machine

/-- The 4-bit code of an error (60_exceptions.md R140). -/
def Err.code : Err → BitVec 4
  | .none => 0
  | .illcmd => 1
  | .rounds => 2
  | .seq => 3
  | .range => 4
  | .overlap => 5
  | .bus => 6

/-- The number of double-rounds an `NDR` value stands for (10_state.md R36). -/
def Ndr.toNat : Ndr → Nat
  | .four => 4
  | .six => 6
  | .ten => 10

/-- `NDR` from `CFG.RC`: 0 gives 10, 1 gives 6, 2 gives 4 (R36). `RC = 3` never reaches it: INIT and
PROCESS refuse that code at acceptance (R21). -/
def ndrOf (rc : BitVec 2) : Ndr := if rc = 0 then .ten else if rc = 1 then .six else .four

/-- The STATUS word (R16): bit 0 BUSY, 1 DONE, 2 SV, 3 XV, 4 KV, 5 WRB, 7:6 zero, 11:8 ERR, 15:12 zero,
20:16 DRC, 31:21 zero. -/
def statusWord (s : State) : Word :=
  (0 : BitVec 11) ++ s.drc ++ (0 : BitVec 4) ++ s.err.code ++ (0 : BitVec 2)
    ++ BitVec.ofBool s.wrb ++ BitVec.ofBool s.kv ++ BitVec.ofBool s.xv ++ BitVec.ofBool s.sv
    ++ BitVec.ofBool s.done ++ BitVec.ofBool s.busy

/-- The CFG word (R20): bits 1:0 RC, 4 KS, 8 VEN, the others zero. -/
def cfgWord (c : Cfg) : Word :=
  (0 : BitVec 23) ++ BitVec.ofBool c.ven ++ (0 : BitVec 3) ++ BitVec.ofBool c.ks ++ (0 : BitVec 2) ++ c.rc

/-- The CAP word (R23): bits 2:0 BPI, bit 4 CTR64, the others zero. -/
def capWord (c : Config) : Word :=
  (0 : BitVec 27) ++ BitVec.ofBool (decide (c.ctrWidth = .w64)) ++ (0 : BitVec 1) ++ BitVec.ofNat 3 c.bpi.count

/-- `RangeBad(s, d, n, ks)` on unbounded integers (41_stage_commands.md R103). -/
def rangeBad (aw s d n : Nat) (ks : Bool) : Bool :=
  decide (0 < n) && (decide (2 ^ aw < d + n) || (!ks && decide (2 ^ aw < s + n)))

/-- `OverlapBad(s, d, n, ks)` on unbounded integers (41_stage_commands.md R103). -/
def overlapBad (s d n : Nat) (ks : Bool) : Bool :=
  !ks && decide (0 < n) && decide (s ≠ d) && decide (s < d + n) && decide (d < s + n)

/-- The acceptance checks of INIT and PROCESS, in order: ROUNDS, RANGE, OVERLAP (R104, R114).
`Err.none` means that no check fails. -/
def callCheck (s : State) : Err :=
  if s.cfg.rc = 3 then .rounds
  else if rangeBad s.config.aw s.src.toNat s.dst.toNat s.len.toNat s.cfg.ks then .range
  else if overlapBad s.src.toNat s.dst.toNat s.len.toNat s.cfg.ks then .overlap
  else .none

/-- The acceptance check of LOADX and BLOCK: `SV = 0` raises SEQ (R105; 42_block_and_process.md R113). -/
def baseCheck (s : State) : Err := if s.sv then .none else .seq

/-- The acceptance checks of DROUND: `XV = 0` raises SEQ, otherwise `DRC >= NDR` raises SEQ (R106). -/
def droundCheck (s : State) : Err :=
  if s.xv then (if s.ndr.toNat ≤ s.drc.toNat then .seq else .none) else .seq

/-- The acceptance checks of FEED: `XV = 0` raises SEQ, otherwise `DRC != NDR` raises SEQ (R107). -/
def feedCheck (s : State) : Err :=
  if s.xv then (if s.drc.toNat = s.ndr.toNat then .none else .seq) else .seq

/-- The acceptance checks of EMIT, in order: `KV = 0` raises SEQ, `n > REM` raises RANGE (R108). -/
def emitCheck (n : BitVec 7) (s : State) : Err :=
  if s.kv then (if s.rem.toNat < n.toNat then .range else .none) else .seq

end Sys2Proof.Machine
end

