-- ==== Sys2Proof/Machine/Operands.lean ====
section
/-! DEFINITION. The register block: which register stands at an offset, what a read of it returns and
what a write of it changes (10_state.md R14 to R30; 43_host_register_access.md R124, R125), and the host
bus accesses that reach it (20_memory.md R53, R57). -/

namespace Sys2Proof.Machine

/-- The registers of the block (10_state.md R14); `reserved` is every offset that is not in the table. -/
inductive Reg where
  | cmd
  | status
  | cfg
  | cap
  | src
  | dst
  | len
  | ctr0
  | ctr1
  | nonce0
  | nonce1
  | const (i : Fin 4)
  | key (i : Fin 8)
  | reserved
deriving DecidableEq, Repr

/-- The register at a word-aligned offset (R14). -/
def regAt (off : Nat) : Reg :=
  match off with
  | 0x00 => .cmd
  | 0x04 => .status
  | 0x08 => .cfg
  | 0x0C => .cap
  | 0x10 => .src
  | 0x14 => .dst
  | 0x18 => .len
  | 0x20 => .ctr0
  | 0x24 => .ctr1
  | 0x28 => .nonce0
  | 0x2C => .nonce1
  | 0x30 => .const 0
  | 0x34 => .const 1
  | 0x38 => .const 2
  | 0x3C => .const 3
  | 0x40 => .key 0
  | 0x44 => .key 1
  | 0x48 => .key 2
  | 0x4C => .key 3
  | 0x50 => .key 4
  | 0x54 => .key 5
  | 0x58 => .key 6
  | 0x5C => .key 7
  | _ => .reserved

/-- The offset of a register (R14). The reserved offsets have many; 0x1C stands for them here. -/
def Reg.offset : Reg → Nat
  | .cmd => 0x00
  | .status => 0x04
  | .cfg => 0x08
  | .cap => 0x0C
  | .src => 0x10
  | .dst => 0x14
  | .len => 0x18
  | .reserved => 0x1C
  | .ctr0 => 0x20
  | .ctr1 => 0x24
  | .nonce0 => 0x28
  | .nonce1 => 0x2C
  | .const i => 0x30 + 4 * i.val
  | .key i => 0x40 + 4 * i.val

/-- `trunc_AW(v)` as an address (00_scope.md R8; 20_memory.md R59). -/
def truncAddr (c : Config) (v : Nat) : Nat := v % 2 ^ c.aw

/-- A register value cut to its low `AW` bits: "the upper bits read 0 and ignore writes" (10_state.md R24). -/
def truncAW (c : Config) (w : Word) : Word := BitVec.ofNat 32 (truncAddr c w.toNat)

/-- A constant word by number (10_state.md R28). -/
def constWord (i : Fin 4) : Word :=
  match i with
  | 0 => constRow.l0
  | 1 => constRow.l1
  | 2 => constRow.l2
  | 3 => constRow.l3

/-- What `RD` returns (43_host_register_access.md R125). -/
def readReg (s : State) : Reg → Word
  | .cmd => 0
  | .status => statusWord s
  | .cfg => cfgWord s.cfg
  | .cap => capWord s.config
  | .src => s.src
  | .dst => s.dst
  | .len => s.len
  | .ctr0 => s.ctr0
  | .ctr1 => s.ctr1
  | .nonce0 => s.nonce0
  | .nonce1 => s.nonce1
  | .const i => constWord i
  | .key _ => 0
  | .reserved => 0

/-- The fields a write of `CFG` takes: RC from bits 1:0, KS from bit 4, VEN from bit 8, which is hardwired
to 0 when `BPI = 1` (R124; 10_state.md R22). -/
def cfgOf (c : Config) (data : Word) : Cfg where
  rc := data.extractLsb' 0 2
  ks := data.getLsbD 4
  ven := decide (1 < c.bpi.count) && data.getLsbD 8

/-- A write of `STATUS`: bit 31 is `ERRCLR`, bit 5 clears `WRB`, every other bit is ignored
(10_state.md R16; 43_host_register_access.md R124, R128; 60_exceptions.md R153). -/
def writeStatus (data : Word) (s : State) : State :=
  { s with
    err := if data.getLsbD 31 then .none else s.err
    wrb := if data.getLsbD 5 then false else s.wrb }

/-- What a `WR` that is not dropped changes, for every register but `CMD`, whose write is dispatched
(R124). Writes of read-only and reserved offsets change nothing. -/
def writeReg (r : Reg) (data : Word) (s : State) : State :=
  match r with
  | .cmd => s
  | .status => writeStatus data s
  | .cfg => { s with cfg := cfgOf s.config data }
  | .cap => s
  | .src => { s with src := truncAW s.config data }
  | .dst => { s with dst := truncAW s.config data }
  | .len => { s with len := data }
  | .ctr0 => { s with ctr0 := data }
  | .ctr1 => { s with ctr1 := data }
  | .nonce0 => { s with nonce0 := data }
  | .nonce1 => { s with nonce1 := data }
  | .const _ => s
  | .key i => { s with key := s.key.set i.val data }
  | .reserved => s

/-- How a host bus access meets the register block: not at all, as an access the platform refuses, or
at a word-aligned offset. -/
inductive Select where
  | outside
  | busError
  | at (off : Nat)
deriving DecidableEq, Repr

/-- The block is the 256 bytes at `BASE`; it "accepts only naturally aligned 32-bit accesses", and an
access of another size or alignment is a platform bus error (20_memory.md R46, R53, R57; log 16). -/
def select (c : Config) (addr size : Nat) : Select :=
  if c.base + 256 ≤ addr ∨ addr + size ≤ c.base then .outside
  else if c.base ≤ addr ∧ size = 4 ∧ (addr - c.base) % 4 = 0 then .at (addr - c.base)
  else .busError

end Sys2Proof.Machine
end

