-- ==== Sys2Proof/Machine/Memory.lean ====
section
/-! DEFINITION. Data memory: one byte read and written in the canonical form, which addresses exist,
and the byte movement of an EMIT stage (20_memory.md R46 to R62; 41_stage_commands.md R108). -/

namespace Sys2Proof.Machine

/-- The byte at an address; an address that is not listed reads as `Config.unwritten` (log 4). -/
def Memory.read : Memory → Nat → Byte
  | [], _ => Config.unwritten
  | (b, v) :: m, a => if b = a then v else Memory.read m a

/-- Writes one byte, keeping the addresses rising and no entry equal to `Config.unwritten`. -/
def Memory.write : Memory → Nat → Byte → Memory
  | [], a, v => if v = Config.unwritten then [] else [(a, v)]
  | (b, w) :: m, a, v =>
    if a < b then (if v = Config.unwritten then (b, w) :: m else (a, v) :: (b, w) :: m)
    else if a = b then (if v = Config.unwritten then m else (a, v) :: m)
    else (b, w) :: Memory.write m a v

/-- Every address of the list is greater than `a`. -/
def Memory.above (a : Nat) : Memory → Bool
  | [] => true
  | (b, _) :: _ => decide (a < b)

/-- The canonical form: addresses strictly rising, no entry equal to what an unlisted address reads as. -/
def Memory.wf : Memory → Bool
  | [] => true
  | (b, v) :: m => decide (v ≠ Config.unwritten) && Memory.above b m && Memory.wf m

/-- Is the address in one of the platform's holes? -/
def Region.mem (r : Region) (a : Nat) : Bool := decide (r.base ≤ a) && decide (a < r.base + r.size)

/-- The platform predicate `MemOK(addr)`: the address is below `2^AW` and in no hole
(00_scope.md R6; 20_memory.md R46, R57; log 3). The spec states it for the engine's accesses; that other
agents' accesses go by it too is a DESIGN CHOICE (log 23). -/
def memOK (c : Config) (a : Nat) : Bool := decide (a < 2 ^ c.aw) && c.holes.all fun r => !Region.mem r a

/-- Does `MemOK` admit every access of an EMIT stage of `n` bytes: the write of output byte `i`, and in
XOR mode the read of input byte `i`, at the addresses of R108? -/
def rangeOK (c : Config) (ksl : Bool) (sp dp : Nat) : Nat → Bool
  | 0 => true
  | n + 1 => rangeOK c ksl sp dp n && memOK c (truncAddr c (dp + n)) && (ksl || memOK c (truncAddr c (sp + n)))

/-- The bytes of an EMIT stage: output byte `i` becomes input byte `i` (0x00 in keystream-only mode)
XOR keystream byte `i`. The read of index `i` precedes its write; increasing `i` is one of the orders
20_memory.md R60 leaves free (log 13). -/
def moveBytes (c : Config) (ksl : Bool) : List Byte → Nat → Nat → Memory → Memory
  | [], _, _, m => m
  | k :: ks, sp, dp, m =>
    let t := if ksl then 0x00 else Memory.read m (truncAddr c sp)
    moveBytes c ksl ks (sp + 1) (dp + 1) (Memory.write m (truncAddr c dp) (t ^^^ k))

/-- Data memory after a command was ended before its completion: each output byte `i < n`, at `dst + i`,
holds either its value from before the command (`old`) or the value the completed command would have
written (`new i`), the free value `Config.landed draw i` saying which; bytes outside the output range are
as they are (60_exceptions.md R151; 70_reset_and_hazards.md R166; log 11, log 12). A byte whose address
`MemOK` refuses, and one with no new value (its input cannot be read), is old. -/
def settleBytes (c : Config) (draw : Nat) (new : Nat → Option Byte) (old : Memory) (dst : Nat) :
    Nat → Memory → Memory
  | 0, m => m
  | n + 1, m =>
    let a := truncAddr c (dst + n)
    let o := Memory.read old a
    Memory.write (settleBytes c draw new old dst n m) a
      (if memOK c a && Config.landed draw n then (new n).getD o else o)

/-! ### Races (20_memory.md R62; log 14) -/

/-- The index of address `a` in a buffer from `base` on, taken modulo `2^AW`. -/
def bufferIndex (c : Config) (base a : Nat) : Nat := truncAddr c (a + 2 ^ c.aw - base)

/-- Is `a` one of the `n` addresses from `base` on? -/
def inBuffer (c : Config) (base n a : Nat) : Bool := decide (bufferIndex c base a < n)

/-- The byte the engine uses of an input address: the latest write of it that the engine's read came
after, or the byte from before the command. -/
def seenByte (a : Nat) (old : Byte) : List Race → Byte
  | [] => old
  | r :: rest => if r.addr = a ∧ Config.sees r.tag = true then r.value else seenByte a old rest

end Sys2Proof.Machine
end

