-- ==== Sys2Proof/Machine/Ops.lean ====
section
/-! DEFINITION. The operations the commands share: the stages of the per-block pipeline, the moves of a
block's bytes, taking an error and acknowledging it, acceptance and completion (41_stage_commands.md R100;
43_host_register_access.md R126 to R128; 60_exceptions.md R150, R151). -/

namespace Sys2Proof.Machine

/-! ### The stages. A stage works on slot 0, or in a vector iteration on all slots. -/

/-- The base matrix the argument registers describe (40_arx_datapath.md R77). -/
def State.argMatrix (s : State) : Matrix := initMatrix s.key s.ctr0 s.ctr1 s.nonce0 s.nonce1

/-- The effect of INIT (41_stage_commands.md R104). -/
def initPhase (s : State) : State :=
  { s with
    S := s.argMatrix
    ndr := ndrOf s.cfg.rc
    ksl := s.cfg.ks
    venl := s.cfg.ven
    sp := s.src
    dp := s.dst
    rem := s.len
    sv := true
    xv := false
    kv := false
    drc := 0 }

/-- Slot `j` takes a copy of the base matrix with counter field `base_counter + j`, for `j` = 1, 2, ...
when started on the base matrix itself (42_block_and_process.md R116). -/
def loadSlots (w : CtrWidth) (m : Matrix) : List Slot → List Slot
  | [] => []
  | sl :: rest => { sl with x := ctrInc w m } :: loadSlots w (ctrInc w m) rest

/-- Each slot adds its own pre-round state and serialises (R116). -/
def feedSlots (w : CtrWidth) (m : Matrix) : List Slot → List Slot
  | [] => []
  | sl :: rest =>
    let z := feedForward sl.x (ctrInc w m)
    { x := z, ks := ser z } :: feedSlots w (ctrInc w m) rest

/-- The effect of LOADX (41_stage_commands.md R105); in a vector iteration every slot is loaded (R116). -/
def loadPhase (vec : Bool) (s : State) : State :=
  { s with
    X := s.S
    slots := if vec then loadSlots s.config.ctrWidth s.S s.slots else s.slots
    xv := true
    drc := 0 }

/-- The effect of DROUND (R106); in a vector iteration every slot does it, on row registers (R116). -/
def roundPhase (vec : Bool) (s : State) : State :=
  { s with
    X := if vec then DRlane s.X else DR s.X
    slots := if vec then s.slots.map fun sl => { sl with x := DRlane sl.x } else s.slots
    drc := s.drc + 1 }

/-- `k` double-rounds. -/
def roundPhases (vec : Bool) : Nat → State → State
  | 0, s => s
  | k + 1, s => roundPhases vec k (roundPhase vec s)

/-- How many blocks a pass makes: `BPI` in a vector iteration, else one (R116). -/
def passBlocks (vec : Bool) (s : State) : Nat := if vec then s.config.bpi.count else 1

/-- The effect of FEED (R107): feed-forward, serialise, then the counter advance, which in a vector
iteration is by `BPI` (R116). -/
def feedPhase (vec : Bool) (s : State) : State :=
  { s with
    X := feedForward s.X s.S
    KS := ser (feedForward s.X s.S)
    slots := if vec then feedSlots s.config.ctrWidth s.S s.slots else s.slots
    S := ctrIncBy s.config.ctrWidth s.S (passBlocks vec s)
    xv := false
    drc := 0
    kv := true }

/-- One pass of the block pipeline: LOADX, `NDR` times DROUND, FEED (42_block_and_process.md R113, R116). -/
def blockPass (vec : Bool) (s : State) : State :=
  feedPhase vec (roundPhases vec s.ndr.toNat (loadPhase vec s))

/-- The keystream bytes that stand ready: `KS` of slot 0, then of the further slots. -/
def State.readyBytes (s : State) : List Byte := s.KS.toList ++ s.slots.flatMap fun sl => sl.ks.toList

/-- May an EMIT stage of `n` bytes make all its accesses? -/
def State.emitOK (s : State) (n : Nat) : Bool := rangeOK s.config s.ksl s.sp.toNat s.dp.toNat n

/-- The effect of EMIT (41_stage_commands.md R108), of `n <= 64` bytes from `KS`, or of a vector
iteration's `n = 64 * BPI` bytes from all slots (R116). -/
def emitPhase (n : Nat) (s : State) : State :=
  { s with
    mem := moveBytes s.config s.ksl (s.readyBytes.take n) s.sp.toNat s.dp.toNat s.mem
    sp := BitVec.ofNat 32 (truncAddr s.config (s.sp.toNat + n))
    dp := BitVec.ofNat 32 (truncAddr s.config (s.dp.toNat + n))
    rem := s.rem - BitVec.ofNat 32 n
    kv := false }

/-- Is the next pass of PROCESS a vector iteration: `BPI > 1`, `VENL = 1`, `REM >= 64 * BPI`
(R116, R117; it is used whenever it may be, log 19)? -/
def State.vectorPass (s : State) : Bool :=
  decide (1 < s.config.bpi.count) && s.venl && decide (64 * s.config.bpi.count ≤ s.rem.toNat)

/-- How many bytes the next pass of PROCESS moves: `64 * BPI`, or 64, or the tail (R114, R116, R117). -/
def State.passBytes (s : State) : Nat :=
  if s.vectorPass then 64 * s.config.bpi.count else min 64 s.rem.toNat

/-! ### The command in progress and its buffers. -/

/-- The command in progress, from `OP` and the EMIT operand; none when the engine is not busy
(10_state.md R38). -/
def State.current (s : State) : Option Instr :=
  if s.busy then
    if s.op = 0x05 then some (.emit s.emitN) else formatZ s.op
  else none

/-- Where a command moves bytes: how many, from where, to where. `ks` tells that no input byte is read. -/
structure Footprint where
  ks : Bool
  src : Nat
  dst : Nat
  count : Nat
deriving DecidableEq, Repr

/-- The footprint of the command in progress (20_memory.md R54): for EMIT `[SP, SP+n)` and `[DP, DP+n)`
as they stood at acceptance; for PROCESS the whole call's buffers; for the others nothing. -/
def State.footprint (s : State) : Footprint :=
  match s.current with
  | some (.emit n) =>
    let back := if s.fin then n.toNat else 0
    { ks := s.ksl
      src := truncAddr s.config (s.sp.toNat + 2 ^ s.config.aw - back)
      dst := truncAddr s.config (s.dp.toNat + 2 ^ s.config.aw - back)
      count := n.toNat }
  | some .process => { ks := s.cfg.ks, src := s.src.toNat, dst := s.dst.toNat, count := s.len.toNat }
  | some .nop | some .init | some .loadx | some .dround | some .feed | some .block | none =>
    { ks := true, src := 0, dst := 0, count := 0 }

/-- Is `a` a byte of the output buffer that belongs to the engine (20_memory.md R62)? -/
def State.ownsOutput (s : State) (a : Nat) : Bool := inBuffer s.config s.footprint.dst s.footprint.count a

/-- Is `a` a byte of the input buffer that belongs to the engine (20_memory.md R62)? -/
def State.ownsInput (s : State) (a : Nat) : Bool :=
  !s.footprint.ks && inBuffer s.config s.footprint.src s.footprint.count a

/-- Keystream byte `i` of the command in progress: of the block it was accepted with for EMIT, of the call
for PROCESS (R108; 40_arx_datapath.md R96). -/
def State.outputKey (s : State) (i : Nat) : Byte :=
  match s.current with
  | some .process => keystream s.config.ctrWidth s.argMatrix (ndrOf s.cfg.rc).toNat i
  | some (.emit _) | some .nop | some .init | some .loadx | some .dround | some .feed | some .block | none =>
    s.accKS.toList.getD i 0

/-- The value the completed command in progress writes to its output byte `i`: input byte XOR keystream
byte (60_exceptions.md R151), the input byte being the one from before the command or one another agent
wrote since (20_memory.md R62); none when the platform refuses the read of the input byte. -/
def State.newByte (s : State) (i : Nat) : Option Byte :=
  if s.footprint.ks then some (s.outputKey i)
  else
    let a := truncAddr s.config (s.footprint.src + i)
    if memOK s.config a then some (seenByte a (Memory.read s.accMem a) s.races ^^^ s.outputKey i) else none

/-- The output bytes whose input byte another agent wrote: the engine used the byte it saw (R62). -/
def State.raceInputs (s : State) : List Race → Memory → Memory
  | [], m => m
  | r :: rest, m =>
    let i := bufferIndex s.config s.footprint.src r.addr
    if s.ownsInput r.addr then
      match s.newByte i with
      | some v => Memory.write (s.raceInputs rest m) (truncAddr s.config (s.footprint.dst + i)) v
      | none => s.raceInputs rest m
    else s.raceInputs rest m

/-- The output bytes that another agent wrote: any value (R62). -/
def State.raceOutputs (s : State) : List Race → Memory → Memory
  | [], m => m
  | r :: rest, m =>
    if s.ownsOutput r.addr then Memory.write (s.raceOutputs rest m) r.addr (Config.raced r.tag)
    else s.raceOutputs rest m

/-- Data memory when the command in progress is ended before completion (60_exceptions.md R151;
70_reset_and_hazards.md R166). -/
def State.settled (s : State) : Memory :=
  s.raceOutputs s.races
    (settleBytes s.config s.draw s.newByte s.accMem s.footprint.dst s.footprint.count s.mem)

/-- Data memory when the command in progress completes: as the effect left it, but for the output bytes a
race touched (20_memory.md R61, R62). -/
def State.completed (s : State) : Memory := s.raceOutputs s.races (s.raceInputs s.races s.mem)

/-- What another agent reads of an output byte before completion: its value from before the command or the
one the completed command writes (93_implementation_defined.md U27), or any value where a race touched it. -/
def State.windowByte (s : State) (a : Nat) : Byte :=
  let i := bufferIndex s.config s.footprint.dst a
  let old := Memory.read s.accMem a
  if s.races.any fun r => r.addr = a then Config.raced s.draw
  else if Config.landed s.draw i then (s.newByte i).getD old else old

/-! ### Errors, acceptance, completion. -/

/-- TAKING AN ERROR. A failure found at the `CMD` write: `ERR <- code`, `DONE <- 0`, nothing else
(60_exceptions.md R150). BUS: the command ends, `ERR <- BUS`, the validity flags and `DRC` are cleared,
each output byte is old or new (R151). No position, status or address is saved (R152). -/
def State.raise (s : State) (e : Err) : State :=
  match e with
  | .bus =>
    { s with
      busy := false
      op := 0x00
      ph := .idle
      emitN := 0
      fin := false
      err := .bus
      done := false
      sv := false
      xv := false
      kv := false
      drc := 0
      mem := s.settled
      accMem := []
      accKS := zeroBlock
      races := []
      draw := s.draw + 1 }
  | .none | .illcmd | .rounds | .seq | .range | .overlap => { s with err := e, done := false }

/-- RETURN FROM AN ERROR: the acknowledge sets `ERR <- 0` and restores nothing (60_exceptions.md R153;
43_host_register_access.md R128). `writeStatus` with bit 31 set is this operation on the bus. -/
def State.acknowledge (s : State) : State := { s with err := .none }

/-- The first phase of a command (10_state.md R38). NOP passes none and stays IDLE (log 8). -/
def firstPhase : Instr → Phase
  | .nop => .idle
  | .init => .initp
  | .loadx => .loadp
  | .dround => .roundp
  | .feed => .feedp
  | .emit _ => .emitp
  | .block => .loadp
  | .process => .initp

/-- The EMIT operand of a command, 0 for the others. -/
def byteCount : Instr → BitVec 7
  | .emit n => n
  | .nop | .init | .loadx | .dround | .feed | .block | .process => 0

/-- The block a command keeps from acceptance on: EMIT's. -/
def keptBlock (i : Instr) (b : Block) : Block :=
  match i with
  | .emit _ => b
  | .nop | .init | .loadx | .dround | .feed | .block | .process => zeroBlock

/-- Acceptance: `DONE <- 0`, `OP <- opcode`, `BUSY <- 1` (41_stage_commands.md R100;
43_host_register_access.md R126). -/
def State.accept (s : State) (i : Instr) : State :=
  { s with
    done := false
    busy := true
    op := i.opcode
    ph := firstPhase i
    emitN := byteCount i
    fin := false
    accMem := s.mem
    accKS := keptBlock i s.KS
    races := [] }

/-- The effect is complete; completion follows in an engine step of its own (log 9). -/
def State.finish (s : State) (p : Phase) : State := { s with ph := p, fin := true }

/-- Completion: `BUSY <- 0; OP <- 0x00; PH <- IDLE; DONE <- 1` (43_host_register_access.md R127). -/
def State.complete (s : State) : State :=
  { s with
    busy := false
    op := 0x00
    ph := .idle
    emitN := 0
    fin := false
    mem := s.completed
    accMem := []
    accKS := zeroBlock
    races := []
    done := true }

/-- The shape of every command's meaning (41_stage_commands.md R100). On an engine that is not busy the
command is being issued: its acceptance checks are made, and it is accepted or its first failing check is
raised. On a busy engine it is the command in progress: its effect is performed. -/
def runCommand (i : Instr) (check : State → Err) (effect : State → State) (s : State) :
    Host.Outcome State Fault Refusal :=
  if s.busy then .next (effect s)
  else
    match check s with
    | .none => .next (s.accept i)
    | .illcmd => .next (s.raise .illcmd)
    | .rounds => .next (s.raise .rounds)
    | .seq => .next (s.raise .seq)
    | .range => .next (s.raise .range)
    | .overlap => .next (s.raise .overlap)
    | .bus => .next (s.raise .bus)

end Sys2Proof.Machine
end

