-- ==== Sys2Proof/Machine/Stage.lean ====
section
/-! DEFINITION. The stage commands NOP, INIT, LOADX, DROUND, FEED, EMIT (41_stage_commands.md R102 to R108). -/

namespace Sys2Proof.Machine

/-- NOP: no check, no effect (R102). -/
def execNop (s : State) : Host.Outcome State Fault Refusal :=
  runCommand .nop (fun _ => .none) (fun s => s.finish .idle) s

/-- INIT: checks ROUNDS, RANGE, OVERLAP; builds the base matrix and latches the call (R104). -/
def execInit (s : State) : Host.Outcome State Fault Refusal :=
  runCommand .init callCheck (fun s => (initPhase s).finish .initp) s

/-- LOADX: the working matrix becomes a copy of the base matrix (R105). -/
def execLoadx (s : State) : Host.Outcome State Fault Refusal :=
  runCommand .loadx baseCheck (fun s => (loadPhase false s).finish .loadp) s

/-- DROUND: one double-round on the working matrix (R106). -/
def execDround (s : State) : Host.Outcome State Fault Refusal :=
  runCommand .dround droundCheck (fun s => (roundPhase false s).finish .roundp) s

/-- FEED: feed-forward, serialise, advance the counter (R107). -/
def execFeed (s : State) : Host.Outcome State Fault Refusal :=
  runCommand .feed feedCheck (fun s => (feedPhase false s).finish .feedp) s

/-- The effect of EMIT n: the bytes move, or the platform refuses an access and BUS is raised (R108). -/
def emitEffect (n : BitVec 7) (s : State) : State :=
  if s.emitOK n.toNat then (emitPhase n.toNat s).finish .emitp else s.raise .bus

/-- EMIT n: checks SEQ, RANGE; `n` bytes of the block are combined into the output (R108). -/
def execEmit (n : BitVec 7) (s : State) : Host.Outcome State Fault Refusal :=
  runCommand (.emit n) (emitCheck n) (emitEffect n) s

end Sys2Proof.Machine
end

