-- ==== Sys2Proof/Machine/Composite.lean ====
section
/-! DEFINITION. The composite commands BLOCK and PROCESS, the vector path and its scalar fallback
(42_block_and_process.md R113 to R119). -/

namespace Sys2Proof.Machine

/-- BLOCK: one whole block into `KS` (R113). -/
def execBlock (s : State) : Host.Outcome State Fault Refusal :=
  runCommand .block baseCheck (fun s => (blockPass false s).finish .feedp) s

/-- The passes of PROCESS while bytes remain: vector iterations while `REM >= 64 * BPI` if enabled, then
full blocks, then the tail (R114, R116, R117). A refused access raises BUS. `fuel` bounds the passes. -/
def processPasses : Nat → State → State
  | 0, s => { s with fin := true }
  | fuel + 1, s =>
    if s.rem = 0 then { s with fin := true }
    else
      let n := s.passBytes
      let t := blockPass s.vectorPass s
      if t.emitOK n then processPasses fuel { emitPhase n t with ph := .emitp } else t.raise .bus

/-- The effect of PROCESS: INIT's, then the passes; `ceil(LEN / 64)` passes always suffice (R114, R119). -/
def processEffect (s : State) : State :=
  processPasses ((s.len.toNat + 63) / 64 + 1) (initPhase s)

/-- PROCESS: INIT's checks; the whole call (R114). -/
def execProcess (s : State) : Host.Outcome State Fault Refusal :=
  runCommand .process callCheck processEffect s

/-! ### One phase at a time (10_state.md R38). -/

/-- One phase of BLOCK: LOADP, ROUNDP `NDR` times, FEEDP (R38). -/
def blockPhase (s : State) : State :=
  match s.ph with
  | .loadp => { loadPhase false s with ph := .roundp }
  | .roundp =>
    let t := roundPhase false s
    if t.drc.toNat < t.ndr.toNat then t else { t with ph := .feedp }
  | .feedp => (feedPhase false s).finish .feedp
  | .idle | .initp | .emitp => s

/-- One phase of PROCESS: INITP, then for each pass LOADP, ROUNDP `NDR` times, FEEDP, EMITP (R38; R116). -/
def processPhase (s : State) : State :=
  match s.ph with
  | .initp =>
    let t := initPhase s
    if t.rem = 0 then t.finish .initp else { t with ph := .loadp }
  | .loadp => { loadPhase s.vectorPass s with ph := .roundp }
  | .roundp =>
    let t := roundPhase s.vectorPass s
    if t.drc.toNat < t.ndr.toNat then t else { t with ph := .feedp }
  | .feedp => { feedPhase s.vectorPass s with ph := .emitp }
  | .emitp =>
    if s.emitOK s.passBytes then
      let t := emitPhase s.passBytes s
      if t.rem = 0 then t.finish .emitp else { t with ph := .loadp }
    else s.raise .bus
  | .idle => s

/-- One phase of the command in progress (R38): a stage command has exactly one, NOP none. -/
def phaseStep (i : Instr) (s : State) : State :=
  match i with
  | .nop => s.finish .idle
  | .init => (initPhase s).finish .initp
  | .loadx => (loadPhase false s).finish .loadp
  | .dround => (roundPhase false s).finish .roundp
  | .feed => (feedPhase false s).finish .feedp
  | .emit n => emitEffect n s
  | .block => blockPhase s
  | .process => processPhase s

end Sys2Proof.Machine
end

