-- ==== Sys2Proof/Machine/Dispatch.lean ====
section
/-! DEFINITION. One arm per command (spec/opcode_table.json). -/

namespace Sys2Proof.Machine

-- The meaning of a command at the point where the engine stands: its acceptance when the engine is not
-- busy, its effect when it is the command in progress (41_stage_commands.md R100).
def exec (i : Instr) (s : State) : Host.Outcome State Fault Refusal :=
  match i with
  | .nop => Sys2Proof.Machine.execNop s
  | .init => Sys2Proof.Machine.execInit s
  | .loadx => Sys2Proof.Machine.execLoadx s
  | .dround => Sys2Proof.Machine.execDround s
  | .feed => Sys2Proof.Machine.execFeed s
  | .emit n => Sys2Proof.Machine.execEmit n s
  | .block => Sys2Proof.Machine.execBlock s
  | .process => Sys2Proof.Machine.execProcess s

end Sys2Proof.Machine
end

