-- ==== Sys2Proof/Machine/HostAccess.lean ====
section
/-! DEFINITION. What the agents do to the machine: host register accesses and command dispatch, the
engine's turns, other agents' memory accesses, reset (43_host_register_access.md R124 to R128;
20_memory.md R53, R62; 70_reset_and_hazards.md R166). -/

namespace Sys2Proof.Machine

/-- `Dispatch(w)` of a `CMD` write on an engine that is not busy: dropped while `ERR != 0`; an illegal
word raises ILLCMD; else the command's acceptance (R126; 60_exceptions.md R142, R154). -/
def dispatchWord (w : Word) (s : State) : Host.Outcome State Fault Refusal :=
  match s.err with
  | .none =>
    match decode w with
    | some i => exec i s
    | none => .next (s.raise .illcmd)
  | .illcmd | .rounds | .seq | .range | .overlap | .bus => .next s

/-- `WR off, data` (R124): while `BUSY = 1` the write is dropped and sets `WRB`, whatever `off` is. -/
def writeAt (off : Nat) (data : Word) (s : State) : Host.Outcome State Fault Refusal :=
  if s.busy then .next { s with wrb := true }
  else
    match regAt off with
    | .cmd => dispatchWord data s
    | r => .next (writeReg r data s)

/-- A host bus write. An access the platform refuses "changes no state of the engine" (20_memory.md R53). -/
def hostWrite (addr size : Nat) (data : Word) (s : State) : Host.Outcome State Fault Refusal :=
  match select s.config addr size with
  | .outside => .next { s with bus := .none }
  | .busError => .next { s with bus := .busError }
  | .at off => writeAt off data { s with bus := .ack }

/-- A host bus read: `RD off` changes no state of the engine and is never dropped (R125). -/
def hostRead (addr size : Nat) (s : State) : State :=
  match select s.config addr size with
  | .outside => { s with bus := .none }
  | .busError => { s with bus := .busError }
  | .at off => { s with bus := .word (readReg s (regAt off)) }

/-- Does the value a poll of `wait` reads end the wait: is its bit 0, `BUSY`, 0 (30_encoding.md R75)? -/
def pollDone (status : Word) : Bool := !status.getLsbD 0

/-- One poll of the host's `wait`: a read of `STATUS`; unless it ends the wait, the engine moves and the host
polls again (30_encoding.md R75; log 21). The last value read stays as the bus's answer. -/
def hostWait (g : Grain) (s : State) : State :=
  { s with
    bus := .word (readReg s .status)
    inbox := if pollDone (readReg s .status) then s.inbox else .engine g :: .hostWait g :: s.inbox }

/-- The engine's turn (R127; 10_state.md R38; log 7): nothing when it is idle; completion when the effect
is complete; else the effect of the command in progress, all of it when it has not begun and the schedule
says so, or one phase of it. -/
def engineTurn (g : Grain) (s : State) : Host.Outcome State Fault Refusal :=
  match s.current with
  | none => .next s
  | some i =>
    if s.fin then .next s.complete
    else
      match g with
      | .whole => if s.ph = firstPhase i then exec i s else .next (phaseStep i s)
      | .phase => .next (phaseStep i s)

/-- Another agent writes a byte of data memory. A byte of the engine's buffers in the busy window is a race
(20_memory.md R62): the write takes place, and what the command makes of it is open until it ends (log 14).
DESIGN CHOICE (log 23): where `MemOK` refuses the engine (00_scope.md R6; R58), the other agent's write is
refused too, with a bus error, and changes nothing. -/
def memWrite (a : Nat) (v : Byte) (s : State) : State :=
  if memOK s.config a then
    if s.ownsOutput a || s.ownsInput a then
      { s with
        mem := Memory.write s.mem a v
        races := ⟨a, v, s.draw⟩ :: s.races
        draw := s.draw + 1
        bus := .ack }
    else { s with mem := Memory.write s.mem a v, bus := .ack }
  else { s with bus := .busError }

/-- Another agent reads a byte of data memory; of an output byte in the busy window it reads the old or the
new value (93_implementation_defined.md U27). DESIGN CHOICE (log 23): where `MemOK` refuses the engine, the
other agent's read is refused too, with a bus error. -/
def memRead (a : Nat) (s : State) : State :=
  if memOK s.config a then
    if s.ownsOutput a then { s with bus := .byte (s.windowByte a), draw := s.draw + 1 }
    else { s with bus := .byte (Memory.read s.mem a) }
  else { s with bus := .busError }

/-- The reset input (70_reset_and_hazards.md R166, R167): the reset state, data memory not touched; of a
command in progress each output byte is old or new. What the outside does next is not the engine's. -/
def resetInput (s : State) : State :=
  { State.resetWith s.config with
    mem := s.settled
    draw := s.draw + 1
    inbox := s.inbox }

/-- One event. -/
def handle (e : Event) (s : State) : Host.Outcome State Fault Refusal :=
  match e with
  | .hostWrite addr size data => hostWrite addr size data s
  | .hostRead addr size => .next (hostRead addr size s)
  | .hostWait g => .next (hostWait g s)
  | .engine g => engineTurn g s
  | .memWrite a v => .next (memWrite a v s)
  | .memRead a => .next (memRead a s)
  | .reset => .next (resetInput s)

/-- One step: the next event of the outside, or, when it does nothing, the engine's turn (log 7). -/
def nextMove (s : State) : Host.Outcome State Fault Refusal :=
  match s.inbox with
  | [] => engineTurn .whole s
  | e :: rest => handle e { s with inbox := rest }

/-- The host transaction `WR CMD, w` as an event of this instance (10_state.md R15; 30_encoding.md R73). -/
def cmdWrite (c : Config) (w : Word) : Event := .hostWrite c.base 4 w

end Sys2Proof.Machine
end

