-- ==== Sys2Proof/Machine/Assembler.lean ====
section
/-! DEFINITION. The host's side: transactions, the assembler's statements and pseudo-instructions, and
the host program that stands for the source's entry point (30_encoding.md R73 to R76). -/

namespace Sys2Proof.Machine

/-- A register transaction of a host program (R73), or `RD STATUS` repeated until `BUSY = 0` (R75). -/
inductive Txn where
  | wr (off : Nat) (data : Word)
  | rd (off : Nat)
  | wait
deriving DecidableEq, Repr

/-- A transaction as what the host does to the instance with parameters `c` (R73). Between two polls of a
wait the engine moves as `g` says. -/
def Txn.event (c : Config) (g : Grain) : Txn → Event
  | .wr off data => .hostWrite (c.base + off) 4 data
  | .rd off => .hostRead (c.base + off) 4
  | .wait => .hostWait g

/-- A statement of the assembler (R74, R75). `cfg`'s first argument is the round count. -/
inductive Stmt where
  | wr (r : Reg) (v : Word)
  | rd (r : Reg)
  | nop
  | init
  | loadx
  | dround
  | feed
  | block
  | process
  | emit (n : Nat)
  | setkey (b : Vector Byte 32)
  | setnonce (b : Vector Byte 8)
  | setctr (v : Nat)
  | setbuf (s d n : Word)
  | cfg (rounds : Nat) (ks ven : Bool)
  | wait
  | clrerr
  | clrwrb
  | encrypt
  | decrypt
  | keystream
deriving DecidableEq, Repr

/-- Four bytes as a word, the first in the low byte: `b0 + 2^8 * b1 + 2^16 * b2 + 2^24 * b3`
(10_state.md R27, R29; 20_memory.md R49). -/
def pack4 (b0 b1 b2 b3 : Byte) : Word := b3 ++ b2 ++ b1 ++ b0

/-- The words of a key (10_state.md R29). -/
def keyWords (b : Vector Byte 32) : Vector Word 8 :=
  Vector.ofFn fun i : Fin 8 => pack4 b[4 * i.val] b[4 * i.val + 1] b[4 * i.val + 2] b[4 * i.val + 3]

/-- The words of a nonce (10_state.md R27). -/
def nonceWords (b : Vector Byte 8) : Vector Word 2 := #v[pack4 b[0] b[1] b[2] b[3], pack4 b[4] b[5] b[6] b[7]]

/-- `WR CMD, w`. -/
def issueTxn (i : Instr) : Txn := .wr (Reg.offset .cmd) (encode i)

/-- The `CFG.RC` code of a round count: 0, 1, 2 for 20, 12, 8 (R75). -/
def rcOf (rounds : Nat) : Option (BitVec 2) :=
  if rounds = 20 then some 0 else if rounds = 12 then some 1 else if rounds = 8 then some 2 else none

/-- The transactions of a statement (R74, R75); none where the assembler rejects it (`emit n` with
`n > 64`; a round count that is not 20, 12 or 8; a counter of 2^64 or more). -/
def Stmt.expand : Stmt → Option (List Txn)
  | .wr r v => some [.wr r.offset v]
  | .rd r => some [.rd r.offset]
  | .nop => some [issueTxn .nop]
  | .init => some [issueTxn .init]
  | .loadx => some [issueTxn .loadx]
  | .dround => some [issueTxn .dround]
  | .feed => some [issueTxn .feed]
  | .block => some [issueTxn .block]
  | .process => some [issueTxn .process]
  | .emit n => if n ≤ 64 then some [issueTxn (.emit (BitVec.ofNat 7 n))] else none
  | .setkey b =>
    some ((List.finRange 8).map fun i => .wr (Reg.offset (.key i)) (keyWords b)[i])
  | .setnonce b =>
    some [.wr (Reg.offset .nonce0) (nonceWords b)[0], .wr (Reg.offset .nonce1) (nonceWords b)[1]]
  | .setctr v =>
    if v < 2 ^ 64 then
      some [.wr (Reg.offset .ctr0) (BitVec.ofNat 32 (v % 2 ^ 32)), .wr (Reg.offset .ctr1) (BitVec.ofNat 32 (v / 2 ^ 32))]
    else none
  | .setbuf s d n => some [.wr (Reg.offset .src) s, .wr (Reg.offset .dst) d, .wr (Reg.offset .len) n]
  | .cfg rounds ks ven => (rcOf rounds).map fun rc => [.wr (Reg.offset .cfg) (cfgWord ⟨rc, ks, ven⟩)]
  | .wait => some [.wait]
  | .clrerr => some [.wr (Reg.offset .status) 0x80000000]
  | .clrwrb => some [.wr (Reg.offset .status) 0x00000020]
  | .encrypt => some [issueTxn .process]
  | .decrypt => some [issueTxn .process]
  | .keystream => some [issueTxn .process]

/-- The statements of a host program as transactions; none if the assembler rejects one. -/
def assemble : List Stmt → Option (List Txn)
  | [] => some []
  | st :: rest =>
    match st.expand, assemble rest with
    | some a, some b => some (a ++ b)
    | _, _ => none

/-- The source's call `process(output, input, length, nonce, key, roundCount)` with counter-start `c` as a
host program (R76). Pure keystream generation sets `ks`. -/
def callProgram (key : Vector Byte 32) (nonce : Vector Byte 8) (c : Nat) (input output length : Word)
    (rounds : Nat) (ks ven : Bool) : List Stmt :=
  [.setkey key, .setnonce nonce, .setctr c, .setbuf input output length, .cfg rounds ks ven, .process, .wait]

/-- A host program placed in front of the machine: its transactions come next (log 7, log 22). Between two
polls of its waits the engine moves as `g` says. -/
def State.withProgram (s : State) (g : Grain) (p : List Stmt) : Option State :=
  (assemble p).map fun ts => { s with inbox := ts.map (Txn.event s.config g) ++ s.inbox }

/-- The content of the output buffer `[DST, DST + LEN)`. -/
def State.outputBuffer (s : State) : List Byte :=
  (List.range s.len.toNat).map fun i => Memory.read s.mem (truncAddr s.config (s.dst.toNat + i))

/-- The return value of the source's call: "the content of the output buffer after `wait` returns with
`DONE = 1`" (R76); none where the last value read does not say so. -/
def State.callResult (s : State) : Option (List Byte) :=
  match s.bus with
  | .word w => if pollDone w && w.getLsbD 1 then some s.outputBuffer else none
  | .none | .ack | .byte _ | .busError => none

end Sys2Proof.Machine
end

