-- ==== Sys2Proof/Safety.lean ====
section
/-! DEFINITION. The terms claims are stated in: where a command stands, when a call's premises hold, the
invariants of the machine, and runs of whole commands. -/

namespace Sys2Proof.Machine

/-! ### Where the machine stands (60_exceptions.md R156, R157). -/

/-- Idle: a `CMD` write is dispatched. -/
abbrev Idle (s : State) : Prop := s.busy = false ∧ s.err = .none

/-- Error: an error code is latched. -/
abbrev InError (s : State) : Prop := s.busy = false ∧ s.err ≠ .none

/-- Command `i` has been accepted and its effect has not begun (41_stage_commands.md R100). -/
abbrev InProgress (i : Instr) (s : State) : Prop :=
  s.busy = true ∧ s.fin = false ∧ s.op = i.opcode ∧ s.ph = firstPhase i ∧ s.emitN = byteCount i

/-- The state with the outside's next events set. -/
abbrev State.withInbox (s : State) (es : List Event) : State := { s with inbox := es }

/-- The state with one more event before what the outside does next. -/
abbrev State.facing (s : State) (e : Event) : State := { s with inbox := e :: s.inbox }

/-- `WR off, data` as a bus access of the instance (30_encoding.md R73). -/
abbrev wrEvent (c : Config) (off : Nat) (data : Word) : Event := .hostWrite (c.base + off) 4 data

/-- `RD off` as a bus access of the instance (30_encoding.md R73). -/
abbrev rdEvent (c : Config) (off : Nat) : Event := .hostRead (c.base + off) 4

/-- The conditions under which a command raises SEQ, as 60_exceptions.md R144 lists them. -/
def SeqBad (i : Instr) (s : State) : Prop :=
  match i with
  | .loadx | .block => s.sv = false
  | .dround => s.xv = false ∨ (s.xv = true ∧ s.ndr.toNat ≤ s.drc.toNat)
  | .feed => s.xv = false ∨ (s.xv = true ∧ s.drc.toNat ≠ s.ndr.toNat)
  | .emit _ => s.kv = false
  | .nop | .init | .process => False

/-- The state right after the acceptance of command `i` (41_stage_commands.md R100). The last six
fields are the position R38 gives the command and the model's own. -/
abbrev AcceptedState (i : Instr) (s : State) : State :=
  { s with
    done := false
    busy := true
    op := i.opcode
    ph := firstPhase i
    emitN := byteCount i
    fin := false
    accMem := s.mem
    accKS := keptBlock i s.KS
    races := [] }

/-! ### Invariants. -/

/-- Data memory and the memory kept from acceptance are in canonical form. -/
abbrev MemInv (s : State) : Prop := Memory.wf s.mem = true ∧ Memory.wf s.accMem = true

/-- The parameters are legal and the state fits them: one slot for each further block (10_state.md R33),
`VEN` hardwired to 0 when `BPI = 1` (R22), addresses of `AW` bits (R24); other agents' recorded writes are
at addresses that `MemOK` admits (log 23). -/
abbrev ParamInv (s : State) : Prop :=
  s.config.Legal ∧ s.slots.length = s.config.bpi.count - 1 ∧ (s.cfg.ven = true → 1 < s.config.bpi.count) ∧
    s.src.toNat < 2 ^ s.config.aw ∧ s.dst.toNat < 2 ^ s.config.aw ∧
    ∀ r ∈ s.races, memOK s.config r.addr = true

/-- What the effect of a double-round or of FEED finds. -/
abbrev RoundsLeft (s : State) : Prop := s.xv = true ∧ s.drc.toNat < s.ndr.toNat

/-- All double-rounds of the block are done. -/
abbrev RoundsDone (s : State) : Prop := s.xv = true ∧ s.drc.toNat = s.ndr.toNat

/-- What holds of a command in progress before each of its phases (10_state.md R38; the acceptance checks
of 41_stage_commands.md R104 to R108 and 42_block_and_process.md R113, R114). -/
def PhaseInv (i : Instr) (s : State) : Prop :=
  match i with
  | .nop => s.ph = .idle
  | .init => s.ph = .initp ∧ callCheck s = .none
  | .loadx => s.ph = .loadp ∧ s.sv = true
  | .dround => s.ph = .roundp ∧ RoundsLeft s
  | .feed => s.ph = .feedp ∧ RoundsDone s
  | .emit n => s.ph = .emitp ∧ s.kv = true ∧ n.toNat ≤ 64 ∧ n.toNat ≤ s.rem.toNat
  | .block =>
    s.sv = true ∧ (s.ph = .loadp ∨ (s.ph = .roundp ∧ RoundsLeft s) ∨ (s.ph = .feedp ∧ RoundsDone s))
  | .process =>
    callCheck s = .none ∧
      (s.ph = .initp ∨
        (s.sv = true ∧ 0 < s.rem.toNat ∧
          ((s.ph = .loadp ∧ s.xv = false ∧ s.kv = false) ∨ (s.ph = .roundp ∧ RoundsLeft s ∧ s.kv = false) ∨
            (s.ph = .feedp ∧ RoundsDone s ∧ s.kv = false) ∨ (s.ph = .emitp ∧ s.xv = false ∧ s.kv = true))))

/-- What holds of a command in progress whose effect is complete: it left the base matrix valid, but for
NOP; and the checks of a call still pass, since nothing writes the registers. -/
abbrev EndInv (i : Instr) (s : State) : Prop :=
  (i = .nop ∨ s.sv = true) ∧ (i = .process → callCheck s = .none)

/-- A busy engine has a command in progress, whose effect is complete or whose next phase can be done. -/
def BusyInv (s : State) : Prop :=
  ∃ i, s.current = some i ∧ i.wf = true ∧
    ((s.fin = true ∧ EndInv i s) ∨ (s.fin = false ∧ PhaseInv i s))

/-- The invariants of 10_state.md R37 on the flags. -/
abbrev FlagInv (s : State) : Prop :=
  (s.xv = true → s.sv = true) ∧ (s.kv = true → s.sv = true) ∧ (s.xv = false → s.drc = 0) ∧
    (s.xv = true → s.drc.toNat ≤ s.ndr.toNat) ∧ (s.busy = true → s.err = .none) ∧
    (s.done = true → s.busy = false ∧ s.err = .none)

/-- R37's invariants with what R38 says of the sequencer position: at rest it is (0x00, IDLE), and while
busy it is a position of the command in progress. -/
abbrev SeqInv (s : State) : Prop :=
  FlagInv s ∧ (s.busy = false → s.op = 0x00 ∧ s.ph = .idle ∧ s.fin = false) ∧ (s.busy = true → BusyInv s)

/-- The bytes of a call still to be moved lie inside the address space, and in XOR mode the two ranges are
identical or disjoint: what the checks of INIT establish (20_memory.md R55, R59). -/
abbrev StreamInv (s : State) : Prop :=
  s.sv = true →
    s.sp.toNat < 2 ^ s.config.aw ∧ s.dp.toNat < 2 ^ s.config.aw ∧
      (0 < s.rem.toNat →
        s.dp.toNat + s.rem.toNat ≤ 2 ^ s.config.aw ∧
          (s.ksl = false →
            s.sp.toNat + s.rem.toNat ≤ 2 ^ s.config.aw ∧
              (s.sp = s.dp ∨ s.sp.toNat + s.rem.toNat ≤ s.dp.toNat ∨ s.dp.toNat + s.rem.toNat ≤ s.sp.toNat)))

/-! ### A call and its premises (42_block_and_process.md R115). -/

/-- PROCESS has been accepted, and `MemOK` holds for every address of its footprint (R115). -/
abbrev CallReady (s : State) : Prop :=
  InProgress .process s ∧ s.err = .none ∧ callCheck s = .none ∧ ParamInv s ∧ MemInv s ∧
    rangeOK s.config s.cfg.ks s.src.toNat s.dst.toNat s.len.toNat = true

/-- Input byte `i` of the call: the byte at `SRC + i`, or 0 in keystream-only mode. -/
def inputByte (s : State) (i : Nat) : Byte :=
  if s.cfg.ks then 0x00 else Memory.read s.mem (s.src.toNat + i)

/-- Byte `i` of the keystream of the call the argument registers describe (40_arx_datapath.md R96). -/
def callKey (s : State) (i : Nat) : Byte :=
  keystream s.config.ctrWidth s.argMatrix (ndrOf s.cfg.rc).toNat i

/-- A command is in progress, in any phase of its effect or before its completion, in a state that meets the
invariants. -/
abbrev InWindow (s : State) : Prop := s.busy = true ∧ SeqInv s ∧ ParamInv s ∧ MemInv s ∧ StreamInv s

/-- Byte `b` is the value of output byte `i` from before the command in progress, or the one the completed
command writes there: input byte from before the command (or 0) XOR keystream byte. -/
abbrev OldOrNew (s : State) (i : Nat) (b : Byte) : Prop :=
  b = Memory.read s.accMem (truncAddr s.config (s.footprint.dst + i)) ∨
  b = (if s.footprint.ks then 0x00 else Memory.read s.accMem (truncAddr s.config (s.footprint.src + i))) ^^^
    s.outputKey i

/-- No other agent wrote output byte `i` of the command in progress, nor its input byte, since acceptance. -/
abbrev Untouched (s : State) (i : Nat) : Prop :=
  ∀ r ∈ s.races, r.addr ≠ truncAddr s.config (s.footprint.dst + i) ∧
    (s.footprint.ks = true ∨ r.addr ≠ truncAddr s.config (s.footprint.src + i))

/-- The programmer registers of `t` are those of `s`. -/
abbrev SameRegisters (s t : State) : Prop :=
  t.cfg = s.cfg ∧ t.src = s.src ∧ t.dst = s.dst ∧ t.len = s.len ∧ t.ctr0 = s.ctr0 ∧ t.ctr1 = s.ctr1 ∧
    t.nonce0 = s.nonce0 ∧ t.nonce1 = s.nonce1 ∧ t.key = s.key

/-- The two calls have the same key, nonce, counter-start, round count and counter width. -/
abbrev SameCipher (s t : State) : Prop :=
  t.key = s.key ∧ t.nonce0 = s.nonce0 ∧ t.nonce1 = s.nonce1 ∧ t.ctr0 = s.ctr0 ∧ t.ctr1 = s.ctr1 ∧
    t.cfg.rc = s.cfg.rc ∧ t.config.ctrWidth = s.config.ctrWidth

/-! ### Runs. -/

/-- The event is the error acknowledge or reset (60_exceptions.md R157). -/
def clearsErr (s : State) : Event → Prop
  | .hostWrite addr size data => addr = s.config.base + 0x04 ∧ size = 4 ∧ data.getLsbD 31 = true
  | .reset => True
  | .hostRead _ _ | .hostWait _ | .engine _ | .memWrite _ _ | .memRead _ => False

/-- The next move is an event with property `p`. -/
def NextEvent (s : State) (p : Event → Prop) : Prop := ∃ e rest, s.inbox = e :: rest ∧ p e

/-- The host issues command `i` and does nothing more: the `CMD` write, then the engine's turns. Three
steps take an accepted command to its completion. -/
def issue (i : Instr) (s : State) : Host.Outcome State Fault Refusal :=
  core.run 3 (s.withInbox [cmdWrite s.config (encode i)])

/-- The host issues commands one after the other, each when the one before has ended. -/
def issueAll : List Instr → State → Host.Outcome State Fault Refusal
  | [], s => .next s
  | i :: rest, s =>
    match issue i s with
    | .next t => issueAll rest t
    | .fault f => .fault f
    | .refused r => .refused r

/-- The stage commands of one block (41_stage_commands.md R109). -/
def blockStages (ndr : Nat) : List Instr := .loadx :: (List.replicate ndr .dround ++ [.feed])

/-- The stage commands of a call of `len` bytes: INIT, then for each block its stages and an EMIT of 64
bytes, or of `len mod 64` for a final partial block (R109). -/
def callStages (ndr len : Nat) : List Instr :=
  .init :: (List.range ((len + 63) / 64)).flatMap fun q =>
    blockStages ndr ++ [.emit (BitVec.ofNat 7 (min 64 (len - 64 * q)))]

/-- `k` turns of the engine, each of one phase. -/
def phaseTurns : Nat → State → Host.Outcome State Fault Refusal
  | 0, s => .next s
  | k + 1, s =>
    match engineTurn .phase s with
    | .next t => phaseTurns k t
    | .fault f => .fault f
    | .refused r => .refused r

/-! ### What a flag guards (10_state.md R33, R37, R40). -/

/-- Do the vector slots take part in the pass in progress? Outside a vector iteration "they hold no value". -/
def State.slotsLive (s : State) : Bool :=
  s.busy && decide (s.op = 0x07) && !s.fin && s.vectorPass &&
    (decide (s.ph = .roundp) || decide (s.ph = .feedp) || decide (s.ph = .emitp))

/-- The state with everything that "holds no value" replaced by a fixed one: `S`, the pointers and the
latched configuration while `SV = 0`, `X` while `XV = 0`, `KS` while `KV = 0`, and the slots outside a
vector iteration. -/
def State.masked (s : State) : State :=
  let t := { s with
    S := if s.sv then s.S else Matrix.zero
    sp := if s.sv then s.sp else 0
    dp := if s.sv then s.dp else 0
    rem := if s.sv then s.rem else 0
    ndr := if s.sv then s.ndr else .ten
    ksl := if s.sv then s.ksl else false
    venl := if s.sv then s.venl else false
    X := if s.xv then s.X else Matrix.zero
    KS := if s.kv then s.KS else zeroBlock }
  { t with
    slots := s.slots.map fun sl =>
      { x := if s.xv && t.slotsLive then sl.x else Matrix.zero
        ks := if s.kv && t.slotsLive then sl.ks else zeroBlock } }

/-- Two outcomes agree on everything that holds a value. -/
def SameMasked : Host.Outcome State Fault Refusal → Host.Outcome State Fault Refusal → Prop
  | .next s, .next t => s.masked = t.masked
  | .fault f, .fault g => f = g
  | .refused f, .refused g => f = g
  | _, _ => False

end Sys2Proof.Machine
end

