-- ==== Sys2Proof/Certificates/Slice0/Obligations.lean ====
section
/-! DEFINITION. The statements for the provers. Each docstring says which rule of the spec a statement
formalises, or rests on. -/

open Sys2Proof Sys2Proof.Machine

/-! ### Encoding -/

/-- 30_encoding.md R66, R67, R70: a word decodes to a command exactly when the command is well-formed and
the word is its encoding. So decoding inverts encoding for every operand, and no word has two meanings. -/
def Obligations.DecodeExactlyInvertsEncode : Prop :=
  ∀ (w : Word) (i : Instr), decode w = some i ↔ i.wf = true ∧ encode i = w

/-- R70's count: exactly 72 words are legal, 7 of format Z and 65 EMIT words. -/
def Obligations.SeventyTwoWordsAreLegal : Prop :=
  ∃ z e : List Word, z.length = 7 ∧ e.length = 65 ∧ (z ++ e).Nodup ∧
    (∀ w ∈ z, opcodeField w ≠ 0x05) ∧ (∀ w ∈ e, opcodeField w = 0x05) ∧
    ∀ w, decode w ≠ none ↔ w ∈ z ++ e

/-- Words written out bit by bit from 30_encoding.md R66, R67, R69. -/
def Obligations.CommandWordsDecodeAsTheMapSays : Prop :=
  decode 0b00000000000000000000000000000000#32 = some .nop ∧
  decode 0b00000001000000000000000000000000#32 = some .init ∧
  decode 0b00000101000000000000000000101100#32 = some (.emit 44) ∧
  decode 0b00000101000000000000000001000001#32 = none ∧
  decode 0b00000110000000000000000000000000#32 = some .block ∧
  decode 0b00000111000000000000000000000000#32 = some .process ∧
  decode 0b00000111000000000000000000000001#32 = none

/-! ### The datapath -/

/-- 40_arx_datapath.md R80: the value of `rotl`, and where each bit goes. -/
def Obligations.RotlMovesEveryBit : Prop :=
  ∀ (v : Word) (n : Nat), 0 < n → n < 32 →
    (rotl v n).toNat = v.toNat * 2 ^ n % 2 ^ 32 + v.toNat / 2 ^ (32 - n) ∧
    ∀ i, i < 32 → (rotl v n).getLsbD ((i + n) % 32) = v.getLsbD i

/-- R87: lane `i` of `lanerot(V, n)` is lane `(i + n) mod 4` of `V`, and `4 - n` further rotations undo it. -/
def Obligations.LaneRotationMovesTowardsLaneZero : Prop :=
  ∀ (v : Row) (n : Nat), 1 ≤ n → n ≤ 3 →
    (∀ i (h : i < 4), (lanerot v n).lanes[i] = v.lanes[(i + n) % 4]'(Nat.mod_lt _ (by decide))) ∧
    lanerot (lanerot v n) (4 - n) = v

/-- R88, R90: the quarter-round macro is `QR` in every lane, and the lane-rotation form of the
double-round is the indexed form. -/
def Obligations.LaneFormIsTheDoubleRound : Prop :=
  (∀ (a b c d : Row) (i : Nat) (h : i < 4),
    QR a.lanes[i] b.lanes[i] c.lanes[i] d.lanes[i] =
      ((VQR a b c d).1.lanes[i], (VQR a b c d).2.1.lanes[i], (VQR a b c d).2.2.1.lanes[i],
        (VQR a b c d).2.2.2.lanes[i])) ∧
  ∀ m : Matrix, DRlane m = DR m

/-- R81: "`QR` is a bijection on 128 bits". -/
def Obligations.QuarterRoundIsABijection : Prop :=
  Function.Bijective fun p : Word × Word × Word × Word => QR p.1 p.2.1 p.2.2.1 p.2.2.2

/-- R85: "`DR` is a bijection on 512 bits". -/
def Obligations.DoubleRoundIsABijection : Prop := Function.Bijective DR

/-- R77: the layout of the base matrix. -/
def Obligations.InitMatrixLayout : Prop :=
  ∀ (key : Vector Word 8) (c0 c1 n0 n1 : Word),
    let m := (initMatrix key c0 c1 n0 n1).words
    m[0] = 0x61707865 ∧ m[1] = 0x3320646E ∧ m[2] = 0x79622D32 ∧ m[3] = 0x6B206574 ∧
    (∀ i (h : i < 8), m[4 + i] = key[i]) ∧
    m[12] = c0 ∧ m[13] = c1 ∧ m[14] = n0 ∧ m[15] = n1

/-- R92: all 16 words are added, modulo 2^32. -/
def Obligations.FeedForwardAddsAllWords : Prop :=
  ∀ (y m : Matrix) (i : Nat) (h : i < 16),
    (feedForward y m).words[i].toNat = (y.words[i].toNat + m.words[i].toNat) % 2 ^ 32

/-- R93: byte `4i + k` of the block is bits `8k+7 .. 8k` of word `i`. -/
def Obligations.SerialisationIsLittleEndian : Prop :=
  ∀ (z : Matrix) (i k : Nat) (hi : i < 16) (hk : k < 4),
    (ser z)[4 * i + k] = z.words[i].extractLsb' (8 * k) 8

/-- R94: the counter advance, for both counter widths, and `k` of them. -/
def Obligations.CounterAdvanceWrapsSilently : Prop :=
  ∀ (m : Matrix) (k : Nat),
    (ctrIncBy .w64 m k).words[13].toNat * 2 ^ 32 + (ctrIncBy .w64 m k).words[12].toNat =
      (m.words[13].toNat * 2 ^ 32 + m.words[12].toNat + k) % 2 ^ 64 ∧
    (ctrIncBy .w32 m k).words[12].toNat = (m.words[12].toNat + k) % 2 ^ 32 ∧
    (ctrIncBy .w32 m k).words[13] = m.words[13] ∧
    (∀ w i (h : i < 16), i ≠ 12 → i ≠ 13 → (ctrIncBy w m k).words[i] = m.words[i]) ∧
    (∀ w, ctrIncBy w m 0 = m ∧ ctrIncBy w m (k + 1) = ctrInc w (ctrIncBy w m k))

/-! ### Host register access -/

/-- 43_host_register_access.md R126 and the model's step: on an idle engine a `CMD` write of a word that
decodes runs the meaning of that command, on the same state but for the bus's acknowledge; so does the
word that `withFetchWord` places. -/
def Obligations.StepIssuesTheDecodedCommand : Prop :=
  ∀ (s : State) (w : Word) (i : Instr), Idle s → decode w = some i →
    step (s.facing (cmdWrite s.config w)) = exec i { s with bus := .ack } ∧
    step (s.withFetchWord 32 w.toNat) = exec i { s with bus := .ack }

/-- R127, 10_state.md R38 and the model's step: with a command accepted, the engine's turn runs the
meaning of that command, all of it or one phase of it as the schedule says (log 7). -/
def Obligations.StepRunsTheCommandInProgress : Prop :=
  ∀ (i : Instr) (s : State), InProgress i s →
    step (s.facing (.engine .whole)) = exec i s ∧
    step (s.facing (.engine .phase)) = .next (phaseStep i s) ∧
    step (s.withInbox []) = exec i (s.withInbox [])

/-- R124: what a host write does, for every offset, busy or not. A `CMD` write goes to `Dispatch`. -/
def Obligations.HostWriteByOffset : Prop :=
  ∀ (s : State) (data : Word),
    (s.busy = true → ∀ off, off < 256 → off % 4 = 0 →
      step (s.facing (wrEvent s.config off data)) = .next { s with wrb := true, bus := .ack }) ∧
    (s.busy = false →
      step (s.facing (wrEvent s.config 0x00 data)) = dispatchWord data { s with bus := .ack } ∧
      step (s.facing (wrEvent s.config 0x04 data)) = .next { s with
        bus := .ack
        err := if data.getLsbD 31 then .none else s.err
        wrb := if data.getLsbD 5 then false else s.wrb } ∧
      step (s.facing (wrEvent s.config 0x08 data)) = .next { s with
        bus := .ack
        cfg := { rc := data.extractLsb' 0 2, ks := data.getLsbD 4,
                 ven := if s.config.bpi = .one then false else data.getLsbD 8 } } ∧
      step (s.facing (wrEvent s.config 0x10 data)) = .next { s with
        bus := .ack, src := BitVec.ofNat 32 (data.toNat % 2 ^ s.config.aw) } ∧
      step (s.facing (wrEvent s.config 0x14 data)) = .next { s with
        bus := .ack, dst := BitVec.ofNat 32 (data.toNat % 2 ^ s.config.aw) } ∧
      step (s.facing (wrEvent s.config 0x18 data)) = .next { s with bus := .ack, len := data } ∧
      step (s.facing (wrEvent s.config 0x20 data)) = .next { s with bus := .ack, ctr0 := data } ∧
      step (s.facing (wrEvent s.config 0x24 data)) = .next { s with bus := .ack, ctr1 := data } ∧
      step (s.facing (wrEvent s.config 0x28 data)) = .next { s with bus := .ack, nonce0 := data } ∧
      step (s.facing (wrEvent s.config 0x2C data)) = .next { s with bus := .ack, nonce1 := data } ∧
      (∀ i (h : i < 8), step (s.facing (wrEvent s.config (0x40 + 4 * i) data)) =
        .next { s with bus := .ack, key := s.key.set i data }) ∧
      ∀ off, off < 256 → off % 4 = 0 →
        (off = 0x0C ∨ (0x30 ≤ off ∧ off ≤ 0x3C) ∨ off = 0x1C ∨ 0x60 ≤ off) →
        step (s.facing (wrEvent s.config off data)) = .next { s with bus := .ack })

/-- R125: what a host read returns, for every offset; it changes nothing else, in every state. -/
def Obligations.HostReadByOffset : Prop :=
  ∀ s : State,
    let answer := fun off (w : Word) =>
      step (s.facing (rdEvent s.config off)) = .next { s with bus := .word w }
    answer 0x00 0 ∧ answer 0x04 (statusWord s) ∧ answer 0x08 (cfgWord s.cfg) ∧
    answer 0x0C (BitVec.ofNat 32 (s.config.bpi.count + 16 * (if s.config.ctrWidth = .w64 then 1 else 0))) ∧
    answer 0x10 s.src ∧ answer 0x14 s.dst ∧ answer 0x18 s.len ∧
    answer 0x20 s.ctr0 ∧ answer 0x24 s.ctr1 ∧ answer 0x28 s.nonce0 ∧ answer 0x2C s.nonce1 ∧
    answer 0x30 0x61707865 ∧ answer 0x34 0x3320646E ∧ answer 0x38 0x79622D32 ∧ answer 0x3C 0x6B206574 ∧
    ∀ off, off < 256 → off % 4 = 0 → (off = 0x1C ∨ 0x40 ≤ off) → answer off 0

/-- 10_state.md R16, R17, R20, 60_exceptions.md R140: the fields of the STATUS and CFG words, and the codes of
the seven errors. -/
def Obligations.StatusAndCfgFields : Prop :=
  (Err.none.code = 0 ∧ Err.illcmd.code = 1 ∧ Err.rounds.code = 2 ∧ Err.seq.code = 3 ∧ Err.range.code = 4 ∧
    Err.overlap.code = 5 ∧ Err.bus.code = 6) ∧
  ∀ s : State,
    (statusWord s).getLsbD 0 = s.busy ∧ (statusWord s).getLsbD 1 = s.done ∧
    (statusWord s).getLsbD 2 = s.sv ∧ (statusWord s).getLsbD 3 = s.xv ∧ (statusWord s).getLsbD 4 = s.kv ∧
    (statusWord s).getLsbD 5 = s.wrb ∧ (statusWord s).extractLsb' 6 2 = 0 ∧
    (statusWord s).extractLsb' 8 4 = s.err.code ∧ (statusWord s).extractLsb' 12 4 = 0 ∧
    (statusWord s).extractLsb' 16 5 = s.drc ∧ (statusWord s).extractLsb' 21 11 = 0 ∧
    (cfgWord s.cfg).extractLsb' 0 2 = s.cfg.rc ∧ (cfgWord s.cfg).extractLsb' 2 2 = 0 ∧
    (cfgWord s.cfg).getLsbD 4 = s.cfg.ks ∧ (cfgWord s.cfg).extractLsb' 5 3 = 0 ∧
    (cfgWord s.cfg).getLsbD 8 = s.cfg.ven ∧ (cfgWord s.cfg).extractLsb' 9 23 = 0

/-- 20_memory.md R53: the register block accepts exactly the aligned 32-bit accesses; a host access of
another size or alignment changes no state of the engine and returns no data. -/
def Obligations.UnalignedHostAccessChangesNothing : Prop :=
  ∀ (s : State) (off size : Nat) (data : Word), off < 256 → 0 < size →
    (size ≠ 4 ∨ off % 4 ≠ 0 →
      step (s.facing (.hostWrite (s.config.base + off) size data)) = .next { s with bus := .busError } ∧
      step (s.facing (.hostRead (s.config.base + off) size)) = .next { s with bus := .busError }) ∧
    (size = 4 → off % 4 = 0 →
      (∃ t, step (s.facing (.hostWrite (s.config.base + off) size data)) = .next t ∧ t.bus = .ack) ∧
      ∃ w, step (s.facing (.hostRead (s.config.base + off) size)) = .next { s with bus := .word w })

/-- 10_state.md R29, 60_exceptions.md R161: no host read depends on the key, the matrices, the scratch
buffer, the slots, the pointers, the latched configuration, the sequencer or data memory. -/
def Obligations.HiddenStateIsNotReadable : Prop :=
  ∀ (s t : State) (addr size : Nat),
    t.config = s.config → t.cfg = s.cfg → t.src = s.src → t.dst = s.dst → t.len = s.len →
    t.ctr0 = s.ctr0 → t.ctr1 = s.ctr1 → t.nonce0 = s.nonce0 → t.nonce1 = s.nonce1 →
    t.busy = s.busy → t.done = s.done → t.sv = s.sv → t.xv = s.xv → t.kv = s.kv → t.wrb = s.wrb →
    t.err = s.err → t.drc = s.drc →
    (hostRead addr size t).bus = (hostRead addr size s).bus

/-! ### Errors -/

/-- 60_exceptions.md R142, with R150: exactly the words R142 lists are illegal, and a `CMD` write of one on
an idle engine sets ILLCMD, clears `DONE`, and changes nothing else. -/
def Obligations.IllegalWordRaisesIllcmd : Prop :=
  ∀ (s : State) (w : Word), Idle s →
    (decode w = none ↔
      (0x08 ≤ (w.extractLsb' 24 8).toNat ∨
        ((w.extractLsb' 24 8).toNat ≠ 0x05 ∧ w.extractLsb' 0 24 ≠ 0) ∨
        ((w.extractLsb' 24 8).toNat = 0x05 ∧ (w.extractLsb' 7 17 ≠ 0 ∨ 64 < (w.extractLsb' 0 7).toNat)))) ∧
    (decode w = none →
      step (s.facing (cmdWrite s.config w)) = .next { s with err := .illcmd, done := false, bus := .ack })

/-- R144: a command raises SEQ, and so changes `ERR` and `DONE` only, exactly under R144's conditions. -/
def Obligations.SeqIsRaisedExactlyWhen : Prop :=
  ∀ (i : Instr) (s : State), Idle s →
    (exec i s = .next { s with err := .seq, done := false } ↔ SeqBad i s)

/-- R149, with R143, R145, R146 and 41_stage_commands.md R103: INIT and PROCESS report the first of
ROUNDS, RANGE, OVERLAP that applies, changing `ERR` and `DONE` only; otherwise they are accepted. -/
def Obligations.CallChecksInOrder : Prop :=
  ∀ (i : Instr) (s : State), Idle s → (i = .init ∨ i = .process) →
    let src := s.src.toNat
    let dst := s.dst.toNat
    let n := s.len.toNat
    let rangeFails := 0 < n ∧ (2 ^ s.config.aw < dst + n ∨ (s.cfg.ks = false ∧ 2 ^ s.config.aw < src + n))
    let overlapFails := s.cfg.ks = false ∧ 0 < n ∧ src ≠ dst ∧ src < dst + n ∧ dst < src + n
    (s.cfg.rc = 3 → exec i s = .next { s with err := .rounds, done := false }) ∧
    (s.cfg.rc ≠ 3 → rangeFails → exec i s = .next { s with err := .range, done := false }) ∧
    (s.cfg.rc ≠ 3 → ¬rangeFails → overlapFails → exec i s = .next { s with err := .overlap, done := false }) ∧
    (s.cfg.rc ≠ 3 → ¬rangeFails → ¬overlapFails → exec i s = .next (AcceptedState i s))

/-- 41_stage_commands.md R100, R108: NOP is always accepted; the other stage commands and BLOCK are
accepted when R144's condition does not hold; EMIT then still raises RANGE when `n > REM`. -/
def Obligations.StageCommandsAreAccepted : Prop :=
  ∀ (i : Instr) (s : State), Idle s → i ≠ .init → i ≠ .process → ¬SeqBad i s →
    ((byteCount i).toNat ≤ s.rem.toNat ∨ (∀ n, i ≠ .emit n) → exec i s = .next (AcceptedState i s)) ∧
    (∀ n, i = .emit n → s.rem.toNat < n.toNat → exec i s = .next { s with err := .range, done := false })

/-- R154: while an error is latched every `CMD` write is dropped and changes nothing. -/
def Obligations.LatchedErrorDropsCommands : Prop :=
  ∀ (s : State) (w : Word), InError s →
    step (s.facing (cmdWrite s.config w)) = .next { s with bus := .ack }

/-- 43_host_register_access.md R128: the acknowledge clears `ERR` and changes nothing else (`WRB` as bit 5
of the same write says, R124); after it commands are accepted again; with `ERR = 0` already it does nothing. -/
def Obligations.AcknowledgeClearsOnlyErr : Prop :=
  ∀ (s : State) (data : Word), s.busy = false → data.getLsbD 31 = true →
    step (s.facing (wrEvent s.config 0x04 data)) = .next { s with
      err := .none, wrb := if data.getLsbD 5 then false else s.wrb, bus := .ack } ∧
    (∀ t, step (s.facing (wrEvent s.config 0x04 data)) = .next t →
      ∀ w i, decode w = some i → step (t.facing (cmdWrite t.config w)) = exec i { t with bus := .ack }) ∧
    (s.err = .none → data.getLsbD 5 = false →
      step (s.facing (wrEvent s.config 0x04 data)) = .next { s with bus := .ack })

/-- 60_exceptions.md R151, for EMIT: when `MemOK` refuses an access the command ends with `ERR = BUS`; the
validity flags and `DRC` are cleared, the programmer registers stay, bytes outside the output range stay,
and each output byte that no other agent touched (20_memory.md R62) holds its value from before the command
or the value the completed EMIT would have written. `accMem` and `accKS` are the memory and the block the
EMIT was accepted with (log 12). That in a run with a race the end, the flags, the other bytes and the
untouched bytes are as without it is the model's choice: R62 promises nothing else of such a run (log 14). -/
def Obligations.RefusedAccessEndsEmitWithBus : Prop :=
  ∀ (n : BitVec 7) (s : State), InProgress (.emit n) s → n.toNat ≤ 64 → ParamInv s → MemInv s →
    s.accKS = s.KS → s.emitOK n.toNat = false →
    ∃ t, exec (.emit n) s = .next t ∧ t.busy = false ∧ t.op = 0x00 ∧ t.ph = .idle ∧ t.err = .bus ∧
      t.done = false ∧ t.sv = false ∧ t.xv = false ∧ t.kv = false ∧ t.drc = 0 ∧ t.wrb = s.wrb ∧
      SameRegisters s t ∧
      (∀ a, (∀ i, i < n.toNat → a ≠ truncAddr s.config (s.dp.toNat + i)) →
        Memory.read t.mem a = Memory.read s.mem a) ∧
      ∀ i (h : i < 64), i < n.toNat → Untouched s i →
        let a := truncAddr s.config (s.dp.toNat + i)
        Memory.read t.mem a = Memory.read s.accMem a ∨
        Memory.read t.mem a =
          (if s.ksl then 0x00 else Memory.read s.accMem (truncAddr s.config (s.sp.toNat + i))) ^^^ s.KS[i]

/-- R151, for PROCESS: the same for the whole call, whatever other agents did to other bytes meanwhile.
`accMem` is the memory the call was accepted with (log 12). That in a run with a race the end, the flags, the
other bytes and the untouched bytes are as without it is the model's choice, where R62 promises nothing else
of such a run (log 14). -/
def Obligations.RefusedAccessEndsProcessWithBus : Prop :=
  ∀ s : State, InProgress .process s → s.err = .none → callCheck s = .none → ParamInv s → MemInv s →
    rangeOK s.config s.cfg.ks s.src.toNat s.dst.toNat s.len.toNat = false →
    ∃ t, exec .process s = .next t ∧ t.busy = false ∧ t.op = 0x00 ∧ t.ph = .idle ∧ t.err = .bus ∧
      t.done = false ∧ t.sv = false ∧ t.xv = false ∧ t.kv = false ∧ t.drc = 0 ∧ t.wrb = s.wrb ∧
      SameRegisters s t ∧
      (∀ a, (a < s.dst.toNat ∨ s.dst.toNat + s.len.toNat ≤ a) →
        Memory.read t.mem a = Memory.read s.mem a) ∧
      ∀ i, i < s.len.toNat → Untouched s i →
        Memory.read t.mem (s.dst.toNat + i) = Memory.read s.accMem (s.dst.toNat + i) ∨
        Memory.read t.mem (s.dst.toNat + i) =
          (if s.cfg.ks then 0x00 else Memory.read s.accMem (s.src.toNat + i)) ^^^ callKey s i

/-! ### The commands' effects. `fin` is the model's own field: the effect is complete and completion is
the next engine step (log 9). -/

/-- 41_stage_commands.md R102: the effect of NOP is none. -/
def Obligations.NopHasNoEffect : Prop :=
  ∀ s : State, InProgress .nop s → exec .nop s = .next { s with fin := true }

/-- R104: INIT builds `S` and latches the call; the registers it reads, `WRB` and memory are unchanged. -/
def Obligations.InitLatchesTheCall : Prop :=
  ∀ s : State, InProgress .init s →
    exec .init s = .next { s with
      S := initMatrix s.key s.ctr0 s.ctr1 s.nonce0 s.nonce1
      ndr := if s.cfg.rc = 0 then .ten else if s.cfg.rc = 1 then .six else .four
      ksl := s.cfg.ks, venl := s.cfg.ven, sp := s.src, dp := s.dst, rem := s.len
      sv := true, xv := false, kv := false, drc := 0, fin := true }

/-- R105: LOADX copies `S` to `X`, and changes nothing else but `XV` and `DRC`. -/
def Obligations.LoadxCopiesTheBaseMatrix : Prop :=
  ∀ s : State, InProgress .loadx s →
    exec .loadx s = .next { s with X := s.S, xv := true, drc := 0, fin := true }

/-- R106: DROUND is one double-round on `X` and counts it. -/
def Obligations.DroundIsOneDoubleRound : Prop :=
  ∀ s : State, InProgress .dround s →
    exec .dround s = .next { s with X := DR s.X, drc := s.drc + 1, fin := true }

/-- R107: FEED adds, serialises, then advances the counter. `X` "holds no value" afterwards, so nothing is
said of it. -/
def Obligations.FeedFinalisesTheBlock : Prop :=
  ∀ s : State, InProgress .feed s →
    ∃ x, exec .feed s = .next { s with
      X := x, KS := ser (feedForward s.X s.S), S := ctrInc s.config.ctrWidth s.S
      xv := false, drc := 0, kv := true, fin := true }

/-- R108: EMIT `n`, in any state that meets the invariant on the stream pointers: output byte `i` is input
byte `i` (or 0) XOR `KS[i]`; every other byte of memory is unchanged; the pointers and `REM` advance;
nothing else changes but `KV`. Its buffers stay the engine's until completion (20_memory.md R54, R62). -/
def Obligations.EmitMovesExactlyItsBytes : Prop :=
  ∀ (n : BitVec 7) (s : State), InProgress (.emit n) s → n.toNat ≤ 64 → n.toNat ≤ s.rem.toNat →
    s.config.Legal → MemInv s → s.sv = true → StreamInv s → s.emitOK n.toNat = true →
    ∃ t, exec (.emit n) s = .next t ∧
      t = { s with
        mem := t.mem
        sp := BitVec.ofNat 32 ((s.sp.toNat + n.toNat) % 2 ^ s.config.aw)
        dp := BitVec.ofNat 32 ((s.dp.toNat + n.toNat) % 2 ^ s.config.aw)
        rem := s.rem - BitVec.ofNat 32 n.toNat
        kv := false, fin := true } ∧
      (∀ i (h : i < 64), i < n.toNat → Memory.read t.mem (s.dp.toNat + i) =
        (if s.ksl then 0x00 else Memory.read s.mem (s.sp.toNat + i)) ^^^ s.KS[i]) ∧
      (∀ a, (a < s.dp.toNat ∨ s.dp.toNat + n.toNat ≤ a) → Memory.read t.mem a = Memory.read s.mem a) ∧
      s.footprint = ⟨s.ksl, s.sp.toNat, s.dp.toNat, n.toNat⟩ ∧ t.footprint = s.footprint

/-- 42_block_and_process.md R113: `(KS, S) <- BlockFn(S, NDR)`, `XV <- 0`, `DRC <- 0`, `KV <- 1`, and
nothing else. `X` holds no value afterwards; `ph` is the model's last phase of BLOCK (10_state.md R38). -/
def Obligations.BlockIsBlockFn : Prop :=
  ∀ s : State, InProgress .block s →
    ∃ x, exec .block s = .next { s with
      X := x
      KS := (blockFn s.config.ctrWidth s.S s.ndr.toNat).1
      S := (blockFn s.config.ctrWidth s.S s.ndr.toNat).2
      xv := false, drc := 0, kv := true, ph := .feedp, fin := true }

/-- R114, R115: the contract of a call. It completes its effect without error; every output byte is input
byte XOR keystream byte; every other byte is unchanged; `S`, the pointers, `REM`, the latched configuration
and the flags are as R114 says; the programmer registers are unchanged. Its buffers stay the engine's until
completion (20_memory.md R54, R62). -/
def Obligations.ProcessContract : Prop :=
  ∀ s : State, CallReady s →
    ∃ t, exec .process s = .next t ∧
      (∀ i, i < s.len.toNat → Memory.read t.mem (s.dst.toNat + i) = inputByte s i ^^^ callKey s i) ∧
      (∀ a, (a < s.dst.toNat ∨ s.dst.toNat + s.len.toNat ≤ a) →
        Memory.read t.mem a = Memory.read s.mem a) ∧
      t.S = ctrIncBy s.config.ctrWidth s.argMatrix ((s.len.toNat + 63) / 64) ∧
      t.sp = BitVec.ofNat 32 ((s.src.toNat + s.len.toNat) % 2 ^ s.config.aw) ∧
      t.dp = BitVec.ofNat 32 ((s.dst.toNat + s.len.toNat) % 2 ^ s.config.aw) ∧
      t.rem = 0 ∧ t.ndr = (if s.cfg.rc = 0 then .ten else if s.cfg.rc = 1 then .six else .four) ∧
      t.ksl = s.cfg.ks ∧ t.venl = s.cfg.ven ∧
      t.sv = true ∧ t.xv = false ∧ t.kv = false ∧ t.drc = 0 ∧ t.err = .none ∧
      t.busy = true ∧ t.fin = true ∧ t.op = 0x07 ∧ t.wrb = s.wrb ∧ t.config = s.config ∧ SameRegisters s t ∧
      s.footprint = ⟨s.cfg.ks, s.src.toNat, s.dst.toNat, s.len.toNat⟩ ∧ t.footprint = s.footprint

/-- 43_host_register_access.md R127: completion is an engine step of its own: `BUSY <- 0; OP <- 0x00;
PH <- IDLE; DONE <- 1`. The other fields are the model's own (log 9, log 10, log 12). It changes no byte of
memory unless another agent wrote the engine's bytes meanwhile; then, by 20_memory.md R62, an output byte
whose input byte was written is made of the old or of a new input byte. That the race shows at completion,
and that nothing else goes wrong in such a run, is the model's choice (log 14). -/
def Obligations.CompletionIsAStepOfItsOwn : Prop :=
  ∀ (i : Instr) (s : State) (g : Grain), s.current = some i → s.fin = true →
    ∃ m, step (s.facing (.engine g)) = .next { s with
        mem := m, busy := false, op := 0x00, ph := .idle, done := true, fin := false, emitN := 0, accMem := []
        accKS := zeroBlock, races := [] } ∧
      (s.races = [] → m = s.mem) ∧
      (InWindow s →
        (∀ a, s.ownsOutput a = false → Memory.read m a = Memory.read s.mem a) ∧
        ∀ j, j < s.footprint.count →
          let a := truncAddr s.config (s.footprint.dst + j)
          let b := truncAddr s.config (s.footprint.src + j)
          (Untouched s j → Memory.read m a = Memory.read s.mem a) ∧
          (s.footprint.ks = false → (∀ r ∈ s.races, r.addr ≠ a) → (∃ r ∈ s.races, r.addr = b) →
            ∃ u, (u = Memory.read s.accMem b ∨ ∃ r ∈ s.races, r.addr = b ∧ u = r.value) ∧
              Memory.read m a = u ^^^ s.outputKey j))

/-! ### Frames over all commands -/

/-- 10_state.md R26, 43_host_register_access.md R129: no command, accepted, refused or executed, writes a
programmer register, `WRB` or a parameter. -/
def Obligations.CommandsNeverWriteProgrammerRegisters : Prop :=
  ∀ (i : Instr) (s t : State), exec i s = .next t →
    SameRegisters s t ∧ t.config = s.config ∧ t.wrb = s.wrb ∧ t.inbox = s.inbox ∧ t.bus = s.bus

/-- 20_memory.md R47: only EMIT and PROCESS reach data memory, and they only while executing. -/
def Obligations.OnlyEmitAndProcessWriteMemory : Prop :=
  ∀ (i : Instr) (s t : State), exec i s = .next t →
    (s.busy = false ∨ ((∀ n, i ≠ .emit n) ∧ i ≠ .process)) → ∀ a, Memory.read t.mem a = Memory.read s.mem a

/-- 10_state.md R31: words 0 to 11 and 14 to 15 of `S` never change between two INITs. -/
def Obligations.BaseMatrixFixedBetweenInits : Prop :=
  ∀ (i : Instr) (s t : State), exec i s = .next t → i ≠ .init → i ≠ .process →
    ∀ k (h : k < 16), k ≠ 12 → k ≠ 13 → t.S.words[k] = s.S.words[k]

/-! ### Invariants -/

/-- The state after reset, of every instance with legal parameters, meets the invariants (10_state.md
R37, R40). That memory starts empty is the model's choice (log 4). -/
def Obligations.ResetMeetsTheInvariants : Prop :=
  ∀ c : Config, c.Legal →
    MemInv (State.resetWith c) ∧ ParamInv (State.resetWith c) ∧ SeqInv (State.resetWith c) ∧
      StreamInv (State.resetWith c)

/-- Every step keeps data memory in its canonical form, which is the model's (log 4, log 12). -/
def Obligations.StepKeepsMemoryCanonical : Prop :=
  ∀ s t : State, MemInv s → step s = .next t → MemInv t

/-- 00_scope.md R7, 10_state.md R22, R24, R33, R39: no step changes a parameter, and the state keeps
fitting the parameters. -/
def Obligations.StepKeepsParameters : Prop :=
  ∀ s t : State, ParamInv s → step s = .next t → t.config = s.config ∧ ParamInv t

/-- R37, R38: every step keeps the invariants of the flags and of the sequencer. -/
def Obligations.StepKeepsSequencerInvariant : Prop :=
  ∀ s t : State, SeqInv s → step s = .next t → SeqInv t

/-- 20_memory.md R55, R59: every step keeps the bytes still to be moved inside the address space, and the
two ranges identical or disjoint. -/
def Obligations.StepKeepsStreamBounds : Prop :=
  ∀ s t : State, ParamInv s → SeqInv s → StreamInv s → step s = .next t → StreamInv t

/-- 43_host_register_access.md R127, 70_reset_and_hazards.md R179: an accepted command, left to the
engine's whole turns, completes or ends in BUS within two engine steps; and the host's `wait`
(30_encoding.md R75) ends, whichever way the engine moves between its polls, the last value it read being the
final `STATUS`, with `BUSY = 0`. R179 promises the end "provided the memory port answers every access in
finite time", which the model takes for granted (log 18); the number two is the model's (log 7, log 9). -/
def Obligations.AcceptedCommandEnds : Prop :=
  ∀ (i : Instr) (s : State), InProgress i s → SeqInv s →
    (∃ t, core.run 2 (s.withInbox []) = .next t ∧ t.busy = false ∧
      ((t.done = true ∧ t.err = .none) ∨ (t.done = false ∧ t.err = .bus))) ∧
    ∀ g, ∃ k t, core.run k (s.withInbox [.hostWait g]) = .next t ∧ t.inbox = [] ∧ t.busy = false ∧
      t.bus = .word (statusWord t) ∧
      ((t.done = true ∧ t.err = .none) ∨ (t.done = false ∧ t.err = .bus))

/-- 60_exceptions.md R154, R157, 10_state.md R17: the transitions between idle, busy and error, each with its
cause. Idle becomes busy by a `CMD` write of a word that decodes, and an error by a `CMD` write. An error
stays until a `STATUS` write with bit 31 or reset clears it, is never replaced, and never becomes busy. Busy
becomes idle by completion or reset, and an error only as BUS, before its effect is complete. -/
def Obligations.StateTransitionsAreTheListedOnes : Prop :=
  ∀ s t : State, SeqInv s → step s = .next t →
    (Idle s →
      (t.busy = true → NextEvent s fun e =>
        ∃ w i, e = cmdWrite s.config w ∧ decode w = some i ∧ t.op = i.opcode) ∧
      (t.err ≠ .none → t.busy = false ∧ t.err ≠ .bus ∧ NextEvent s fun e => ∃ w, e = cmdWrite s.config w)) ∧
    (InError s →
      t.busy = false ∧ (t.err = .none ↔ NextEvent s (clearsErr s)) ∧ (t.err = .none ∨ t.err = s.err)) ∧
    (s.busy = true →
      t.busy = true ∨ (Idle t ∧ (s.fin = true ∨ NextEvent s fun e => e = .reset)) ∨
        (t.busy = false ∧ t.err = .bus ∧ s.fin = false))

/-- 10_state.md R18: `WRB` is 1 after a step exactly when the step dropped a host write on a busy engine,
or it was 1 and the step was neither a `STATUS` write with bit 5 on an engine not busy nor reset. -/
def Obligations.WrbIsStickyAndSetByDroppedWrites : Prop :=
  ∀ (s t : State), step s = .next t →
    (t.wrb = true ↔
      (s.busy = true ∧ ∃ off data rest, off < 256 ∧ off % 4 = 0 ∧
        s.inbox = wrEvent s.config off data :: rest) ∨
      (s.wrb = true ∧
        ¬(s.busy = false ∧ ∃ data rest, BitVec.getLsbD data 5 = true ∧
          s.inbox = wrEvent s.config 0x04 data :: rest) ∧
        ¬∃ rest, s.inbox = .reset :: rest))

/-- 70_reset_and_hazards.md R166, R167, 10_state.md R40: reset in any state gives the reset values (nothing
is said of the state R40 gives no value); data memory is not touched when no command is in progress. -/
def Obligations.ResetInputGivesTheResetValues : Prop :=
  ∀ s : State, ∃ t, step (s.facing .reset) = .next t ∧
    statusWord t = 0 ∧ t.busy = false ∧ t.err = .none ∧
    cfgWord t.cfg = (if s.config.bpi = .one then 0x00000000 else 0x00000100) ∧
    capWord t.config = capWord s.config ∧ t.config = s.config ∧
    t.src = 0 ∧ t.dst = 0 ∧ t.len = 0 ∧ t.ctr0 = 0 ∧ t.ctr1 = 0 ∧ t.nonce0 = 0 ∧ t.nonce1 = 0 ∧
    (∀ i (h : i < 8), t.key[i] = 0) ∧ t.op = 0x00 ∧ t.ph = .idle ∧
    (s.busy = false → t.mem = s.mem)

/-- R166: reset while any command is in progress, in any phase or before its completion: bytes outside the
output range are unchanged, and each output byte that no other agent touched (20_memory.md R62) holds its
value from before the command or the one the completed command would have written. The old bytes and the
block are those kept from acceptance (`accMem`, `accKS`, log 12). That in a run with a race the other and the
untouched bytes are as without it is the model's choice, where R62 promises nothing else of such a run
(log 14). -/
def Obligations.ResetDuringACallLeavesOldOrNewBytes : Prop :=
  ∀ s : State, InWindow s →
    ∃ t, step (s.facing .reset) = .next t ∧
      (∀ a, s.ownsOutput a = false → Memory.read t.mem a = Memory.read s.mem a) ∧
      ∀ i, i < s.footprint.count → Untouched s i →
        OldOrNew s i (Memory.read t.mem (truncAddr s.config (s.footprint.dst + i)))

/-- 20_memory.md R46, R56, R57, R62: what another agent's access of data memory does. Where `MemOK`
refuses the engine it is refused: that is the model's choice, since the spec states `MemOK` for the engine's
accesses only (00_scope.md R6, R58; log 23). A byte that does not belong to the engine is ordinary memory: a read returns the
last value written, a write changes only the addressed byte. The buffers of a PROCESS or an EMIT belong to the
engine from acceptance to completion, in every phase: a write there is a race, which the model records
(log 14); a read of an output byte returns its old or its new value (93_implementation_defined.md U27). -/
def Obligations.TouchingACallsBufferIsARace : Prop :=
  ∀ (s : State) (a : Nat) (v : Byte),
    (memOK s.config a = false →
      step (s.facing (.memWrite a v)) = .next { s with bus := .busError } ∧
      step (s.facing (.memRead a)) = .next { s with bus := .busError }) ∧
    (memOK s.config a = true →
      (s.ownsOutput a = false → s.ownsInput a = false →
        step (s.facing (.memWrite a v)) = .next { s with mem := Memory.write s.mem a v, bus := .ack }) ∧
      (s.ownsOutput a = true ∨ s.ownsInput a = true →
        step (s.facing (.memWrite a v)) = .next { s with
          mem := Memory.write s.mem a v, races := ⟨a, v, s.draw⟩ :: s.races, draw := s.draw + 1, bus := .ack }) ∧
      (s.ownsOutput a = false →
        step (s.facing (.memRead a)) = .next { s with bus := .byte (Memory.read s.mem a) }) ∧
      (s.ownsOutput a = true →
        ∃ b, step (s.facing (.memRead a)) = .next { s with bus := .byte b, draw := s.draw + 1 } ∧
          (InWindow s → Untouched s (bufferIndex s.config s.footprint.dst a) →
            OldOrNew s (bufferIndex s.config s.footprint.dst a) b))) ∧
    (MemInv s → ∀ b, Memory.read (Memory.write s.mem a v) b = if b = a then v else Memory.read s.mem b) ∧
    (s.busy = false → s.ownsOutput a = false ∧ s.ownsInput a = false) ∧
    (InWindow s → a < 2 ^ s.config.aw →
      (s.ownsOutput a = true ↔ ∃ i, i < s.footprint.count ∧ a = truncAddr s.config (s.footprint.dst + i)) ∧
      (s.ownsInput a = true ↔ s.footprint.ks = false ∧
        ∃ i, i < s.footprint.count ∧ a = truncAddr s.config (s.footprint.src + i)))

/-- 70_reset_and_hazards.md R180, for every command that is accepted, NOP included: after the `CMD` write a
read of `STATUS` may return `BUSY = 1`, or `BUSY = 0` with the command ended (`DONE = 1`, or `ERR = BUS`); and a
register write may be dropped with `WRB` set, or take effect. -/
def Obligations.BusyWindowAdmitsBothOutcomes : Prop :=
  ∀ (i : Instr) (s : State) (v : Word), Idle s → i.wf = true → exec i s = .next (AcceptedState i s) →
    let c := s.config
    let cmd := cmdWrite c (encode i)
    (∃ t w, core.run 2 (s.withInbox [cmd, rdEvent c 0x04]) = .next t ∧ t.bus = .word w ∧
      w.getLsbD 0 = true ∧ w.getLsbD 1 = false) ∧
    (∃ t w, core.run 4 (s.withInbox [cmd, .engine .whole, .engine .whole, rdEvent c 0x04]) = .next t ∧
      t.bus = .word w ∧ w.getLsbD 0 = false ∧ (w.getLsbD 1 = true ∨ w.extractLsb' 8 4 = 6)) ∧
    (∃ t, core.run 2 (s.withInbox [cmd, wrEvent c 0x40 v]) = .next t ∧ t.key = s.key ∧ t.wrb = true) ∧
    (∃ t, core.run 4 (s.withInbox [cmd, .engine .whole, .engine .whole, wrEvent c 0x40 v]) = .next t ∧
      t.key = s.key.set 0 v ∧ t.wrb = s.wrb)

/-! ### The properties of the cipher engine -/

/-- 42_block_and_process.md R118: whatever `BPI` is and whether vector iterations are used, a call ends in
the same memory, the same `S`, pointers, flags and registers. What may differ is what R118 lists (`X`, `KS`
and the slots hold no value) and the parameters compared themselves. -/
def Obligations.VectorAndScalarPathsAgree : Prop :=
  ∀ (s u : State) (b : Bpi) (v : Bool) (sl : List Slot), CallReady s →
    u = { s with config := { s.config with bpi := b }, cfg := { s.cfg with ven := v }, slots := sl } →
    CallReady u →
    ∃ t t', exec .process s = .next t ∧ exec .process u = .next t' ∧
      t' = { t with
        config := u.config, cfg := u.cfg, venl := t'.venl, slots := t'.slots, X := t'.X, KS := t'.KS }

/-- 10_state.md R38: a command run one phase at a time reaches the state its meaning gives at once. -/
def Obligations.PhasesReachTheWholeEffect : Prop :=
  ∀ (i : Instr) (s : State), InProgress i s → ∃ k t, exec i s = .next t ∧ phaseTurns k s = .next t

/-- 41_stage_commands.md R109: LOADX, `NDR` times DROUND, FEED are all accepted when `SV = 1` and end in
the same state as one BLOCK. -/
def Obligations.StagesOfABlockEqualBlock : Prop :=
  ∀ s : State, Idle s → SeqInv s → s.sv = true →
    ∃ t, issueAll (blockStages s.ndr.toNat) s = .next t ∧ issue .block s = .next t ∧
      t.err = .none ∧ t.done = true

/-- R109: INIT, then for each block its stages and an EMIT, has the same effect on data memory as one
PROCESS. -/
def Obligations.StagesOfACallEqualProcess : Prop :=
  ∀ s : State, Idle s → SeqInv s → ParamInv s → callCheck s = .none →
    rangeOK s.config s.cfg.ks s.src.toNat s.dst.toNat s.len.toNat = true →
    ∃ t u, issueAll (callStages (ndrOf s.cfg.rc).toNat s.len.toNat) s = .next t ∧
      issue .process s = .next u ∧ t.err = .none ∧ u.err = .none ∧ t.mem = u.mem

/-- 42_block_and_process.md R120: a second call in XOR mode with the same key, nonce, counter-start, round
count and length, on the first call's output, gives back the first call's input. -/
def Obligations.Involution : Prop :=
  ∀ s u t v : State, CallReady s → CallReady u → SameCipher s u → u.len = s.len →
    s.cfg.ks = false → u.cfg.ks = false →
    exec .process s = .next t →
    (∀ i, i < s.len.toNat →
      Memory.read u.mem (u.src.toNat + i) = Memory.read t.mem (s.dst.toNat + i)) →
    exec .process u = .next v →
    ∀ i, i < s.len.toNat → Memory.read v.mem (u.dst.toNat + i) = Memory.read s.mem (s.src.toNat + i)

/-- R121: the output for an all-zero input XOR the output for `P` is `P`; and keystream-only mode writes
what XOR mode writes on an all-zero input. -/
def Obligations.KeystreamIndependence : Prop :=
  ∀ s u t v : State, CallReady s → CallReady u → SameCipher s u → u.len = s.len →
    s.cfg.ks = false → (∀ i, i < s.len.toNat → Memory.read s.mem (s.src.toNat + i) = 0) →
    exec .process s = .next t → exec .process u = .next v →
    (u.cfg.ks = false → ∀ i, i < s.len.toNat →
      Memory.read t.mem (s.dst.toNat + i) ^^^ Memory.read v.mem (u.dst.toNat + i) =
        Memory.read u.mem (u.src.toNat + i)) ∧
    (u.cfg.ks = true → ∀ i, i < s.len.toNat →
      Memory.read v.mem (u.dst.toNat + i) = Memory.read t.mem (s.dst.toNat + i))

/-- R122, the general form: a call `s` of length `n` at counter `c` writes what a call `f` of length `64 k`
at counter `c` writes, followed by what a call `g` of length `n - 64 k` at counter `c + k` on the rest of
the input writes. The counter is `CTR_WIDTH` bits wide. -/
def Obligations.SplitCallsAgree : Prop :=
  ∀ (s f g s' f' g' : State) (k : Nat),
    CallReady s → CallReady f → CallReady g → SameCipher s f → f.cfg.ks = s.cfg.ks →
    g.key = s.key → g.nonce0 = s.nonce0 → g.nonce1 = s.nonce1 → g.cfg.rc = s.cfg.rc →
    g.config.ctrWidth = s.config.ctrWidth → g.cfg.ks = s.cfg.ks →
    (match s.config.ctrWidth with
      | .w64 => g.ctr1.toNat * 2 ^ 32 + g.ctr0.toNat = (s.ctr1.toNat * 2 ^ 32 + s.ctr0.toNat + k) % 2 ^ 64
      | .w32 => g.ctr1 = s.ctr1 ∧ g.ctr0.toNat = (s.ctr0.toNat + k) % 2 ^ 32) →
    f.len.toNat = 64 * k → s.len.toNat = 64 * k + g.len.toNat →
    (∀ i, i < 64 * k → inputByte f i = inputByte s i) →
    (∀ i, i < g.len.toNat → inputByte g i = inputByte s (64 * k + i)) →
    exec .process s = .next s' → exec .process f = .next f' → exec .process g = .next g' →
    (∀ i, i < 64 * k → Memory.read f'.mem (f.dst.toNat + i) = Memory.read s'.mem (s.dst.toNat + i)) ∧
    ∀ i, i < g.len.toNat →
      Memory.read g'.mem (g.dst.toNat + i) = Memory.read s'.mem (s.dst.toNat + 64 * k + i)

/-- 30_encoding.md R75, R76: the source's call as a host program. From every idle machine with nothing else to
come, for arguments that pass the checks and whose footprint exists, the program runs to the end of its
`wait`, and its return value is the input (or zeros) XOR the keystream of key, nonce, counter-start and round
count; no byte outside the output buffer has changed. How the engine moves between two polls is `g` (log 21).
That the `wait` ends, 70_reset_and_hazards.md R179 promises "provided the memory port answers every access in
finite time", which the model takes for granted (log 18, DESIGN CHOICE). -/
def Obligations.CallProgramReturnsTheCipher : Prop :=
  ∀ (s : State) (g : Grain) (key : Vector Byte 32) (nonce : Vector Byte 8) (c : Nat)
    (input output length : Word) (rounds : Nat) (ks ven : Bool),
    Idle s → SeqInv s → ParamInv s → MemInv s → s.inbox = [] → (rounds = 20 ∨ rounds = 12 ∨ rounds = 8) →
    c < 2 ^ 64 →
    rangeBad s.config.aw input.toNat output.toNat length.toNat ks = false →
    overlapBad input.toNat output.toNat length.toNat ks = false →
    rangeOK s.config ks input.toNat output.toNat length.toNat = true →
    ∃ s' k t, s.withProgram g (callProgram key nonce c input output length rounds ks ven) = some s' ∧
      core.run k s' = .next t ∧ t.inbox = [] ∧ Idle t ∧
      t.callResult = some ((List.range length.toNat).map fun i =>
        (if ks then 0x00 else Memory.read s.mem (input.toNat + i)) ^^^
          keystream s.config.ctrWidth
            (initMatrix (keyWords key) (BitVec.ofNat 32 c) (BitVec.ofNat 32 (c / 2 ^ 32)) (nonceWords nonce)[0]
              (nonceWords nonce)[1]) (rounds / 2) i) ∧
      ∀ a, (a < output.toNat ∨ output.toNat + length.toNat ≤ a) → Memory.read t.mem a = Memory.read s.mem a

/-- 10_state.md R37, R40, 93_implementation_defined.md U14, U15: what holds no value is never read. Two
states that agree on everything else step to outcomes that agree on everything else. The contents chosen
at reset (log 5) and kept afterwards (log 6) are the model's; by this statement nothing depends on them. -/
def Obligations.WhatHoldsNoValueIsNeverRead : Prop :=
  ∀ s u : State, SeqInv s → SeqInv u → s.masked = u.masked → SameMasked (step s) (step u)
end

