-- ==== Sys2Proof/Laws/State.lean ====
section
/-! SUPPORT. One lemma per field for each named update of the state, each true by `rfl`, so that no later
proof unfolds a record update. A field an update does not write is the field before it. -/

namespace Sys2Proof.Machine

/-! ### accept -/

@[simp] theorem accept_config (s : State) (i : Instr) : (s.accept i).config = s.config := rfl
@[simp] theorem accept_cfg (s : State) (i : Instr) : (s.accept i).cfg = s.cfg := rfl
@[simp] theorem accept_src (s : State) (i : Instr) : (s.accept i).src = s.src := rfl
@[simp] theorem accept_dst (s : State) (i : Instr) : (s.accept i).dst = s.dst := rfl
@[simp] theorem accept_len (s : State) (i : Instr) : (s.accept i).len = s.len := rfl
@[simp] theorem accept_ctr0 (s : State) (i : Instr) : (s.accept i).ctr0 = s.ctr0 := rfl
@[simp] theorem accept_ctr1 (s : State) (i : Instr) : (s.accept i).ctr1 = s.ctr1 := rfl
@[simp] theorem accept_nonce0 (s : State) (i : Instr) : (s.accept i).nonce0 = s.nonce0 := rfl
@[simp] theorem accept_nonce1 (s : State) (i : Instr) : (s.accept i).nonce1 = s.nonce1 := rfl
@[simp] theorem accept_key (s : State) (i : Instr) : (s.accept i).key = s.key := rfl
@[simp] theorem accept_busy (s : State) (i : Instr) : (s.accept i).busy = true := rfl
@[simp] theorem accept_done (s : State) (i : Instr) : (s.accept i).done = false := rfl
@[simp] theorem accept_sv (s : State) (i : Instr) : (s.accept i).sv = s.sv := rfl
@[simp] theorem accept_xv (s : State) (i : Instr) : (s.accept i).xv = s.xv := rfl
@[simp] theorem accept_kv (s : State) (i : Instr) : (s.accept i).kv = s.kv := rfl
@[simp] theorem accept_wrb (s : State) (i : Instr) : (s.accept i).wrb = s.wrb := rfl
@[simp] theorem accept_err (s : State) (i : Instr) : (s.accept i).err = s.err := rfl
@[simp] theorem accept_drc (s : State) (i : Instr) : (s.accept i).drc = s.drc := rfl
@[simp] theorem accept_S (s : State) (i : Instr) : (s.accept i).S = s.S := rfl
@[simp] theorem accept_X (s : State) (i : Instr) : (s.accept i).X = s.X := rfl
@[simp] theorem accept_KS (s : State) (i : Instr) : (s.accept i).KS = s.KS := rfl
@[simp] theorem accept_slots (s : State) (i : Instr) : (s.accept i).slots = s.slots := rfl
@[simp] theorem accept_sp (s : State) (i : Instr) : (s.accept i).sp = s.sp := rfl
@[simp] theorem accept_dp (s : State) (i : Instr) : (s.accept i).dp = s.dp := rfl
@[simp] theorem accept_rem (s : State) (i : Instr) : (s.accept i).rem = s.rem := rfl
@[simp] theorem accept_ndr (s : State) (i : Instr) : (s.accept i).ndr = s.ndr := rfl
@[simp] theorem accept_ksl (s : State) (i : Instr) : (s.accept i).ksl = s.ksl := rfl
@[simp] theorem accept_venl (s : State) (i : Instr) : (s.accept i).venl = s.venl := rfl
@[simp] theorem accept_op (s : State) (i : Instr) : (s.accept i).op = i.opcode := rfl
@[simp] theorem accept_ph (s : State) (i : Instr) : (s.accept i).ph = firstPhase i := rfl
@[simp] theorem accept_emitN (s : State) (i : Instr) : (s.accept i).emitN = byteCount i := rfl
@[simp] theorem accept_mem (s : State) (i : Instr) : (s.accept i).mem = s.mem := rfl
@[simp] theorem accept_fin (s : State) (i : Instr) : (s.accept i).fin = false := rfl
@[simp] theorem accept_accMem (s : State) (i : Instr) : (s.accept i).accMem = s.mem := rfl
@[simp] theorem accept_accKS (s : State) (i : Instr) : (s.accept i).accKS = keptBlock i s.KS := rfl
@[simp] theorem accept_races (s : State) (i : Instr) : (s.accept i).races = [] := rfl
@[simp] theorem accept_draw (s : State) (i : Instr) : (s.accept i).draw = s.draw := rfl
@[simp] theorem accept_bus (s : State) (i : Instr) : (s.accept i).bus = s.bus := rfl
@[simp] theorem accept_inbox (s : State) (i : Instr) : (s.accept i).inbox = s.inbox := rfl

/-! ### finish -/

@[simp] theorem finish_config (s : State) (p : Phase) : (s.finish p).config = s.config := rfl
@[simp] theorem finish_cfg (s : State) (p : Phase) : (s.finish p).cfg = s.cfg := rfl
@[simp] theorem finish_src (s : State) (p : Phase) : (s.finish p).src = s.src := rfl
@[simp] theorem finish_dst (s : State) (p : Phase) : (s.finish p).dst = s.dst := rfl
@[simp] theorem finish_len (s : State) (p : Phase) : (s.finish p).len = s.len := rfl
@[simp] theorem finish_ctr0 (s : State) (p : Phase) : (s.finish p).ctr0 = s.ctr0 := rfl
@[simp] theorem finish_ctr1 (s : State) (p : Phase) : (s.finish p).ctr1 = s.ctr1 := rfl
@[simp] theorem finish_nonce0 (s : State) (p : Phase) : (s.finish p).nonce0 = s.nonce0 := rfl
@[simp] theorem finish_nonce1 (s : State) (p : Phase) : (s.finish p).nonce1 = s.nonce1 := rfl
@[simp] theorem finish_key (s : State) (p : Phase) : (s.finish p).key = s.key := rfl
@[simp] theorem finish_busy (s : State) (p : Phase) : (s.finish p).busy = s.busy := rfl
@[simp] theorem finish_done (s : State) (p : Phase) : (s.finish p).done = s.done := rfl
@[simp] theorem finish_sv (s : State) (p : Phase) : (s.finish p).sv = s.sv := rfl
@[simp] theorem finish_xv (s : State) (p : Phase) : (s.finish p).xv = s.xv := rfl
@[simp] theorem finish_kv (s : State) (p : Phase) : (s.finish p).kv = s.kv := rfl
@[simp] theorem finish_wrb (s : State) (p : Phase) : (s.finish p).wrb = s.wrb := rfl
@[simp] theorem finish_err (s : State) (p : Phase) : (s.finish p).err = s.err := rfl
@[simp] theorem finish_drc (s : State) (p : Phase) : (s.finish p).drc = s.drc := rfl
@[simp] theorem finish_S (s : State) (p : Phase) : (s.finish p).S = s.S := rfl
@[simp] theorem finish_X (s : State) (p : Phase) : (s.finish p).X = s.X := rfl
@[simp] theorem finish_KS (s : State) (p : Phase) : (s.finish p).KS = s.KS := rfl
@[simp] theorem finish_slots (s : State) (p : Phase) : (s.finish p).slots = s.slots := rfl
@[simp] theorem finish_sp (s : State) (p : Phase) : (s.finish p).sp = s.sp := rfl
@[simp] theorem finish_dp (s : State) (p : Phase) : (s.finish p).dp = s.dp := rfl
@[simp] theorem finish_rem (s : State) (p : Phase) : (s.finish p).rem = s.rem := rfl
@[simp] theorem finish_ndr (s : State) (p : Phase) : (s.finish p).ndr = s.ndr := rfl
@[simp] theorem finish_ksl (s : State) (p : Phase) : (s.finish p).ksl = s.ksl := rfl
@[simp] theorem finish_venl (s : State) (p : Phase) : (s.finish p).venl = s.venl := rfl
@[simp] theorem finish_op (s : State) (p : Phase) : (s.finish p).op = s.op := rfl
@[simp] theorem finish_ph (s : State) (p : Phase) : (s.finish p).ph = p := rfl
@[simp] theorem finish_emitN (s : State) (p : Phase) : (s.finish p).emitN = s.emitN := rfl
@[simp] theorem finish_mem (s : State) (p : Phase) : (s.finish p).mem = s.mem := rfl
@[simp] theorem finish_fin (s : State) (p : Phase) : (s.finish p).fin = true := rfl
@[simp] theorem finish_accMem (s : State) (p : Phase) : (s.finish p).accMem = s.accMem := rfl
@[simp] theorem finish_accKS (s : State) (p : Phase) : (s.finish p).accKS = s.accKS := rfl
@[simp] theorem finish_races (s : State) (p : Phase) : (s.finish p).races = s.races := rfl
@[simp] theorem finish_draw (s : State) (p : Phase) : (s.finish p).draw = s.draw := rfl
@[simp] theorem finish_bus (s : State) (p : Phase) : (s.finish p).bus = s.bus := rfl
@[simp] theorem finish_inbox (s : State) (p : Phase) : (s.finish p).inbox = s.inbox := rfl

/-! ### complete -/

@[simp] theorem complete_config (s : State) : s.complete.config = s.config := rfl
@[simp] theorem complete_cfg (s : State) : s.complete.cfg = s.cfg := rfl
@[simp] theorem complete_src (s : State) : s.complete.src = s.src := rfl
@[simp] theorem complete_dst (s : State) : s.complete.dst = s.dst := rfl
@[simp] theorem complete_len (s : State) : s.complete.len = s.len := rfl
@[simp] theorem complete_ctr0 (s : State) : s.complete.ctr0 = s.ctr0 := rfl
@[simp] theorem complete_ctr1 (s : State) : s.complete.ctr1 = s.ctr1 := rfl
@[simp] theorem complete_nonce0 (s : State) : s.complete.nonce0 = s.nonce0 := rfl
@[simp] theorem complete_nonce1 (s : State) : s.complete.nonce1 = s.nonce1 := rfl
@[simp] theorem complete_key (s : State) : s.complete.key = s.key := rfl
@[simp] theorem complete_busy (s : State) : s.complete.busy = false := rfl
@[simp] theorem complete_done (s : State) : s.complete.done = true := rfl
@[simp] theorem complete_sv (s : State) : s.complete.sv = s.sv := rfl
@[simp] theorem complete_xv (s : State) : s.complete.xv = s.xv := rfl
@[simp] theorem complete_kv (s : State) : s.complete.kv = s.kv := rfl
@[simp] theorem complete_wrb (s : State) : s.complete.wrb = s.wrb := rfl
@[simp] theorem complete_err (s : State) : s.complete.err = s.err := rfl
@[simp] theorem complete_drc (s : State) : s.complete.drc = s.drc := rfl
@[simp] theorem complete_S (s : State) : s.complete.S = s.S := rfl
@[simp] theorem complete_X (s : State) : s.complete.X = s.X := rfl
@[simp] theorem complete_KS (s : State) : s.complete.KS = s.KS := rfl
@[simp] theorem complete_slots (s : State) : s.complete.slots = s.slots := rfl
@[simp] theorem complete_sp (s : State) : s.complete.sp = s.sp := rfl
@[simp] theorem complete_dp (s : State) : s.complete.dp = s.dp := rfl
@[simp] theorem complete_rem (s : State) : s.complete.rem = s.rem := rfl
@[simp] theorem complete_ndr (s : State) : s.complete.ndr = s.ndr := rfl
@[simp] theorem complete_ksl (s : State) : s.complete.ksl = s.ksl := rfl
@[simp] theorem complete_venl (s : State) : s.complete.venl = s.venl := rfl
@[simp] theorem complete_op (s : State) : s.complete.op = 0x00 := rfl
@[simp] theorem complete_ph (s : State) : s.complete.ph = .idle := rfl
@[simp] theorem complete_emitN (s : State) : s.complete.emitN = 0 := rfl
@[simp] theorem complete_mem (s : State) : s.complete.mem = s.completed := rfl
@[simp] theorem complete_fin (s : State) : s.complete.fin = false := rfl
@[simp] theorem complete_accMem (s : State) : s.complete.accMem = [] := rfl
@[simp] theorem complete_accKS (s : State) : s.complete.accKS = zeroBlock := rfl
@[simp] theorem complete_races (s : State) : s.complete.races = [] := rfl
@[simp] theorem complete_draw (s : State) : s.complete.draw = s.draw := rfl
@[simp] theorem complete_bus (s : State) : s.complete.bus = s.bus := rfl
@[simp] theorem complete_inbox (s : State) : s.complete.inbox = s.inbox := rfl

/-! ### acknowledge -/

@[simp] theorem acknowledge_config (s : State) : s.acknowledge.config = s.config := rfl
@[simp] theorem acknowledge_cfg (s : State) : s.acknowledge.cfg = s.cfg := rfl
@[simp] theorem acknowledge_src (s : State) : s.acknowledge.src = s.src := rfl
@[simp] theorem acknowledge_dst (s : State) : s.acknowledge.dst = s.dst := rfl
@[simp] theorem acknowledge_len (s : State) : s.acknowledge.len = s.len := rfl
@[simp] theorem acknowledge_ctr0 (s : State) : s.acknowledge.ctr0 = s.ctr0 := rfl
@[simp] theorem acknowledge_ctr1 (s : State) : s.acknowledge.ctr1 = s.ctr1 := rfl
@[simp] theorem acknowledge_nonce0 (s : State) : s.acknowledge.nonce0 = s.nonce0 := rfl
@[simp] theorem acknowledge_nonce1 (s : State) : s.acknowledge.nonce1 = s.nonce1 := rfl
@[simp] theorem acknowledge_key (s : State) : s.acknowledge.key = s.key := rfl
@[simp] theorem acknowledge_busy (s : State) : s.acknowledge.busy = s.busy := rfl
@[simp] theorem acknowledge_done (s : State) : s.acknowledge.done = s.done := rfl
@[simp] theorem acknowledge_sv (s : State) : s.acknowledge.sv = s.sv := rfl
@[simp] theorem acknowledge_xv (s : State) : s.acknowledge.xv = s.xv := rfl
@[simp] theorem acknowledge_kv (s : State) : s.acknowledge.kv = s.kv := rfl
@[simp] theorem acknowledge_wrb (s : State) : s.acknowledge.wrb = s.wrb := rfl
@[simp] theorem acknowledge_err (s : State) : s.acknowledge.err = .none := rfl
@[simp] theorem acknowledge_drc (s : State) : s.acknowledge.drc = s.drc := rfl
@[simp] theorem acknowledge_S (s : State) : s.acknowledge.S = s.S := rfl
@[simp] theorem acknowledge_X (s : State) : s.acknowledge.X = s.X := rfl
@[simp] theorem acknowledge_KS (s : State) : s.acknowledge.KS = s.KS := rfl
@[simp] theorem acknowledge_slots (s : State) : s.acknowledge.slots = s.slots := rfl
@[simp] theorem acknowledge_sp (s : State) : s.acknowledge.sp = s.sp := rfl
@[simp] theorem acknowledge_dp (s : State) : s.acknowledge.dp = s.dp := rfl
@[simp] theorem acknowledge_rem (s : State) : s.acknowledge.rem = s.rem := rfl
@[simp] theorem acknowledge_ndr (s : State) : s.acknowledge.ndr = s.ndr := rfl
@[simp] theorem acknowledge_ksl (s : State) : s.acknowledge.ksl = s.ksl := rfl
@[simp] theorem acknowledge_venl (s : State) : s.acknowledge.venl = s.venl := rfl
@[simp] theorem acknowledge_op (s : State) : s.acknowledge.op = s.op := rfl
@[simp] theorem acknowledge_ph (s : State) : s.acknowledge.ph = s.ph := rfl
@[simp] theorem acknowledge_emitN (s : State) : s.acknowledge.emitN = s.emitN := rfl
@[simp] theorem acknowledge_mem (s : State) : s.acknowledge.mem = s.mem := rfl
@[simp] theorem acknowledge_fin (s : State) : s.acknowledge.fin = s.fin := rfl
@[simp] theorem acknowledge_accMem (s : State) : s.acknowledge.accMem = s.accMem := rfl
@[simp] theorem acknowledge_accKS (s : State) : s.acknowledge.accKS = s.accKS := rfl
@[simp] theorem acknowledge_races (s : State) : s.acknowledge.races = s.races := rfl
@[simp] theorem acknowledge_draw (s : State) : s.acknowledge.draw = s.draw := rfl
@[simp] theorem acknowledge_bus (s : State) : s.acknowledge.bus = s.bus := rfl
@[simp] theorem acknowledge_inbox (s : State) : s.acknowledge.inbox = s.inbox := rfl

/-! ### raise_bus -/

@[simp] theorem raise_bus_config (s : State) : (s.raise .bus).config = s.config := rfl
@[simp] theorem raise_bus_cfg (s : State) : (s.raise .bus).cfg = s.cfg := rfl
@[simp] theorem raise_bus_src (s : State) : (s.raise .bus).src = s.src := rfl
@[simp] theorem raise_bus_dst (s : State) : (s.raise .bus).dst = s.dst := rfl
@[simp] theorem raise_bus_len (s : State) : (s.raise .bus).len = s.len := rfl
@[simp] theorem raise_bus_ctr0 (s : State) : (s.raise .bus).ctr0 = s.ctr0 := rfl
@[simp] theorem raise_bus_ctr1 (s : State) : (s.raise .bus).ctr1 = s.ctr1 := rfl
@[simp] theorem raise_bus_nonce0 (s : State) : (s.raise .bus).nonce0 = s.nonce0 := rfl
@[simp] theorem raise_bus_nonce1 (s : State) : (s.raise .bus).nonce1 = s.nonce1 := rfl
@[simp] theorem raise_bus_key (s : State) : (s.raise .bus).key = s.key := rfl
@[simp] theorem raise_bus_busy (s : State) : (s.raise .bus).busy = false := rfl
@[simp] theorem raise_bus_done (s : State) : (s.raise .bus).done = false := rfl
@[simp] theorem raise_bus_sv (s : State) : (s.raise .bus).sv = false := rfl
@[simp] theorem raise_bus_xv (s : State) : (s.raise .bus).xv = false := rfl
@[simp] theorem raise_bus_kv (s : State) : (s.raise .bus).kv = false := rfl
@[simp] theorem raise_bus_wrb (s : State) : (s.raise .bus).wrb = s.wrb := rfl
@[simp] theorem raise_bus_err (s : State) : (s.raise .bus).err = .bus := rfl
@[simp] theorem raise_bus_drc (s : State) : (s.raise .bus).drc = 0 := rfl
@[simp] theorem raise_bus_S (s : State) : (s.raise .bus).S = s.S := rfl
@[simp] theorem raise_bus_X (s : State) : (s.raise .bus).X = s.X := rfl
@[simp] theorem raise_bus_KS (s : State) : (s.raise .bus).KS = s.KS := rfl
@[simp] theorem raise_bus_slots (s : State) : (s.raise .bus).slots = s.slots := rfl
@[simp] theorem raise_bus_sp (s : State) : (s.raise .bus).sp = s.sp := rfl
@[simp] theorem raise_bus_dp (s : State) : (s.raise .bus).dp = s.dp := rfl
@[simp] theorem raise_bus_rem (s : State) : (s.raise .bus).rem = s.rem := rfl
@[simp] theorem raise_bus_ndr (s : State) : (s.raise .bus).ndr = s.ndr := rfl
@[simp] theorem raise_bus_ksl (s : State) : (s.raise .bus).ksl = s.ksl := rfl
@[simp] theorem raise_bus_venl (s : State) : (s.raise .bus).venl = s.venl := rfl
@[simp] theorem raise_bus_op (s : State) : (s.raise .bus).op = 0x00 := rfl
@[simp] theorem raise_bus_ph (s : State) : (s.raise .bus).ph = .idle := rfl
@[simp] theorem raise_bus_emitN (s : State) : (s.raise .bus).emitN = 0 := rfl
@[simp] theorem raise_bus_mem (s : State) : (s.raise .bus).mem = s.settled := rfl
@[simp] theorem raise_bus_fin (s : State) : (s.raise .bus).fin = false := rfl
@[simp] theorem raise_bus_accMem (s : State) : (s.raise .bus).accMem = [] := rfl
@[simp] theorem raise_bus_accKS (s : State) : (s.raise .bus).accKS = zeroBlock := rfl
@[simp] theorem raise_bus_races (s : State) : (s.raise .bus).races = [] := rfl
@[simp] theorem raise_bus_draw (s : State) : (s.raise .bus).draw = s.draw + 1 := rfl
@[simp] theorem raise_bus_bus (s : State) : (s.raise .bus).bus = s.bus := rfl
@[simp] theorem raise_bus_inbox (s : State) : (s.raise .bus).inbox = s.inbox := rfl

/-! ### initPhase -/

@[simp] theorem initPhase_config (s : State) : (initPhase s).config = s.config := rfl
@[simp] theorem initPhase_cfg (s : State) : (initPhase s).cfg = s.cfg := rfl
@[simp] theorem initPhase_src (s : State) : (initPhase s).src = s.src := rfl
@[simp] theorem initPhase_dst (s : State) : (initPhase s).dst = s.dst := rfl
@[simp] theorem initPhase_len (s : State) : (initPhase s).len = s.len := rfl
@[simp] theorem initPhase_ctr0 (s : State) : (initPhase s).ctr0 = s.ctr0 := rfl
@[simp] theorem initPhase_ctr1 (s : State) : (initPhase s).ctr1 = s.ctr1 := rfl
@[simp] theorem initPhase_nonce0 (s : State) : (initPhase s).nonce0 = s.nonce0 := rfl
@[simp] theorem initPhase_nonce1 (s : State) : (initPhase s).nonce1 = s.nonce1 := rfl
@[simp] theorem initPhase_key (s : State) : (initPhase s).key = s.key := rfl
@[simp] theorem initPhase_busy (s : State) : (initPhase s).busy = s.busy := rfl
@[simp] theorem initPhase_done (s : State) : (initPhase s).done = s.done := rfl
@[simp] theorem initPhase_sv (s : State) : (initPhase s).sv = true := rfl
@[simp] theorem initPhase_xv (s : State) : (initPhase s).xv = false := rfl
@[simp] theorem initPhase_kv (s : State) : (initPhase s).kv = false := rfl
@[simp] theorem initPhase_wrb (s : State) : (initPhase s).wrb = s.wrb := rfl
@[simp] theorem initPhase_err (s : State) : (initPhase s).err = s.err := rfl
@[simp] theorem initPhase_drc (s : State) : (initPhase s).drc = 0 := rfl
@[simp] theorem initPhase_S (s : State) : (initPhase s).S = s.argMatrix := rfl
@[simp] theorem initPhase_X (s : State) : (initPhase s).X = s.X := rfl
@[simp] theorem initPhase_KS (s : State) : (initPhase s).KS = s.KS := rfl
@[simp] theorem initPhase_slots (s : State) : (initPhase s).slots = s.slots := rfl
@[simp] theorem initPhase_sp (s : State) : (initPhase s).sp = s.src := rfl
@[simp] theorem initPhase_dp (s : State) : (initPhase s).dp = s.dst := rfl
@[simp] theorem initPhase_rem (s : State) : (initPhase s).rem = s.len := rfl
@[simp] theorem initPhase_ndr (s : State) : (initPhase s).ndr = ndrOf s.cfg.rc := rfl
@[simp] theorem initPhase_ksl (s : State) : (initPhase s).ksl = s.cfg.ks := rfl
@[simp] theorem initPhase_venl (s : State) : (initPhase s).venl = s.cfg.ven := rfl
@[simp] theorem initPhase_op (s : State) : (initPhase s).op = s.op := rfl
@[simp] theorem initPhase_ph (s : State) : (initPhase s).ph = s.ph := rfl
@[simp] theorem initPhase_emitN (s : State) : (initPhase s).emitN = s.emitN := rfl
@[simp] theorem initPhase_mem (s : State) : (initPhase s).mem = s.mem := rfl
@[simp] theorem initPhase_fin (s : State) : (initPhase s).fin = s.fin := rfl
@[simp] theorem initPhase_accMem (s : State) : (initPhase s).accMem = s.accMem := rfl
@[simp] theorem initPhase_accKS (s : State) : (initPhase s).accKS = s.accKS := rfl
@[simp] theorem initPhase_races (s : State) : (initPhase s).races = s.races := rfl
@[simp] theorem initPhase_draw (s : State) : (initPhase s).draw = s.draw := rfl
@[simp] theorem initPhase_bus (s : State) : (initPhase s).bus = s.bus := rfl
@[simp] theorem initPhase_inbox (s : State) : (initPhase s).inbox = s.inbox := rfl

/-! ### loadPhase -/

@[simp] theorem loadPhase_config (v : Bool) (s : State) : (loadPhase v s).config = s.config := rfl
@[simp] theorem loadPhase_cfg (v : Bool) (s : State) : (loadPhase v s).cfg = s.cfg := rfl
@[simp] theorem loadPhase_src (v : Bool) (s : State) : (loadPhase v s).src = s.src := rfl
@[simp] theorem loadPhase_dst (v : Bool) (s : State) : (loadPhase v s).dst = s.dst := rfl
@[simp] theorem loadPhase_len (v : Bool) (s : State) : (loadPhase v s).len = s.len := rfl
@[simp] theorem loadPhase_ctr0 (v : Bool) (s : State) : (loadPhase v s).ctr0 = s.ctr0 := rfl
@[simp] theorem loadPhase_ctr1 (v : Bool) (s : State) : (loadPhase v s).ctr1 = s.ctr1 := rfl
@[simp] theorem loadPhase_nonce0 (v : Bool) (s : State) : (loadPhase v s).nonce0 = s.nonce0 := rfl
@[simp] theorem loadPhase_nonce1 (v : Bool) (s : State) : (loadPhase v s).nonce1 = s.nonce1 := rfl
@[simp] theorem loadPhase_key (v : Bool) (s : State) : (loadPhase v s).key = s.key := rfl
@[simp] theorem loadPhase_busy (v : Bool) (s : State) : (loadPhase v s).busy = s.busy := rfl
@[simp] theorem loadPhase_done (v : Bool) (s : State) : (loadPhase v s).done = s.done := rfl
@[simp] theorem loadPhase_sv (v : Bool) (s : State) : (loadPhase v s).sv = s.sv := rfl
@[simp] theorem loadPhase_xv (v : Bool) (s : State) : (loadPhase v s).xv = true := rfl
@[simp] theorem loadPhase_kv (v : Bool) (s : State) : (loadPhase v s).kv = s.kv := rfl
@[simp] theorem loadPhase_wrb (v : Bool) (s : State) : (loadPhase v s).wrb = s.wrb := rfl
@[simp] theorem loadPhase_err (v : Bool) (s : State) : (loadPhase v s).err = s.err := rfl
@[simp] theorem loadPhase_drc (v : Bool) (s : State) : (loadPhase v s).drc = 0 := rfl
@[simp] theorem loadPhase_S (v : Bool) (s : State) : (loadPhase v s).S = s.S := rfl
@[simp] theorem loadPhase_X (v : Bool) (s : State) : (loadPhase v s).X = s.S := rfl
@[simp] theorem loadPhase_KS (v : Bool) (s : State) : (loadPhase v s).KS = s.KS := rfl
@[simp] theorem loadPhase_slots (v : Bool) (s : State) : (loadPhase v s).slots = if v then loadSlots s.config.ctrWidth s.S s.slots else s.slots := rfl
@[simp] theorem loadPhase_sp (v : Bool) (s : State) : (loadPhase v s).sp = s.sp := rfl
@[simp] theorem loadPhase_dp (v : Bool) (s : State) : (loadPhase v s).dp = s.dp := rfl
@[simp] theorem loadPhase_rem (v : Bool) (s : State) : (loadPhase v s).rem = s.rem := rfl
@[simp] theorem loadPhase_ndr (v : Bool) (s : State) : (loadPhase v s).ndr = s.ndr := rfl
@[simp] theorem loadPhase_ksl (v : Bool) (s : State) : (loadPhase v s).ksl = s.ksl := rfl
@[simp] theorem loadPhase_venl (v : Bool) (s : State) : (loadPhase v s).venl = s.venl := rfl
@[simp] theorem loadPhase_op (v : Bool) (s : State) : (loadPhase v s).op = s.op := rfl
@[simp] theorem loadPhase_ph (v : Bool) (s : State) : (loadPhase v s).ph = s.ph := rfl
@[simp] theorem loadPhase_emitN (v : Bool) (s : State) : (loadPhase v s).emitN = s.emitN := rfl
@[simp] theorem loadPhase_mem (v : Bool) (s : State) : (loadPhase v s).mem = s.mem := rfl
@[simp] theorem loadPhase_fin (v : Bool) (s : State) : (loadPhase v s).fin = s.fin := rfl
@[simp] theorem loadPhase_accMem (v : Bool) (s : State) : (loadPhase v s).accMem = s.accMem := rfl
@[simp] theorem loadPhase_accKS (v : Bool) (s : State) : (loadPhase v s).accKS = s.accKS := rfl
@[simp] theorem loadPhase_races (v : Bool) (s : State) : (loadPhase v s).races = s.races := rfl
@[simp] theorem loadPhase_draw (v : Bool) (s : State) : (loadPhase v s).draw = s.draw := rfl
@[simp] theorem loadPhase_bus (v : Bool) (s : State) : (loadPhase v s).bus = s.bus := rfl
@[simp] theorem loadPhase_inbox (v : Bool) (s : State) : (loadPhase v s).inbox = s.inbox := rfl

/-! ### roundPhase -/

@[simp] theorem roundPhase_config (v : Bool) (s : State) : (roundPhase v s).config = s.config := rfl
@[simp] theorem roundPhase_cfg (v : Bool) (s : State) : (roundPhase v s).cfg = s.cfg := rfl
@[simp] theorem roundPhase_src (v : Bool) (s : State) : (roundPhase v s).src = s.src := rfl
@[simp] theorem roundPhase_dst (v : Bool) (s : State) : (roundPhase v s).dst = s.dst := rfl
@[simp] theorem roundPhase_len (v : Bool) (s : State) : (roundPhase v s).len = s.len := rfl
@[simp] theorem roundPhase_ctr0 (v : Bool) (s : State) : (roundPhase v s).ctr0 = s.ctr0 := rfl
@[simp] theorem roundPhase_ctr1 (v : Bool) (s : State) : (roundPhase v s).ctr1 = s.ctr1 := rfl
@[simp] theorem roundPhase_nonce0 (v : Bool) (s : State) : (roundPhase v s).nonce0 = s.nonce0 := rfl
@[simp] theorem roundPhase_nonce1 (v : Bool) (s : State) : (roundPhase v s).nonce1 = s.nonce1 := rfl
@[simp] theorem roundPhase_key (v : Bool) (s : State) : (roundPhase v s).key = s.key := rfl
@[simp] theorem roundPhase_busy (v : Bool) (s : State) : (roundPhase v s).busy = s.busy := rfl
@[simp] theorem roundPhase_done (v : Bool) (s : State) : (roundPhase v s).done = s.done := rfl
@[simp] theorem roundPhase_sv (v : Bool) (s : State) : (roundPhase v s).sv = s.sv := rfl
@[simp] theorem roundPhase_xv (v : Bool) (s : State) : (roundPhase v s).xv = s.xv := rfl
@[simp] theorem roundPhase_kv (v : Bool) (s : State) : (roundPhase v s).kv = s.kv := rfl
@[simp] theorem roundPhase_wrb (v : Bool) (s : State) : (roundPhase v s).wrb = s.wrb := rfl
@[simp] theorem roundPhase_err (v : Bool) (s : State) : (roundPhase v s).err = s.err := rfl
@[simp] theorem roundPhase_drc (v : Bool) (s : State) : (roundPhase v s).drc = s.drc + 1 := rfl
@[simp] theorem roundPhase_S (v : Bool) (s : State) : (roundPhase v s).S = s.S := rfl
@[simp] theorem roundPhase_X (v : Bool) (s : State) : (roundPhase v s).X = if v then DRlane s.X else DR s.X := rfl
@[simp] theorem roundPhase_KS (v : Bool) (s : State) : (roundPhase v s).KS = s.KS := rfl
@[simp] theorem roundPhase_slots (v : Bool) (s : State) : (roundPhase v s).slots = if v then s.slots.map fun sl => { sl with x := DRlane sl.x } else s.slots := rfl
@[simp] theorem roundPhase_sp (v : Bool) (s : State) : (roundPhase v s).sp = s.sp := rfl
@[simp] theorem roundPhase_dp (v : Bool) (s : State) : (roundPhase v s).dp = s.dp := rfl
@[simp] theorem roundPhase_rem (v : Bool) (s : State) : (roundPhase v s).rem = s.rem := rfl
@[simp] theorem roundPhase_ndr (v : Bool) (s : State) : (roundPhase v s).ndr = s.ndr := rfl
@[simp] theorem roundPhase_ksl (v : Bool) (s : State) : (roundPhase v s).ksl = s.ksl := rfl
@[simp] theorem roundPhase_venl (v : Bool) (s : State) : (roundPhase v s).venl = s.venl := rfl
@[simp] theorem roundPhase_op (v : Bool) (s : State) : (roundPhase v s).op = s.op := rfl
@[simp] theorem roundPhase_ph (v : Bool) (s : State) : (roundPhase v s).ph = s.ph := rfl
@[simp] theorem roundPhase_emitN (v : Bool) (s : State) : (roundPhase v s).emitN = s.emitN := rfl
@[simp] theorem roundPhase_mem (v : Bool) (s : State) : (roundPhase v s).mem = s.mem := rfl
@[simp] theorem roundPhase_fin (v : Bool) (s : State) : (roundPhase v s).fin = s.fin := rfl
@[simp] theorem roundPhase_accMem (v : Bool) (s : State) : (roundPhase v s).accMem = s.accMem := rfl
@[simp] theorem roundPhase_accKS (v : Bool) (s : State) : (roundPhase v s).accKS = s.accKS := rfl
@[simp] theorem roundPhase_races (v : Bool) (s : State) : (roundPhase v s).races = s.races := rfl
@[simp] theorem roundPhase_draw (v : Bool) (s : State) : (roundPhase v s).draw = s.draw := rfl
@[simp] theorem roundPhase_bus (v : Bool) (s : State) : (roundPhase v s).bus = s.bus := rfl
@[simp] theorem roundPhase_inbox (v : Bool) (s : State) : (roundPhase v s).inbox = s.inbox := rfl

/-! ### feedPhase -/

@[simp] theorem feedPhase_config (v : Bool) (s : State) : (feedPhase v s).config = s.config := rfl
@[simp] theorem feedPhase_cfg (v : Bool) (s : State) : (feedPhase v s).cfg = s.cfg := rfl
@[simp] theorem feedPhase_src (v : Bool) (s : State) : (feedPhase v s).src = s.src := rfl
@[simp] theorem feedPhase_dst (v : Bool) (s : State) : (feedPhase v s).dst = s.dst := rfl
@[simp] theorem feedPhase_len (v : Bool) (s : State) : (feedPhase v s).len = s.len := rfl
@[simp] theorem feedPhase_ctr0 (v : Bool) (s : State) : (feedPhase v s).ctr0 = s.ctr0 := rfl
@[simp] theorem feedPhase_ctr1 (v : Bool) (s : State) : (feedPhase v s).ctr1 = s.ctr1 := rfl
@[simp] theorem feedPhase_nonce0 (v : Bool) (s : State) : (feedPhase v s).nonce0 = s.nonce0 := rfl
@[simp] theorem feedPhase_nonce1 (v : Bool) (s : State) : (feedPhase v s).nonce1 = s.nonce1 := rfl
@[simp] theorem feedPhase_key (v : Bool) (s : State) : (feedPhase v s).key = s.key := rfl
@[simp] theorem feedPhase_busy (v : Bool) (s : State) : (feedPhase v s).busy = s.busy := rfl
@[simp] theorem feedPhase_done (v : Bool) (s : State) : (feedPhase v s).done = s.done := rfl
@[simp] theorem feedPhase_sv (v : Bool) (s : State) : (feedPhase v s).sv = s.sv := rfl
@[simp] theorem feedPhase_xv (v : Bool) (s : State) : (feedPhase v s).xv = false := rfl
@[simp] theorem feedPhase_kv (v : Bool) (s : State) : (feedPhase v s).kv = true := rfl
@[simp] theorem feedPhase_wrb (v : Bool) (s : State) : (feedPhase v s).wrb = s.wrb := rfl
@[simp] theorem feedPhase_err (v : Bool) (s : State) : (feedPhase v s).err = s.err := rfl
@[simp] theorem feedPhase_drc (v : Bool) (s : State) : (feedPhase v s).drc = 0 := rfl
@[simp] theorem feedPhase_S (v : Bool) (s : State) : (feedPhase v s).S = ctrIncBy s.config.ctrWidth s.S (passBlocks v s) := rfl
@[simp] theorem feedPhase_X (v : Bool) (s : State) : (feedPhase v s).X = feedForward s.X s.S := rfl
@[simp] theorem feedPhase_KS (v : Bool) (s : State) : (feedPhase v s).KS = ser (feedForward s.X s.S) := rfl
@[simp] theorem feedPhase_slots (v : Bool) (s : State) : (feedPhase v s).slots = if v then feedSlots s.config.ctrWidth s.S s.slots else s.slots := rfl
@[simp] theorem feedPhase_sp (v : Bool) (s : State) : (feedPhase v s).sp = s.sp := rfl
@[simp] theorem feedPhase_dp (v : Bool) (s : State) : (feedPhase v s).dp = s.dp := rfl
@[simp] theorem feedPhase_rem (v : Bool) (s : State) : (feedPhase v s).rem = s.rem := rfl
@[simp] theorem feedPhase_ndr (v : Bool) (s : State) : (feedPhase v s).ndr = s.ndr := rfl
@[simp] theorem feedPhase_ksl (v : Bool) (s : State) : (feedPhase v s).ksl = s.ksl := rfl
@[simp] theorem feedPhase_venl (v : Bool) (s : State) : (feedPhase v s).venl = s.venl := rfl
@[simp] theorem feedPhase_op (v : Bool) (s : State) : (feedPhase v s).op = s.op := rfl
@[simp] theorem feedPhase_ph (v : Bool) (s : State) : (feedPhase v s).ph = s.ph := rfl
@[simp] theorem feedPhase_emitN (v : Bool) (s : State) : (feedPhase v s).emitN = s.emitN := rfl
@[simp] theorem feedPhase_mem (v : Bool) (s : State) : (feedPhase v s).mem = s.mem := rfl
@[simp] theorem feedPhase_fin (v : Bool) (s : State) : (feedPhase v s).fin = s.fin := rfl
@[simp] theorem feedPhase_accMem (v : Bool) (s : State) : (feedPhase v s).accMem = s.accMem := rfl
@[simp] theorem feedPhase_accKS (v : Bool) (s : State) : (feedPhase v s).accKS = s.accKS := rfl
@[simp] theorem feedPhase_races (v : Bool) (s : State) : (feedPhase v s).races = s.races := rfl
@[simp] theorem feedPhase_draw (v : Bool) (s : State) : (feedPhase v s).draw = s.draw := rfl
@[simp] theorem feedPhase_bus (v : Bool) (s : State) : (feedPhase v s).bus = s.bus := rfl
@[simp] theorem feedPhase_inbox (v : Bool) (s : State) : (feedPhase v s).inbox = s.inbox := rfl

/-! ### emitPhase -/

@[simp] theorem emitPhase_config (n : Nat) (s : State) : (emitPhase n s).config = s.config := rfl
@[simp] theorem emitPhase_cfg (n : Nat) (s : State) : (emitPhase n s).cfg = s.cfg := rfl
@[simp] theorem emitPhase_src (n : Nat) (s : State) : (emitPhase n s).src = s.src := rfl
@[simp] theorem emitPhase_dst (n : Nat) (s : State) : (emitPhase n s).dst = s.dst := rfl
@[simp] theorem emitPhase_len (n : Nat) (s : State) : (emitPhase n s).len = s.len := rfl
@[simp] theorem emitPhase_ctr0 (n : Nat) (s : State) : (emitPhase n s).ctr0 = s.ctr0 := rfl
@[simp] theorem emitPhase_ctr1 (n : Nat) (s : State) : (emitPhase n s).ctr1 = s.ctr1 := rfl
@[simp] theorem emitPhase_nonce0 (n : Nat) (s : State) : (emitPhase n s).nonce0 = s.nonce0 := rfl
@[simp] theorem emitPhase_nonce1 (n : Nat) (s : State) : (emitPhase n s).nonce1 = s.nonce1 := rfl
@[simp] theorem emitPhase_key (n : Nat) (s : State) : (emitPhase n s).key = s.key := rfl
@[simp] theorem emitPhase_busy (n : Nat) (s : State) : (emitPhase n s).busy = s.busy := rfl
@[simp] theorem emitPhase_done (n : Nat) (s : State) : (emitPhase n s).done = s.done := rfl
@[simp] theorem emitPhase_sv (n : Nat) (s : State) : (emitPhase n s).sv = s.sv := rfl
@[simp] theorem emitPhase_xv (n : Nat) (s : State) : (emitPhase n s).xv = s.xv := rfl
@[simp] theorem emitPhase_kv (n : Nat) (s : State) : (emitPhase n s).kv = false := rfl
@[simp] theorem emitPhase_wrb (n : Nat) (s : State) : (emitPhase n s).wrb = s.wrb := rfl
@[simp] theorem emitPhase_err (n : Nat) (s : State) : (emitPhase n s).err = s.err := rfl
@[simp] theorem emitPhase_drc (n : Nat) (s : State) : (emitPhase n s).drc = s.drc := rfl
@[simp] theorem emitPhase_S (n : Nat) (s : State) : (emitPhase n s).S = s.S := rfl
@[simp] theorem emitPhase_X (n : Nat) (s : State) : (emitPhase n s).X = s.X := rfl
@[simp] theorem emitPhase_KS (n : Nat) (s : State) : (emitPhase n s).KS = s.KS := rfl
@[simp] theorem emitPhase_slots (n : Nat) (s : State) : (emitPhase n s).slots = s.slots := rfl
@[simp] theorem emitPhase_sp (n : Nat) (s : State) : (emitPhase n s).sp = BitVec.ofNat 32 (truncAddr s.config (s.sp.toNat + n)) := rfl
@[simp] theorem emitPhase_dp (n : Nat) (s : State) : (emitPhase n s).dp = BitVec.ofNat 32 (truncAddr s.config (s.dp.toNat + n)) := rfl
@[simp] theorem emitPhase_rem (n : Nat) (s : State) : (emitPhase n s).rem = s.rem - BitVec.ofNat 32 n := rfl
@[simp] theorem emitPhase_ndr (n : Nat) (s : State) : (emitPhase n s).ndr = s.ndr := rfl
@[simp] theorem emitPhase_ksl (n : Nat) (s : State) : (emitPhase n s).ksl = s.ksl := rfl
@[simp] theorem emitPhase_venl (n : Nat) (s : State) : (emitPhase n s).venl = s.venl := rfl
@[simp] theorem emitPhase_op (n : Nat) (s : State) : (emitPhase n s).op = s.op := rfl
@[simp] theorem emitPhase_ph (n : Nat) (s : State) : (emitPhase n s).ph = s.ph := rfl
@[simp] theorem emitPhase_emitN (n : Nat) (s : State) : (emitPhase n s).emitN = s.emitN := rfl
@[simp] theorem emitPhase_mem (n : Nat) (s : State) : (emitPhase n s).mem = moveBytes s.config s.ksl (s.readyBytes.take n) s.sp.toNat s.dp.toNat s.mem := rfl
@[simp] theorem emitPhase_fin (n : Nat) (s : State) : (emitPhase n s).fin = s.fin := rfl
@[simp] theorem emitPhase_accMem (n : Nat) (s : State) : (emitPhase n s).accMem = s.accMem := rfl
@[simp] theorem emitPhase_accKS (n : Nat) (s : State) : (emitPhase n s).accKS = s.accKS := rfl
@[simp] theorem emitPhase_races (n : Nat) (s : State) : (emitPhase n s).races = s.races := rfl
@[simp] theorem emitPhase_draw (n : Nat) (s : State) : (emitPhase n s).draw = s.draw := rfl
@[simp] theorem emitPhase_bus (n : Nat) (s : State) : (emitPhase n s).bus = s.bus := rfl
@[simp] theorem emitPhase_inbox (n : Nat) (s : State) : (emitPhase n s).inbox = s.inbox := rfl

/-! ### raise, for the failures found at the `CMD` write -/

theorem raise_check (s : State) (e : Err) (h : e ≠ .bus) : s.raise e = { s with err := e, done := false } := by
  cases e <;> first | rfl | exact absurd rfl h

end Sys2Proof.Machine
end

