-- ==== Sys2Proof/Laws/Memory.lean ====
section
/-! SUPPORT. What the memory operations do: one byte read after a write, the canonical form, `MemOK` over a
range, and the bytes an EMIT stage or an interrupted command leaves. -/

namespace Sys2Proof.Machine

/-! ### One byte -/

theorem Memory.above_trans {a b : Nat} {m : Memory} (hab : a < b) (h : Memory.above b m = true) :
    Memory.above a m = true := by
  cases m with
  | nil => rfl
  | cons e m =>
    simp only [Memory.above, decide_eq_true_eq] at h ⊢
    omega

theorem Memory.read_of_above {m : Memory} {a : Nat} (hw : Memory.wf m = true)
    (h : Memory.above a m = true) : Memory.read m a = Config.unwritten := by
  induction m with
  | nil => rfl
  | cons e m ih =>
    obtain ⟨b, w⟩ := e
    simp only [Memory.wf, Bool.and_eq_true, decide_eq_true_eq] at hw
    have hab : a < b := by simpa [Memory.above] using h
    have hne : b ≠ a := by omega
    simpa [Memory.read, hne] using ih hw.2 (Memory.above_trans hab hw.1.2)

theorem Memory.read_write_same {m : Memory} (a : Nat) (v : Byte) (hw : Memory.wf m = true) :
    Memory.read (Memory.write m a v) a = v := by
  induction m with
  | nil => by_cases h : v = Config.unwritten <;> simp [Memory.write, Memory.read, h]
  | cons e m ih =>
    obtain ⟨b, w⟩ := e
    have hw' := hw
    simp only [Memory.wf, Bool.and_eq_true, decide_eq_true_eq] at hw'
    simp only [Memory.write]
    split
    · rename_i hab
      split
      · subst v
        exact Memory.read_of_above hw (by simpa [Memory.above] using hab)
      · simp [Memory.read]
    · split
      · rename_i hab
        subst hab
        split
        · subst v
          exact Memory.read_of_above hw'.2 hw'.1.2
        · simp [Memory.read]
      · rename_i hne
        simpa [Memory.read, Ne.symm hne] using ih hw'.2

theorem Memory.read_write_other (m : Memory) {a c : Nat} (v : Byte) (h : c ≠ a) :
    Memory.read (Memory.write m a v) c = Memory.read m c := by
  induction m with
  | nil => by_cases hv : v = Config.unwritten <;> simp [Memory.write, Memory.read, hv, Ne.symm h]
  | cons e m ih =>
    obtain ⟨b, w⟩ := e
    simp only [Memory.write]
    split
    · split
      · rfl
      · simp [Memory.read, Ne.symm h]
    · split
      · rename_i hab
        subst hab
        split <;> simp [Memory.read, Ne.symm h]
      · simp only [Memory.read]
        split
        · rfl
        · exact ih

theorem Memory.above_write {m : Memory} {a b : Nat} {v : Byte} (hab : b < a)
    (h : Memory.above b m = true) (hw : Memory.wf m = true) : Memory.above b (Memory.write m a v) = true := by
  cases m with
  | nil => by_cases hv : v = Config.unwritten <;> simp [Memory.write, Memory.above, hv, hab]
  | cons e m =>
    obtain ⟨c, w⟩ := e
    have hbc : b < c := by simpa [Memory.above] using h
    simp only [Memory.wf, Bool.and_eq_true, decide_eq_true_eq] at hw
    simp only [Memory.write]
    split
    · split <;> simp [Memory.above, hbc, hab]
    · split
      · split
        · exact Memory.above_trans hbc hw.1.2
        · simp [Memory.above, hab]
      · simp [Memory.above, hbc]

/-- A write keeps the canonical form. -/
theorem Memory.wf_write {m : Memory} (a : Nat) (v : Byte) (hw : Memory.wf m = true) :
    Memory.wf (Memory.write m a v) = true := by
  induction m with
  | nil => by_cases hv : v = Config.unwritten <;> simp [Memory.write, Memory.wf, Memory.above, hv]
  | cons e m ih =>
    obtain ⟨b, w⟩ := e
    have hw' := hw
    simp only [Memory.wf, Bool.and_eq_true, decide_eq_true_eq] at hw'
    simp only [Memory.write]
    split
    · rename_i hab
      split
      · exact hw
      · rename_i hv
        have habove : Memory.above a ((b, w) :: m) = true := by simpa [Memory.above] using hab
        simpa [Memory.wf, hv, habove] using hw
    · split
      · rename_i hab
        subst hab
        split
        · exact hw'.2
        · rename_i hv
          simp [Memory.wf, hv, hw'.1.2, hw'.2]
      · rename_i h1 h2
        have hba : b < a := by omega
        simp [Memory.wf, hw'.1.1, Memory.above_write hba hw'.1.2 hw'.2, ih hw'.2]

/-! ### Addresses -/

theorem truncAddr_of_lt {c : Config} {v : Nat} (h : v < 2 ^ c.aw) : truncAddr c v = v := Nat.mod_eq_of_lt h

theorem truncAddr_add_truncAddr (c : Config) (v i : Nat) : truncAddr c (truncAddr c v + i) = truncAddr c (v + i) := by
  simp [truncAddr]

theorem memOK_lt {c : Config} {a : Nat} (h : memOK c a = true) : a < 2 ^ c.aw := by
  simp only [memOK, Bool.and_eq_true, decide_eq_true_eq] at h
  exact h.1

/-- `rangeOK` says that `MemOK` admits each access. -/
theorem rangeOK_iff (c : Config) (ksl : Bool) (sp dp n : Nat) :
    rangeOK c ksl sp dp n = true ↔
      ∀ i, i < n → memOK c (truncAddr c (dp + i)) = true ∧ (ksl = true ∨ memOK c (truncAddr c (sp + i)) = true) := by
  induction n with
  | zero => simp [rangeOK]
  | succ n ih =>
    simp only [rangeOK, Bool.and_eq_true, Bool.or_eq_true, ih]
    constructor
    · rintro ⟨⟨h, hd⟩, hs⟩ i hi
      rcases Nat.lt_succ_iff_lt_or_eq.mp hi with hlt | rfl
      · exact h i hlt
      · exact ⟨hd, hs⟩
    · intro h
      exact ⟨⟨fun i hi => h i (Nat.lt_succ_of_lt hi), (h n n.lt_succ_self).1⟩, (h n n.lt_succ_self).2⟩

/-! ### The movement of an EMIT stage -/

theorem wf_moveBytes (c : Config) (ksl : Bool) (ks : List Byte) (sp dp : Nat) {m : Memory}
    (hw : Memory.wf m = true) : Memory.wf (moveBytes c ksl ks sp dp m) = true := by
  induction ks generalizing sp dp m with
  | nil => exact hw
  | cons k ks ih => exact ih _ _ (Memory.wf_write _ _ hw)

/-- Bytes that are not in the output range are unchanged. -/
theorem read_moveBytes_other (c : Config) (ksl : Bool) (ks : List Byte) (sp dp : Nat) (m : Memory) {a : Nat}
    (h : ∀ i, i < ks.length → a ≠ truncAddr c (dp + i)) :
    Memory.read (moveBytes c ksl ks sp dp m) a = Memory.read m a := by
  induction ks generalizing sp dp m with
  | nil => rfl
  | cons k ks ih =>
    have h0 : a ≠ truncAddr c dp := h 0 (Nat.succ_pos _)
    have hs : ∀ i, i < ks.length → a ≠ truncAddr c (dp + 1 + i) := fun i hi => by
      simpa [Nat.add_comm, Nat.add_left_comm] using h (i + 1) (Nat.succ_lt_succ hi)
    rw [moveBytes, ih _ _ _ hs, Memory.read_write_other _ _ h0]

/-- Output byte `i` is input byte `i` XOR keystream byte `i`, for the two legal buffer arrangements. -/
theorem read_moveBytes (c : Config) (ksl : Bool) (ks : List Byte) (sp dp : Nat) (m : Memory)
    (hw : Memory.wf m = true) (hd : dp + ks.length ≤ 2 ^ c.aw)
    (hs : ksl = false → sp + ks.length ≤ 2 ^ c.aw ∧ (sp = dp ∨ sp + ks.length ≤ dp ∨ dp + ks.length ≤ sp))
    (i : Nat) (hi : i < ks.length) :
    Memory.read (moveBytes c ksl ks sp dp m) (dp + i) =
      (if ksl then 0x00 else Memory.read m (sp + i)) ^^^ ks[i] := by
  induction ks generalizing sp dp m i with
  | nil => exact absurd hi (Nat.not_lt_zero _)
  | cons k ks ih =>
    rw [List.length_cons] at hd hs hi
    have hdp : truncAddr c dp = dp := truncAddr_of_lt (by omega)
    rw [moveBytes, hdp]
    cases i with
    | zero =>
      have hne : ∀ j, j < ks.length → dp + 0 ≠ truncAddr c (dp + 1 + j) := fun j hj => by
        rw [truncAddr_of_lt (by omega)]
        omega
      rw [read_moveBytes_other _ _ _ _ _ _ hne, Nat.add_zero, Memory.read_write_same _ _ hw]
      cases ksl with
      | true => rfl
      | false =>
        have := hs rfl
        simp [truncAddr_of_lt (c := c) (v := sp) (by omega)]
    | succ i =>
      have key := ih (sp + 1) (dp + 1) (Memory.write m dp ((if ksl then 0x00 else Memory.read m (truncAddr c sp)) ^^^ k))
        (Memory.wf_write _ _ hw) (by omega) (fun hk => by have := hs hk; omega) i (by omega)
      have e1 : dp + (i + 1) = dp + 1 + i := by omega
      rw [e1, key]
      cases ksl with
      | true => simp
      | false =>
        have := hs rfl
        have hne : sp + 1 + i ≠ dp := by omega
        have e2 : sp + (i + 1) = sp + 1 + i := by omega
        simp [Memory.read_write_other _ _ hne, e2]

/-- A movement in two parts. -/
theorem moveBytes_append (c : Config) (ksl : Bool) (k1 k2 : List Byte) (sp dp : Nat) (m : Memory) :
    moveBytes c ksl (k1 ++ k2) sp dp m =
      moveBytes c ksl k2 (sp + k1.length) (dp + k1.length) (moveBytes c ksl k1 sp dp m) := by
  induction k1 generalizing sp dp m with
  | nil => rfl
  | cons k k1 ih => simp [moveBytes, ih, Nat.add_assoc, Nat.add_comm 1]

theorem moveBytes_truncAddr (c : Config) (ksl : Bool) (ks : List Byte) {sp sp' dp dp' : Nat} (m : Memory)
    (hs : truncAddr c sp = truncAddr c sp') (hd : truncAddr c dp = truncAddr c dp') :
    moveBytes c ksl ks sp dp m = moveBytes c ksl ks sp' dp' m := by
  induction ks generalizing sp sp' dp dp' m with
  | nil => rfl
  | cons k ks ih =>
    rw [moveBytes, moveBytes, hs, hd]
    refine ih _ ?_ ?_
    · rw [← truncAddr_add_truncAddr c sp, hs, truncAddr_add_truncAddr]
    · rw [← truncAddr_add_truncAddr c dp, hd, truncAddr_add_truncAddr]

/-! ### Memory after an interrupted command -/

theorem wf_settleBytes (c : Config) (draw : Nat) (new : Nat → Option Byte) (old : Memory) (dst n : Nat)
    {m : Memory} (hw : Memory.wf m = true) : Memory.wf (settleBytes c draw new old dst n m) = true := by
  induction n with
  | zero => exact hw
  | succ n ih => exact Memory.wf_write _ _ ih

theorem read_settleBytes_other (c : Config) (draw : Nat) (new : Nat → Option Byte) (old : Memory) (dst n : Nat)
    (m : Memory) {a : Nat} (h : ∀ i, i < n → a ≠ truncAddr c (dst + i)) :
    Memory.read (settleBytes c draw new old dst n m) a = Memory.read m a := by
  induction n with
  | zero => rfl
  | succ n ih =>
    rw [settleBytes, Memory.read_write_other _ _ (h n n.lt_succ_self)]
    exact ih fun i hi => h i (Nat.lt_succ_of_lt hi)

/-- Each byte of the range is old or new, when the addresses are distinct. -/
theorem read_settleBytes (c : Config) (draw : Nat) (new : Nat → Option Byte) (old : Memory) (dst n : Nat)
    (m : Memory) (hw : Memory.wf m = true) (hinj : ∀ i j, i < n → j < n → truncAddr c (dst + i) = truncAddr c (dst + j) → i = j)
    (i : Nat) (hi : i < n) :
    let a := truncAddr c (dst + i)
    Memory.read (settleBytes c draw new old dst n m) a = Memory.read old a ∨
      some (Memory.read (settleBytes c draw new old dst n m) a) = new i := by
  induction n with
  | zero => exact absurd hi (Nat.not_lt_zero _)
  | succ n ih =>
    intro a
    rcases Nat.lt_succ_iff_lt_or_eq.mp hi with hlt | rfl
    · have hne : a ≠ truncAddr c (dst + n) := fun h => by
        have := hinj i n hi n.lt_succ_self h
        omega
      rw [settleBytes, Memory.read_write_other _ _ hne]
      exact ih (fun i j h1 h2 => hinj i j (Nat.lt_succ_of_lt h1) (Nat.lt_succ_of_lt h2)) hlt
    · rw [settleBytes, Memory.read_write_same _ _ (wf_settleBytes _ _ _ _ _ _ hw)]
      split
      · cases hn : new i with
        | none => exact Or.inl rfl
        | some v => exact Or.inr rfl
      · exact Or.inl rfl

/-! ### Races -/

/-- The engine uses the byte from before the command, or one another agent wrote at that address. -/
theorem seenByte_cases (a : Nat) (old : Byte) (l : List Race) :
    seenByte a old l = old ∨ ∃ r ∈ l, r.addr = a ∧ seenByte a old l = r.value := by
  induction l with
  | nil => exact Or.inl rfl
  | cons r l ih =>
    rw [seenByte]
    split
    · rename_i h
      exact Or.inr ⟨r, by simp, h.1, rfl⟩
    · rcases ih with h | ⟨q, hq, ha, h⟩
      · exact Or.inl h
      · exact Or.inr ⟨q, by simp [hq], ha, h⟩

/-- An address that no other agent wrote has only its byte from before the command. -/
theorem seenByte_of_not_raced {a : Nat} {l : List Race} (old : Byte) (h : ∀ r ∈ l, r.addr ≠ a) :
    seenByte a old l = old := by
  rcases seenByte_cases a old l with h' | ⟨r, hr, ha, -⟩
  · exact h'
  · exact absurd ha (h r hr)

theorem bufferIndex_lt (c : Config) (base a : Nat) : bufferIndex c base a < 2 ^ c.aw :=
  Nat.mod_lt _ (Nat.two_pow_pos _)

/-- The index of the byte `i` places on from `base` is `i`. -/
theorem bufferIndex_truncAddr (c : Config) {base i : Nat} (hb : base < 2 ^ c.aw) (hi : i < 2 ^ c.aw) :
    bufferIndex c base (truncAddr c (base + i)) = i := by
  unfold bufferIndex truncAddr
  have h := Nat.mod_lt (base + i) (Nat.two_pow_pos c.aw)
  rcases Nat.lt_or_ge (base + i) (2 ^ c.aw) with hlt | hge
  · rw [Nat.mod_eq_of_lt hlt, show base + i + 2 ^ c.aw - base = i + 2 ^ c.aw by omega, Nat.add_mod_right,
      Nat.mod_eq_of_lt hi]
  · have e : (base + i) % 2 ^ c.aw = base + i - 2 ^ c.aw := by
      rw [Nat.mod_eq_sub_mod hge, Nat.mod_eq_of_lt (by omega)]
    rw [e, show base + i - 2 ^ c.aw + 2 ^ c.aw - base = i by omega, Nat.mod_eq_of_lt hi]

/-- An address of the address space is the one at its index. -/
theorem truncAddr_bufferIndex (c : Config) {base a : Nat} (hb : base < 2 ^ c.aw) (ha : a < 2 ^ c.aw) :
    truncAddr c (base + bufferIndex c base a) = a := by
  unfold bufferIndex truncAddr
  rw [Nat.add_mod_mod, show base + (a + 2 ^ c.aw - base) = a + 2 ^ c.aw by omega, Nat.add_mod_right,
    Nat.mod_eq_of_lt ha]

end Sys2Proof.Machine
end

