-- ==== Sys2Proof/Laws/Ops.lean ====
section
/-! SUPPORT. What the shared operations and the step do, once each, for the provers to cite. -/

namespace Sys2Proof.Machine

/-! ### Commands -/

/-- On a busy engine a command's meaning is its effect. -/
theorem runCommand_busy {i : Instr} {check : State → Err} {effect : State → State} {s : State}
    (h : s.busy = true) : runCommand i check effect s = .next (effect s) := by
  simp [runCommand, h]

/-- On an engine that is not busy a command whose checks pass is accepted. -/
theorem runCommand_accept {i : Instr} {check : State → Err} {effect : State → State} {s : State}
    (h : s.busy = false) (hc : check s = .none) : runCommand i check effect s = .next (s.accept i) := by
  simp [runCommand, h, hc]

/-- A check that fails is raised. -/
theorem runCommand_raise {i : Instr} {check : State → Err} {effect : State → State} {s : State}
    (h : s.busy = false) (hc : check s ≠ .none) :
    runCommand i check effect s = .next (s.raise (check s)) := by
  cases hs : check s <;> simp_all [runCommand]

/-- The check and the effect of each command. -/
def commandCheck : Instr → State → Err
  | .nop => fun _ => .none
  | .init | .process => callCheck
  | .loadx | .block => baseCheck
  | .dround => droundCheck
  | .feed => feedCheck
  | .emit n => emitCheck n

/-- See `commandCheck`. -/
def commandEffect : Instr → State → State
  | .nop => fun s => s.finish .idle
  | .init => fun s => (initPhase s).finish .initp
  | .loadx => fun s => (loadPhase false s).finish .loadp
  | .dround => fun s => (roundPhase false s).finish .roundp
  | .feed => fun s => (feedPhase false s).finish .feedp
  | .emit n => emitEffect n
  | .block => fun s => (blockPass false s).finish .feedp
  | .process => processEffect

theorem exec_eq_runCommand (i : Instr) (s : State) :
    exec i s = runCommand i (commandCheck i) (commandEffect i) s := by
  cases i <;> rfl

/-- Everything `exec` can do: it performs the effect, or accepts, or raises a failing check. -/
theorem exec_cases (i : Instr) (s : State) :
    (s.busy = true ∧ exec i s = .next (commandEffect i s)) ∨
    (s.busy = false ∧ commandCheck i s = .none ∧ exec i s = .next (s.accept i)) ∨
    (s.busy = false ∧ commandCheck i s ≠ .none ∧ exec i s = .next (s.raise (commandCheck i s))) := by
  rw [exec_eq_runCommand]
  cases hb : s.busy with
  | true => exact Or.inl ⟨rfl, runCommand_busy hb⟩
  | false =>
    by_cases hc : commandCheck i s = .none
    · exact Or.inr (Or.inl ⟨rfl, hc, runCommand_accept hb hc⟩)
    · exact Or.inr (Or.inr ⟨rfl, hc, runCommand_raise hb hc⟩)

/-- No command stops the machine. -/
theorem exec_next (i : Instr) (s : State) : ∃ t, exec i s = .next t := by
  rcases exec_cases i s with ⟨_, h⟩ | ⟨_, _, h⟩ | ⟨_, _, h⟩ <;> exact ⟨_, h⟩

/-- No acceptance check answers BUS. -/
theorem commandCheck_ne_bus (i : Instr) (s : State) : commandCheck i s ≠ .bus := by
  cases i <;>
    simp only [commandCheck, callCheck, baseCheck, droundCheck, feedCheck, emitCheck, ne_eq] <;>
    (repeat' split) <;> simp

/-- A check that fails changes `ERR` and `DONE` only (60_exceptions.md R150). -/
theorem exec_raise_eq {i : Instr} {s : State} (hb : s.busy = false) (hc : commandCheck i s ≠ .none) :
    exec i s = .next { s with err := commandCheck i s, done := false } := by
  rw [exec_eq_runCommand, runCommand_raise hb hc, raise_check _ _ (commandCheck_ne_bus i s)]

/-! ### The command in progress -/

theorem formatZ_opcode {i : Instr} (h : ∀ n, i ≠ .emit n) : formatZ i.opcode = some i := by
  cases i <;> first | rfl | exact absurd rfl (h _)

/-- With command `i` accepted, `current` is `i`. -/
theorem current_of_inProgress {i : Instr} {s : State} (h : InProgress i s) : s.current = some i := by
  obtain ⟨hb, -, hop, -, hn⟩ := h
  cases i <;> simp [State.current, hb, hop, hn, Instr.opcode, formatZ, byteCount]

theorem current_of_not_busy {s : State} (h : s.busy = false) : s.current = none := by
  simp [State.current, h]

theorem busy_of_current {s : State} {i : Instr} (h : s.current = some i) : s.busy = true := by
  cases hb : s.busy with
  | true => rfl
  | false => rw [current_of_not_busy hb] at h; cases h

/-- An engine that is not busy has no footprint. -/
theorem footprint_of_not_busy {s : State} (h : s.busy = false) : s.footprint = ⟨true, 0, 0, 0⟩ := by
  simp [State.footprint, current_of_not_busy h]

/-! ### Races -/

theorem wf_raceInputs (s : State) (l : List Race) {m : Memory} (hw : Memory.wf m = true) :
    Memory.wf (s.raceInputs l m) = true := by
  induction l with
  | nil => exact hw
  | cons r l ih =>
    simp only [State.raceInputs]
    split
    · split
      · exact Memory.wf_write _ _ ih
      · exact ih
    · exact ih

theorem wf_raceOutputs (s : State) (l : List Race) {m : Memory} (hw : Memory.wf m = true) :
    Memory.wf (s.raceOutputs l m) = true := by
  induction l with
  | nil => exact hw
  | cons r l ih =>
    simp only [State.raceOutputs]
    split
    · exact Memory.wf_write _ _ ih
    · exact ih

/-- A byte changes only if it is an output byte that another agent wrote. -/
theorem read_raceOutputs_other (s : State) {l : List Race} (m : Memory) {a : Nat}
    (h : s.ownsOutput a = false ∨ ∀ r ∈ l, r.addr ≠ a) : Memory.read (s.raceOutputs l m) a = Memory.read m a := by
  induction l with
  | nil => rfl
  | cons r l ih =>
    have ih' := ih (h.imp_right fun h q hq => h q (List.mem_cons_of_mem _ hq))
    simp only [State.raceOutputs]
    split
    · rename_i ho
      have hne : a ≠ r.addr := by
        rintro rfl
        rcases h with h | h
        · rw [ho] at h; cases h
        · exact h r (List.mem_cons_self ..) rfl
      rw [Memory.read_write_other _ _ hne, ih']
    · exact ih'

/-- A byte changes only if it is the output byte of an input byte that another agent wrote. -/
theorem read_raceInputs_other (s : State) {l : List Race} (m : Memory) {a : Nat}
    (h : ∀ r ∈ l, s.ownsInput r.addr = true →
      a ≠ truncAddr s.config (s.footprint.dst + bufferIndex s.config s.footprint.src r.addr)) :
    Memory.read (s.raceInputs l m) a = Memory.read m a := by
  induction l with
  | nil => rfl
  | cons r l ih =>
    have ih' := ih fun q hq => h q (List.mem_cons_of_mem _ hq)
    simp only [State.raceInputs]
    split
    · rename_i ho
      split
      · rw [Memory.read_write_other _ _ (h r (List.mem_cons_self ..) ho), ih']
      · exact ih'
    · exact ih'

/-- The output byte of an input byte that another agent wrote holds the completed command's value, when the
indices that meet at its address are alike. -/
theorem read_raceInputs (s : State) {l : List Race} {m : Memory} {i : Nat} {v : Byte} (hw : Memory.wf m = true)
    (hv : s.newByte i = some v)
    (hinj : ∀ r ∈ l, s.ownsInput r.addr = true →
      truncAddr s.config (s.footprint.dst + bufferIndex s.config s.footprint.src r.addr) =
        truncAddr s.config (s.footprint.dst + i) → bufferIndex s.config s.footprint.src r.addr = i)
    (h : ∃ r ∈ l, s.ownsInput r.addr = true ∧ bufferIndex s.config s.footprint.src r.addr = i) :
    Memory.read (s.raceInputs l m) (truncAddr s.config (s.footprint.dst + i)) = v := by
  induction l with
  | nil => obtain ⟨r, hr, -⟩ := h; cases hr
  | cons r l ih =>
    have ih' := ih fun q hq => hinj q (List.mem_cons_of_mem _ hq)
    simp only [State.raceInputs]
    by_cases ho : s.ownsInput r.addr = true
    · rw [if_pos ho]
      by_cases hi : bufferIndex s.config s.footprint.src r.addr = i
      · rw [hi, hv]
        exact Memory.read_write_same _ _ (wf_raceInputs s l hw)
      · have hne : truncAddr s.config (s.footprint.dst + i) ≠
            truncAddr s.config (s.footprint.dst + bufferIndex s.config s.footprint.src r.addr) := fun e =>
          hi (hinj r (List.mem_cons_self ..) ho e.symm)
        have hl := ih' (by
          obtain ⟨q, hq, hqo, hqi⟩ := h
          rcases List.mem_cons.mp hq with rfl | hq
          · exact absurd hqi hi
          · exact ⟨q, hq, hqo, hqi⟩)
        split
        · rw [Memory.read_write_other _ _ hne, hl]
        · exact hl
    · rw [if_neg ho]
      refine ih' ?_
      obtain ⟨q, hq, hqo, hqi⟩ := h
      rcases List.mem_cons.mp hq with rfl | hq
      · exact absurd hqo ho
      · exact ⟨q, hq, hqo, hqi⟩

/-- Without a race the memory at completion is the one the effect left. -/
theorem completed_of_no_races {s : State} (h : s.races = []) : s.completed = s.mem := by
  simp [State.completed, h, State.raceInputs, State.raceOutputs]

theorem wf_completed {s : State} (h : Memory.wf s.mem = true) : Memory.wf s.completed = true :=
  wf_raceOutputs s _ (wf_raceInputs s _ h)

theorem wf_settled {s : State} (h : Memory.wf s.mem = true) : Memory.wf s.settled = true :=
  wf_raceOutputs s _ (wf_settleBytes _ _ _ _ _ _ h)

/-- Without a command in progress nothing is settled. -/
theorem settled_of_not_busy {s : State} (h : s.busy = false) : s.settled = s.mem := by
  have hf := footprint_of_not_busy h
  have ho : ∀ a, s.ownsOutput a = false := fun a => by simp [State.ownsOutput, inBuffer, hf]
  have hr : ∀ l m, s.raceOutputs l m = m := by
    intro l m
    induction l with
    | nil => rfl
    | cons r l ih => simp [State.raceOutputs, ho, ih]
  rw [State.settled, hr, hf, settleBytes]

/-! ### The stages -/

theorem loadSlots_length (w : CtrWidth) (m : Matrix) (l : List Slot) : (loadSlots w m l).length = l.length := by
  induction l generalizing m with
  | nil => rfl
  | cons sl l ih => simp [loadSlots, ih]

theorem feedSlots_length (w : CtrWidth) (m : Matrix) (l : List Slot) : (feedSlots w m l).length = l.length := by
  induction l generalizing m with
  | nil => rfl
  | cons sl l ih => simp [feedSlots, ih]

theorem ctrIncBy_ctrInc (w : CtrWidth) (m : Matrix) (k : Nat) : ctrIncBy w (ctrInc w m) k = ctrIncBy w m (k + 1) := by
  induction k with
  | zero => rfl
  | succ k ih => rw [ctrIncBy, ih, ← ctrIncBy]

theorem ctrIncBy_add (w : CtrWidth) (m : Matrix) (j k : Nat) :
    ctrIncBy w (ctrIncBy w m j) k = ctrIncBy w m (j + k) := by
  induction k with
  | zero => rfl
  | succ k ih => rw [ctrIncBy, ih, ← Nat.add_assoc, ← ctrIncBy]

theorem rounds_DR (m : Matrix) (k : Nat) : rounds (DR m) k = DR (rounds m k) := by
  induction k with
  | zero => rfl
  | succ k ih => rw [rounds, ih, ← rounds]

/-- What `k` double-rounds of a scalar pass do. -/
theorem roundPhases_false (k : Nat) (s : State) :
    roundPhases false k s = { s with X := rounds s.X k, drc := s.drc + BitVec.ofNat 5 k } := by
  induction k generalizing s with
  | zero => simp [roundPhases, rounds]
  | succ k ih =>
    have hd : s.drc + 1#5 + BitVec.ofNat 5 k = s.drc + BitVec.ofNat 5 (k + 1) := by
      rw [BitVec.add_assoc, ← BitVec.ofNat_add, Nat.add_comm]
    simp [roundPhases, ih, roundPhase, rounds_DR, rounds, hd]

/-- One scalar pass: the block of the counter value in `S`, and the counter advanced. -/
theorem blockPass_false (s : State) :
    blockPass false s = { s with
      X := feedForward (rounds s.S s.ndr.toNat) s.S
      KS := blockBytes s.S s.ndr.toNat
      S := ctrInc s.config.ctrWidth s.S
      xv := false, drc := 0, kv := true } := by
  simp [blockPass, roundPhases_false, loadPhase, feedPhase, passBlocks, ctrIncBy, blockBytes]

/-- Everything the double-rounds of a pass change, in either path. -/
theorem roundPhases_frame (vec : Bool) (k : Nat) (s : State) :
    ∃ x sl d, roundPhases vec k s = { s with X := x, slots := sl, drc := d } := by
  induction k generalizing s with
  | zero => exact ⟨_, _, _, rfl⟩
  | succ k ih =>
    obtain ⟨x, sl, d, h⟩ := ih (roundPhase vec s)
    exact ⟨x, sl, d, h⟩

/-- Everything a pass changes, in either path: the block values, the counter, and the flags FEED writes. -/
theorem blockPass_frame (vec : Bool) (s : State) :
    ∃ x ks sl, blockPass vec s = { s with
      X := x
      KS := ks
      slots := sl
      S := ctrIncBy s.config.ctrWidth s.S (passBlocks vec s)
      xv := false, drc := 0, kv := true } := by
  obtain ⟨x, sl, d, h⟩ := roundPhases_frame vec s.ndr.toNat (loadPhase vec s)
  rw [blockPass, h]
  exact ⟨_, _, _, rfl⟩

/-- The induction over the passes of PROCESS: what a pass keeps holds at the end, and the end is either the
completed effect or the BUS error of the pass whose access is refused. -/
theorem processPasses_cases (P : State → Prop)
    (pass : ∀ s, P s → s.rem ≠ 0 → (blockPass s.vectorPass s).emitOK s.passBytes = true →
      P { emitPhase s.passBytes (blockPass s.vectorPass s) with ph := .emitp })
    (fuel : Nat) (s : State) (h : P s) :
    (∃ u, P u ∧ processPasses fuel s = { u with fin := true }) ∨
    (∃ u, P u ∧ u.rem ≠ 0 ∧ (blockPass u.vectorPass u).emitOK u.passBytes = false ∧
      processPasses fuel s = (blockPass u.vectorPass u).raise .bus) := by
  induction fuel generalizing s with
  | zero => exact Or.inl ⟨s, h, rfl⟩
  | succ fuel ih =>
    rw [processPasses]
    split
    · exact Or.inl ⟨s, h, rfl⟩
    · rename_i hr
      cases hok : (blockPass s.vectorPass s).emitOK s.passBytes with
      | true =>
        simp only [hok, if_true]
        exact ih _ (pass s h hr hok)
      | false =>
        simp only [hok, Bool.false_eq_true, if_false]
        exact Or.inr ⟨s, h, hr, hok, rfl⟩

/-! ### The host's bus and the step -/

/-- An aligned 32-bit access of the block selects its offset. -/
theorem select_at (c : Config) {off : Nat} (h : off < 256) (ha : off % 4 = 0) :
    select c (c.base + off) 4 = .at off := by
  have h1 : ¬(c.base + 256 ≤ c.base + off ∨ c.base + off + 4 ≤ c.base) := by omega
  have h2 : c.base ≤ c.base + off ∧ (4 : Nat) = 4 ∧ (c.base + off - c.base) % 4 = 0 := by
    refine ⟨by omega, rfl, ?_⟩
    rw [Nat.add_sub_cancel_left]
    exact ha
  unfold select
  rw [if_neg h1, if_pos h2, Nat.add_sub_cancel_left]

/-- The next event is what the step handles. -/
theorem step_facing (s : State) (e : Event) : step (s.facing e) = handle e s := rfl

theorem step_withInbox_nil (s : State) : step (s.withInbox []) = engineTurn .whole (s.withInbox []) := rfl

/-- An access of the block of another size or alignment is refused. -/
theorem select_busError (c : Config) {off size : Nat} (h : off < 256) (h0 : 0 < size)
    (ha : size ≠ 4 ∨ off % 4 ≠ 0) : select c (c.base + off) size = .busError := by
  unfold select
  rw [if_neg (by omega), if_neg]
  rw [Nat.add_sub_cancel_left]
  omega

/-- Every way another agent's write can end. -/
theorem memWrite_cases (a : Nat) (v : Byte) (s : State) :
    (memOK s.config a = false ∧ memWrite a v s = { s with bus := .busError }) ∨
    (memOK s.config a = true ∧ (s.ownsOutput a = true ∨ s.ownsInput a = true) ∧
      memWrite a v s = { s with
        mem := Memory.write s.mem a v, races := ⟨a, v, s.draw⟩ :: s.races, draw := s.draw + 1, bus := .ack }) ∨
    (memOK s.config a = true ∧ s.ownsOutput a = false ∧ s.ownsInput a = false ∧
      memWrite a v s = { s with mem := Memory.write s.mem a v, bus := .ack }) := by
  unfold memWrite
  cases memOK s.config a <;> cases s.ownsOutput a <;> cases s.ownsInput a <;> simp

/-- Every way another agent's read can end. -/
theorem memRead_cases (a : Nat) (s : State) :
    (memOK s.config a = false ∧ memRead a s = { s with bus := .busError }) ∨
    (memOK s.config a = true ∧ s.ownsOutput a = true ∧
      memRead a s = { s with bus := .byte (s.windowByte a), draw := s.draw + 1 }) ∨
    (memOK s.config a = true ∧ s.ownsOutput a = false ∧
      memRead a s = { s with bus := .byte (Memory.read s.mem a) }) := by
  unfold memRead
  cases memOK s.config a <;> cases s.ownsOutput a <;> simp

/-- Bit 0 of `STATUS` is `BUSY`. -/
theorem pollDone_statusWord (s : State) : pollDone (statusWord s) = !s.busy := by
  simp only [pollDone, statusWord, BitVec.getLsbD_append]
  cases s.busy <;> rfl

/-- Both ways a poll of the host's wait can end. -/
theorem hostWait_cases (g : Grain) (s : State) :
    (s.busy = false ∧ hostWait g s = { s with bus := .word (statusWord s) }) ∨
    (s.busy = true ∧ hostWait g s = { s with
      bus := .word (statusWord s), inbox := .engine g :: .hostWait g :: s.inbox }) := by
  unfold hostWait readReg
  rw [pollDone_statusWord]
  cases s.busy <;> simp

/-- A host write at an offset of the block. -/
theorem handle_wrEvent (s : State) {off : Nat} (data : Word) (h : off < 256) (ha : off % 4 = 0) :
    handle (wrEvent s.config off data) s = writeAt off data { s with bus := .ack } := by
  simp only [handle, hostWrite, select_at s.config h ha]

/-- A host read at an offset of the block. -/
theorem handle_rdEvent (s : State) {off : Nat} (h : off < 256) (ha : off % 4 = 0) :
    handle (rdEvent s.config off) s = .next { s with bus := .word (readReg s (regAt off)) } := by
  simp only [handle, hostRead, select_at s.config h ha]

/-- A `STATUS` write with bit 31 alone is the acknowledge. -/
theorem writeStatus_acknowledge (s : State) : writeStatus 0x80000000 s = s.acknowledge := by
  simp [writeStatus, State.acknowledge]

/-- A `CMD` write reaches `Dispatch` on an engine that is not busy. -/
theorem handle_cmdWrite (s : State) (w : Word) (h : s.busy = false) :
    handle (cmdWrite s.config w) s = dispatchWord w { s with bus := .ack } := by
  show handle (wrEvent s.config 0 w) s = _
  rw [handle_wrEvent s w (by decide) rfl]
  simp [writeAt, regAt, h]

/-- Everything a step that answers a next state can do: the engine's turn, or one event. -/
theorem step_cases {s t : State} (h : step s = .next t) :
    (s.inbox = [] ∧ engineTurn .whole s = .next t) ∨
    (∃ e rest, s.inbox = e :: rest ∧ handle e { s with inbox := rest } = .next t) := by
  simp only [step, nextMove] at h
  split at h
  · exact Or.inl ⟨by assumption, h⟩
  · rename_i e rest hin
    exact Or.inr ⟨e, rest, hin, h⟩

/-- Everything the engine's turn can do. -/
theorem engineTurn_cases (g : Grain) (s : State) :
    (s.current = none ∧ engineTurn g s = .next s) ∨
    (∃ i, s.current = some i ∧ s.fin = true ∧ engineTurn g s = .next s.complete) ∨
    (∃ i, s.current = some i ∧ s.fin = false ∧ g = .whole ∧ s.ph = firstPhase i ∧
      engineTurn g s = exec i s) ∨
    (∃ i, s.current = some i ∧ s.fin = false ∧ engineTurn g s = .next (phaseStep i s)) := by
  cases hc : s.current with
  | none => exact Or.inl ⟨rfl, by simp [engineTurn, hc]⟩
  | some i =>
    right
    cases hf : s.fin with
    | true => exact Or.inl ⟨i, rfl, rfl, by simp [engineTurn, hc, hf]⟩
    | false =>
      right
      cases g with
      | phase => exact Or.inr ⟨i, rfl, rfl, by simp [engineTurn, hc, hf]⟩
      | whole =>
        by_cases hp : s.ph = firstPhase i
        · exact Or.inl ⟨i, rfl, rfl, rfl, hp, by simp [engineTurn, hc, hf, hp]⟩
        · exact Or.inr ⟨i, rfl, rfl, by simp [engineTurn, hc, hf, hp]⟩

/-- A host write ends in a next state. -/
theorem writeAt_next (off : Nat) (data : Word) (s : State) : ∃ t, writeAt off data s = .next t := by
  unfold writeAt
  split
  · exact ⟨_, rfl⟩
  · split
    · unfold dispatchWord
      split
      · split
        · exact exec_next _ _
        · exact ⟨_, rfl⟩
      all_goals exact ⟨_, rfl⟩
    · exact ⟨_, rfl⟩

/-- No event stops the machine. -/
theorem handle_next (e : Event) (s : State) : ∃ t, handle e s = .next t := by
  cases e with
  | hostWrite addr size data =>
    simp only [handle, hostWrite]
    split
    · exact ⟨_, rfl⟩
    · exact ⟨_, rfl⟩
    · exact writeAt_next _ _ _
  | engine g =>
    rcases engineTurn_cases g s with ⟨_, h⟩ | ⟨_, _, _, h⟩ | ⟨i, _, _, _, _, h⟩ | ⟨_, _, _, h⟩
    · exact ⟨_, h⟩
    · exact ⟨_, h⟩
    · obtain ⟨t, ht⟩ := exec_next i s
      exact ⟨t, h.trans ht⟩
    · exact ⟨_, h⟩
  | hostRead _ _ => exact ⟨_, rfl⟩
  | hostWait _ => exact ⟨_, rfl⟩
  | memWrite _ _ => exact ⟨_, rfl⟩
  | memRead _ => exact ⟨_, rfl⟩
  | reset => exact ⟨_, rfl⟩

/-- The machine never stops (93_implementation_defined.md U28). -/
theorem step_next (s : State) : ∃ t, step s = .next t := by
  cases h : s.inbox with
  | nil =>
    obtain ⟨t, ht⟩ := handle_next (.engine .whole) s
    exact ⟨t, by simpa [step, nextMove, h, handle] using ht⟩
  | cons e rest =>
    obtain ⟨t, ht⟩ := handle_next e { s with inbox := rest }
    exact ⟨t, by simpa [step, nextMove, h] using ht⟩

end Sys2Proof.Machine
end

