-- ==== Sys2Proof/Laws/PerInstr.lean ====
section
/-! SUPPORT. The per-instruction family `TableRow`: the word of a well-formed command has the fixed bits
its row of the opcode map gives (spec 30_encoding.md R69). -/

namespace Sys2Proof.Laws.TableRow

/-- The encoding of a well-formed command selects the command's row: its masked bits are the row's `match`. -/
def Statement (i : Instr) : Prop := i.wf = true → encode i &&& i.mask = i.pattern

theorem nop : Statement .nop := fun _ => rfl

theorem init : Statement .init := fun _ => rfl

theorem loadx : Statement .loadx := fun _ => rfl

theorem dround : Statement .dround := fun _ => rfl

theorem feed : Statement .feed := fun _ => rfl

theorem emit (n : BitVec 7) : Statement (.emit n) := by
  intro _
  apply BitVec.eq_of_toNat_eq
  revert n
  decide +kernel

theorem block : Statement .block := fun _ => rfl

theorem process : Statement .process := fun _ => rfl

end Sys2Proof.Laws.TableRow
end

