-- ==== Sys2Proof/Tests/Slice0.lean ====
section
/-! SUPPORT. Tests, whose expected values are taken from spec/95_test_vectors.md and from the examples the
rules print, and for each statement with hypotheses a witness: a concrete state and operands that meet
them together. -/

namespace Sys2Proof.Tests.Slice0

open Sys2Proof Sys2Proof.Machine

set_option Elab.async false

/-! ### Helpers -/

/-- The zero-key, zero-nonce, counter-0 matrix (95_test_vectors.md 2.3). -/
def zeroKey : Matrix := initMatrix (Vector.replicate 8 0) 0 0 0 0

/-- The matrix of key 00..1f, nonce 00..07 (95_test_vectors.md 2.3, second row). -/
def countKey : Matrix :=
  initMatrix #v[0x03020100, 0x07060504, 0x0b0a0908, 0x0f0e0d0c, 0x13121110, 0x17161514, 0x1b1a1918, 0x1f1e1d1c]
    0 0 0x03020100 0x07060504

/-- A property of the next state, false where a step stops. -/
def after (o : Host.Outcome State Fault Refusal) (p : State → Bool) : Bool :=
  match o with
  | .next t => p t
  | .fault _ => false
  | .refused _ => false

/-- A state reached by INIT on the reset state with some arguments: 8 rounds, four bytes in place at 0x1000. -/
def called : State :=
  initPhase { State.reset with
    cfg := ⟨2, false, true⟩, src := 0x1000, dst := 0x1000, len := 4
    mem := [(0x1000, 0x01), (0x1001, 0x02), (0x1002, 0x03), (0x1003, 0x04)] }

/-- `called` with the block of zero key, 20 rounds in `KS` (the first four bytes), not yet emitted. -/
def fed : State :=
  { called with kv := true, KS := (((zeroBlock.set 0 0x76).set 1 0xb8).set 2 0xe0).set 3 0xad }

/-- A call of `n` bytes, 8 rounds, from `src` to `dst`, accepted on the reset state. -/
def call (n src dst : Word) (ks : Bool) (m : Memory) : State :=
  State.accept { State.reset with
    cfg := ⟨2, ks, true⟩, src := src, dst := dst, len := n, mem := m } .process

/-! ### Well-formedness and decoding -/

theorem test_wf_refuses_emit_65 : (Instr.emit 65).wf = false := by decide

theorem test_wf_accepts_emit_64 : (Instr.emit 64).wf = true := by decide

theorem test_decode_nop : decode 0b00000000_000000000000000000000000#32 = some .nop := by decide

theorem test_decode_init : decode 0b00000001_000000000000000000000000#32 = some .init := by decide

theorem test_decode_loadx : decode 0b00000010_000000000000000000000000#32 = some .loadx := by decide

theorem test_decode_dround : decode 0b00000011_000000000000000000000000#32 = some .dround := by decide

theorem test_decode_feed : decode 0b00000100_000000000000000000000000#32 = some .feed := by decide

theorem test_decode_emit_44 : decode 0b00000101_00000000000000000_0101100#32 = some (.emit 44) := by decide

theorem test_decode_block : decode 0b00000110_000000000000000000000000#32 = some .block := by decide

theorem test_decode_process : decode 0b00000111_000000000000000000000000#32 = some .process := by decide

theorem test_decode_refuses :
    [0x08000000#32, 0xFF000000, 0x01000001, 0x05000041, 0x0500007F, 0x05000080].map decode =
      [none, none, none, none, none, none] := by decide

theorem test_encode_emit_64 : encode (.emit 64) = 0x05000040 := by decide

theorem test_decodeTableWord : decodeTableWord 32 0x05000004 = some (.emit 4) ∧ decodeTableWord 32 0x05000041 = none := by
  decide

/-! ### The datapath (95_test_vectors.md section 2) -/

theorem test_rotl : rotl 0x12345678 16 = 0x56781234 ∧ rotl 0x12345678 12 = 0x45678123 ∧
    rotl 0x12345678 8 = 0x34567812 ∧ rotl 0x12345678 7 = 0x1a2b3c09 ∧ rotl 0x80000000 1 = 1 := by decide

theorem test_QR : QR 0x11111111 0x01020304 0x9b8d6f43 0x01234567 =
    (0xea2a92f4, 0xcb1cf8ce, 0x4581472e, 0x5881c4bb) := by decide

theorem test_lanerot : lanerot ⟨0xbac6599d, 0x2bf9e4ee, 0xb4d225bd, 0x2ba2f13a⟩ 1 =
    ⟨0x2bf9e4ee, 0xb4d225bd, 0x2ba2f13a, 0xbac6599d⟩ := by decide

theorem test_DR : (DR countKey).words = #v[0x86345e12, 0x837371cc, 0x2e0bdd6a, 0x56ad0f29, 0x78819d14, 0x387e4706,
    0x684ac4c1, 0x6c504b98, 0xa3bb70f6, 0x70b2ba48, 0x920f2a46, 0x2d066fac, 0x167d96da, 0x75ffa9ef, 0x42cedca2,
    0x4a9f2733] := by decide +kernel

theorem test_DRlane : DRlane countKey = DR countKey := by decide +kernel

theorem test_ctrInc : ctrInc .w64 ⟨zeroKey.a, zeroKey.b, zeroKey.c, ⟨0xffffffff, 0, 5, 6⟩⟩ =
      ⟨zeroKey.a, zeroKey.b, zeroKey.c, ⟨0, 1, 5, 6⟩⟩ ∧
    ctrInc .w32 ⟨zeroKey.a, zeroKey.b, zeroKey.c, ⟨0xffffffff, 7, 5, 6⟩⟩ =
      ⟨zeroKey.a, zeroKey.b, zeroKey.c, ⟨0, 7, 5, 6⟩⟩ := by decide

/-- V1: the published block of the zero key (first and last eight bytes). -/
theorem test_V1 : (blockBytes zeroKey 10).toList.take 8 = [0x76, 0xb8, 0xe0, 0xad, 0xa0, 0xf1, 0x3d, 0x90] ∧
    (blockBytes zeroKey 10).toList.drop 56 = [0xc3, 0x87, 0xb6, 0x69, 0xb2, 0xee, 0x65, 0x86] := by decide +kernel

/-- V6, counter 1. -/
theorem test_V6 : (blockBytes (ctrInc .w64 countKey) 10).toList.take 8 =
    [0x38, 0x00, 0x8b, 0x9a, 0x26, 0xbc, 0x35, 0x94] := by decide +kernel

/-- V3 and V4: 12 and 8 rounds. -/
theorem test_V3_V4 : (blockBytes zeroKey 6).toList.take 4 = [0x9b, 0xf4, 0x9a, 0x6a] ∧
    (blockBytes zeroKey 4).toList.take 4 = [0x3e, 0x00, 0xef, 0x2f] := by decide +kernel

/-! ### Reset, host accesses, errors -/

/-- 10_state.md R14, R23, R28, R40. -/
theorem test_reset_registers :
    [0x00, 0x04, 0x08, 0x0C, 0x10, 0x30, 0x40].map (fun off => readReg State.reset (regAt off)) =
      [0, 0, 0x100, 0x14, 0, 0x61707865, 0] := by decide

/-- 43_host_register_access.md R124: "`WR 0x08, 0xFFFFFFFF` with `BPI = 4` leaves `CFG = 0x00000113`". -/
theorem test_write_cfg : after (step (State.reset.facing (wrEvent Config.default 0x08 0xFFFFFFFF)))
    (fun t => cfgWord t.cfg == 0x00000113) = true := by decide

/-- R124: a write on a busy engine is dropped and sets `WRB` (bit 5 of STATUS). -/
theorem test_write_while_busy : after (step ((State.reset.accept .nop).facing (wrEvent Config.default 0x18 7)))
    (fun t => t.len == 0 && statusWord t == 0x00000021) = true := by decide

/-- 60_exceptions.md R142: `emit 65` raises ILLCMD. -/
theorem test_illcmd : after (step (State.reset.withFetchWord 32 0x05000041))
    (fun t => statusWord t == 0x00000100) = true := by decide

/-- 60_exceptions.md R149: "`emit 5` with `KV = 0` and `REM = 2` reports SEQ". -/
theorem test_emit_seq_before_range : after (exec (.emit 5) { called with rem := 2 })
    (fun t => t.err == .seq && t.mem == called.mem) = true := by decide

/-- 60_exceptions.md R146: "`SRC = 0x1000`, `DST = 0x1010`, `LEN = 0x20` raises it". -/
theorem test_overlap : callCheck { State.reset with src := 0x1000, dst := 0x1010, len := 0x20 } = .overlap ∧
    callCheck { State.reset with src := 0x1000, dst := 0x1020, len := 0x20 } = .none := by decide

theorem test_memory_canonical :
    Memory.write [(5, 1)] 5 0 = [] ∧ Memory.write [(5, 1)] 3 2 = [(3, 2), (5, 1)] ∧ Memory.read [(5, 1)] 4 = 0 := by
  decide

/-! ### One step of each command (the examples of its rule) -/

theorem test_nop : after (exec .nop (State.reset.accept .nop)) (fun t => statusWord t.complete == 0x00000002) = true := by
  decide

/-- 41_stage_commands.md R104's example. -/
theorem test_init : after (exec .init (State.reset.accept .init)) (fun t => t.S == zeroKey && t.ndr == .ten &&
    t.sp == 0 && t.dp == 0 && t.rem == 0 && statusWord t.complete == 0x00000006) = true := by decide

/-- R105's example. -/
theorem test_loadx : after (exec .loadx (called.accept .loadx)) (fun t => t.X == called.S &&
    statusWord t.complete == 0x0000000E) = true := by decide

/-- R106's example. -/
theorem test_dround : after (exec .dround (({ called with X := zeroKey, xv := true } : State).accept .dround))
    (fun t => t.X.a == ⟨0xe45fd249, 0x1bb820a6, 0xe31a88ea, 0xe667a9fe⟩ &&
      t.X.d == ⟨0x6bbf8b09, 0xc33013d6, 0xbb9f9849, 0x87c62165⟩ &&
      statusWord t.complete == 0x0001000E) = true := by decide +kernel

/-- R107's example, from the matrix after ten double-rounds (95_test_vectors.md 2.4). -/
theorem test_feed :
    after (exec .feed
        (State.accept { called with X := rounds zeroKey 10, xv := true, drc := 10, ndr := .ten } .feed))
      (fun t => t.KS.toList.take 4 == [0x76, 0xb8, 0xe0, 0xad] && t.S.d == ⟨1, 0, 0, 0⟩ &&
        statusWord t.complete == 0x00000016) = true := by decide +kernel

/-- R108's example: `emit 4` writes 77 ba e3 a9 over 01 02 03 04. -/
theorem test_emit : after (exec (.emit 4) (fed.accept (.emit 4))) (fun t =>
    t.mem == [(0x1000, 0x77), (0x1001, 0xba), (0x1002, 0xe3), (0x1003, 0xa9)] && t.sp == 0x1004 && t.dp == 0x1004 &&
      t.rem == 0 && statusWord t.complete == 0x00000006) = true := by decide +kernel

/-- R108: keystream-only mode copies the block and reads no input byte. -/
theorem test_emit_keystream_only : after (exec (.emit 2) (({ fed with ksl := true } : State).accept (.emit 2)))
    (fun t => t.mem == [(0x1000, 0x76), (0x1001, 0xb8), (0x1002, 0x03), (0x1003, 0x04)] && t.rem == 2) = true := by
  decide +kernel

/-- 42_block_and_process.md R113's example. -/
theorem test_block : after (exec .block (({ called with ndr := .ten } : State).accept .block)) (fun t =>
    t.KS.toList.take 4 == [0x76, 0xb8, 0xe0, 0xad] && t.S.d == ⟨1, 0, 0, 0⟩ &&
      statusWord t.complete == 0x00000016) = true := by decide +kernel

/-- R114's example: `setbuf 0x2000, 0x2000, 4`, `process` on the reset state. -/
theorem test_process : after
    (exec .process (({ State.reset with src := 0x2000, dst := 0x2000, len := 4 } : State).accept .process))
    (fun t => t.mem == [(0x2000, 0x76), (0x2001, 0xb8), (0x2002, 0xe0), (0x2003, 0xad)] &&
      t.S.d == ⟨1, 0, 0, 0⟩ && statusWord t.complete == 0x00000006) = true := by decide +kernel

/-- R114: "`LEN = 0`: ... no block is computed, no memory is accessed". -/
theorem test_process_empty : after (exec .process (State.reset.accept .process))
    (fun t => t.mem == [] && t.S == zeroKey && statusWord t.complete == 0x00000006) = true := by decide +kernel

/-- 60_exceptions.md R151: BUS clears the flags. -/
theorem test_bus : after
    (exec (.emit 4) (({ fed with config := { fed.config with holes := [⟨0x1002, 1⟩] } } : State).accept (.emit 4)))
    (fun t => statusWord t == 0x00000600 && t.ph == .idle) = true := by decide +kernel

/-- 30_encoding.md R75: `setctr` splits the counter, `encrypt` is a CMD write of PROCESS. -/
theorem test_assemble : assemble [.setctr 0x100000002, .cfg 12 true false, .encrypt, .clrwrb] =
    some [.wr 0x20 2, .wr 0x24 1, .wr 0x08 0x11, .wr 0x00 0x07000000, .wr 0x04 0x20] := by decide

/-- R75: `wait` polls again while the value read has bit 0 set, and answers with the last value read. -/
theorem test_wait : after (handle (.hostWait .whole) (State.reset.accept .nop))
      (fun t => t.bus == .word 1 && t.inbox == [.engine .whole, .hostWait .whole]) = true ∧
    after (core.run 6 ((State.reset.accept .nop).withInbox [.hostWait .phase]))
      (fun t => t.bus == .word 2 && t.inbox == []) = true := by decide

/-- R76: the call of 95_test_vectors.md 2.4's zero key on four zero bytes returns the block's first bytes. -/
theorem test_call : (State.reset.withProgram .phase
      (callProgram (Vector.replicate 32 0) (Vector.replicate 8 0) 0 0x2000 0x2000 4 20 false true)).any (fun s =>
        after (core.run 48 s) fun t => t.callResult == some [0x76, 0xb8, 0xe0, 0xad]) = true := by decide +kernel

/-- 20_memory.md R62, 93_implementation_defined.md U27: in the window a write of an output byte is recorded,
a write beside the buffer is ordinary; after completion every access is. -/
theorem test_other_agents :
    after (step ((fed.accept (.emit 4)).facing (.memWrite 0x1003 9))) (fun t => t.races == [⟨0x1003, 9, 0⟩]) = true ∧
    after (step ((fed.accept (.emit 4)).facing (.memWrite 0x1004 9))) (fun t => t.races == [] &&
      Memory.read t.mem 0x1004 == 9) = true ∧
    after (step (fed.facing (.memRead 0x1003))) (fun t => t.bus == .byte 4) = true := by decide

/-- 30_encoding.md R74, R75: what the assembler rejects. -/
theorem test_assemble_rejects : Stmt.expand (.emit 65) = none ∧ Stmt.expand (.cfg 10 false false) = none := by decide

/-! ### Witnesses. Each meets all hypotheses of the statement it is named after. -/

/-- A call of 66 bytes on a machine with a hole in the second block's output range; another agent has written
a byte elsewhere since acceptance. -/
def holed : State :=
  { State.accept { State.reset with
      config := { Config.default with holes := [⟨0x2041, 1⟩] }, cfg := ⟨2, false, true⟩
      src := 0x1000, dst := 0x2000, len := 66 } .process with
    mem := [(0x5000, 7)] }

/-- `fed` on a machine with a hole at 0x1002, EMIT of four bytes accepted. -/
def holedEmit : State :=
  State.accept { fed with config := { fed.config with holes := [⟨0x1002, 1⟩] } } (.emit 4)

/-- INIT done on the reset state. -/
def idleInit : State := (initPhase State.reset).complete

theorem reset_seqInv : SeqInv State.reset := ⟨by decide, by decide, fun h => absurd h (by decide)⟩

theorem idleInit_seqInv : SeqInv idleInit := ⟨by decide, by decide, fun h => absurd h (by decide)⟩

/-- A call of 65 bytes whose first block has been moved: one block is eight phases. -/
def midCall : State := Nat.repeat (phaseStep .process) 8 (call 65 0 0x100 false [])

/-- An EMIT of four bytes in progress, before its effect and after it. -/
def emitting : State := fed.accept (.emit 4)

def emitted : State := emitEffect 4 emitting

theorem call_seqInv : SeqInv (call 1 0 0 false []) :=
  ⟨by decide, by decide, fun _ => ⟨.process, by decide, by decide, Or.inr ⟨by decide, by decide, Or.inl (by decide)⟩⟩⟩

/-- For RotlMovesEveryBit, LaneRotationMovesTowardsLaneZero, SerialisationIsLittleEndian and the other
statements whose hypotheses are bounds: the ends of each range. -/
theorem witness_bounds : (0 < 1 ∧ 1 < 32) ∧ (0 < 31 ∧ 31 < 32) ∧ (1 ≤ 1 ∧ 1 ≤ 3) ∧ (1 ≤ 3 ∧ 3 ≤ 3) ∧ 0 < 16 ∧ 15 < 16 ∧
    3 < 4 ∧ 7 < 8 ∧ (15 ≠ 12 ∧ 15 ≠ 13) := by decide

theorem witness_StepIssuesTheDecodedCommand : Idle State.reset ∧ decode 0x05000040 = some (.emit 64) := by decide

/-- For StepRunsTheCommandInProgress, PhasesReachTheWholeEffect, NopHasNoEffect, InitLatchesTheCall,
LoadxCopiesTheBaseMatrix, DroundIsOneDoubleRound, FeedFinalisesTheBlock and BlockIsBlockFn. -/
theorem witness_InProgress (i : Instr) : InProgress i (State.reset.accept i) := ⟨rfl, rfl, rfl, rfl, rfl⟩

/-- The offsets at the ends of each clause. -/
theorem witness_HostWriteByOffset : (State.reset.accept .nop).busy = true ∧ State.reset.busy = false ∧
    ∀ off ∈ [0x0C, 0x1C, 0x30, 0x3C, 0x60, 0xFC], off < 256 ∧ off % 4 = 0 ∧
      (off = 0x0C ∨ (0x30 ≤ off ∧ off ≤ 0x3C) ∨ off = 0x1C ∨ 0x60 ≤ off) := by decide

theorem witness_HostReadByOffset :
    ∀ off ∈ [0x1C, 0x40, 0xFC], off < 256 ∧ off % 4 = 0 ∧ (off = 0x1C ∨ 0x40 ≤ off) := by decide

theorem witness_UnalignedHostAccess : (255 < 256 ∧ 0 < 1 ∧ (1 ≠ 4 ∨ 255 % 4 ≠ 0)) ∧
    (0xFE < 256 ∧ 0 < 4 ∧ (4 ≠ 4 ∨ 0xFE % 4 ≠ 0)) ∧ (0xFC < 256 ∧ 0 < 4 ∧ 4 = 4 ∧ 0xFC % 4 = 0) := by decide

/-- A state with another key, matrices and pointer, alike in all that the statement names. -/
theorem witness_HiddenStateIsNotReadable :
    let s := State.reset
    let t : State := { State.reset with key := Vector.replicate 8 1, S := zeroKey, X := zeroKey, sp := 5 }
    t ≠ s ∧ t.config = s.config ∧ t.cfg = s.cfg ∧ t.src = s.src ∧ t.dst = s.dst ∧ t.len = s.len ∧
      t.ctr0 = s.ctr0 ∧ t.ctr1 = s.ctr1 ∧ t.nonce0 = s.nonce0 ∧ t.nonce1 = s.nonce1 ∧ t.busy = s.busy ∧
      t.done = s.done ∧ t.sv = s.sv ∧ t.xv = s.xv ∧ t.kv = s.kv ∧ t.wrb = s.wrb ∧ t.err = s.err ∧ t.drc = s.drc := by
  decide +kernel

/-- A word for each clause of R142, at the ends. -/
theorem witness_IllegalWordRaisesIllcmd : Idle State.reset ∧
    [0x08000000#32, 0xFF000000, 0x00000001, 0x07800000, 0x05000041, 0x05000080].all (fun w => decode w == none) := by
  decide

theorem witness_SeqIsRaisedExactlyWhen : Idle State.reset ∧ Idle idleInit ∧ State.reset.sv = false ∧
    idleInit.sv = true ∧ idleInit.xv = false := by decide

/-- A state for each clause, where they meet: reserved round count; one byte past the top, and up to it;
overlap by one byte, and none. -/
theorem witness_CallChecksInOrder :
    Idle { State.reset with cfg := ⟨3, false, true⟩ } ∧ Idle { State.reset with src := 0x1000, dst := 0x101F, len := 0x20 } ∧
    callCheck { State.reset with cfg := ⟨3, false, true⟩ } = .rounds ∧
    callCheck { State.reset with dst := 0xFFFFFFFF, len := 2 } = .range ∧
    callCheck { State.reset with dst := 0xFFFFFFFF, len := 1 } = .none ∧
    callCheck { State.reset with src := 0xFFFFFFFF, dst := 0, len := 2 } = .range ∧
    callCheck { State.reset with src := 0x1000, dst := 0x101F, len := 0x20 } = .overlap ∧
    callCheck { State.reset with src := 0x1000, dst := 0x1020, len := 0x20 } = .none := by decide

/-- EMIT of exactly `REM` bytes, and of one more. -/
theorem witness_StageCommandsAreAccepted : Idle fed ∧ ¬fed.kv = false ∧ (4 : BitVec 7).toNat ≤ fed.rem.toNat ∧
    fed.rem.toNat < (5 : BitVec 7).toNat := by decide

theorem witness_LatchedErrorDropsCommands : InError { State.reset with err := .seq } := by decide

theorem witness_AcknowledgeClearsOnlyErr : State.reset.busy = false ∧
    (0x80000000#32).getLsbD 31 = true ∧ (0x80000000#32).getLsbD 5 = false ∧ (0x80000020#32).getLsbD 31 = true := by
  decide

theorem witness_RefusedAccessEndsEmitWithBus :
    InProgress (.emit 4) holedEmit ∧ (4 : BitVec 7).toNat ≤ 64 ∧ ParamInv holedEmit ∧ MemInv holedEmit ∧
      holedEmit.accKS = holedEmit.KS ∧ holedEmit.emitOK (4 : BitVec 7).toNat = false ∧ Untouched holedEmit 3 := by
  decide +kernel

theorem witness_RefusedAccessEndsProcessWithBus :
    InProgress .process holed ∧ holed.err = .none ∧ callCheck holed = .none ∧ ParamInv holed ∧ MemInv holed ∧
      rangeOK holed.config holed.cfg.ks holed.src.toNat holed.dst.toNat holed.len.toNat = false ∧
      holed.accMem ≠ holed.mem ∧ Untouched holed 65 ∧
      rangeOK holed.config holed.cfg.ks holed.src.toNat holed.dst.toNat 64 = true := by decide +kernel

/-- EMIT of all the remaining bytes; `n` = 0 and `n` = 64 follow. -/
theorem witness_EmitMovesExactlyItsBytes : let s := fed.accept (.emit 4)
    InProgress (.emit 4) s ∧ (4 : BitVec 7).toNat ≤ s.rem.toNat ∧ s.config.Legal ∧ MemInv s ∧ s.sv = true ∧
      StreamInv s ∧ s.emitOK (4 : BitVec 7).toNat = true := by decide +kernel

theorem witness_EmitMovesExactlyItsBytes_ends : let s : State := { fed with rem := 64 }
    InProgress (.emit 64) (s.accept (.emit 64)) ∧ (64 : BitVec 7).toNat ≤ 64 ∧ (64 : BitVec 7).toNat ≤ s.rem.toNat ∧
      StreamInv (s.accept (.emit 64)) ∧ (s.accept (.emit 64)).emitOK 64 = true ∧
      InProgress (.emit 0) (fed.accept (.emit 0)) ∧ (fed.accept (.emit 0)).emitOK 0 = true := by decide +kernel

/-- For ProcessContract: a call that ends at the top of the address space, in place, and an empty one. -/
theorem witness_CallReady : CallReady (call 4 0xFFFFFFFC 0xFFFFFFFC false []) ∧ CallReady (call 0 0 0 false []) ∧
    3 < (call 4 0xFFFFFFFC 0xFFFFFFFC false []).len.toNat := by decide +kernel

/-- For ResetDuringACallLeavesOldOrNewBytes and TouchingACallsBufferIsARace: a call before its first phase,
with a block moved, and before its completion. -/
theorem witness_InWindow_process :
    (InWindow (call 1 0 0 false []) ∧ Untouched (call 1 0 0 false []) 0) ∧
    (InWindow midCall ∧ midCall.ph = .loadp ∧ midCall.rem = 1 ∧ Untouched midCall 64 ∧ 64 < midCall.footprint.count) ∧
    InWindow (processEffect (call 1 0 0 false [])) ∧ (processEffect (call 1 0 0 false [])).fin = true :=
  ⟨⟨⟨rfl, call_seqInv, by decide, by decide, by decide⟩, by decide⟩,
    ⟨⟨by decide +kernel, ⟨by decide +kernel, by decide +kernel, fun _ => ⟨.process, by decide +kernel, by decide,
      Or.inr ⟨by decide +kernel, by decide +kernel, Or.inr (by decide +kernel)⟩⟩⟩, by decide +kernel, by decide +kernel,
      by decide +kernel⟩, by decide +kernel, by decide +kernel, by decide +kernel, by decide +kernel⟩,
    ⟨by decide +kernel, ⟨by decide +kernel, by decide +kernel, fun _ => ⟨.process, by decide +kernel, by decide,
      Or.inl ⟨by decide +kernel, by decide +kernel⟩⟩⟩, by decide +kernel, by decide +kernel, by decide +kernel⟩,
    by decide +kernel⟩

theorem emitting_inWindow : InWindow emitting :=
  ⟨rfl, ⟨by decide +kernel, by decide, fun _ => ⟨.emit 4, by decide, by decide,
    Or.inr ⟨by decide, rfl, by decide, by decide, by decide⟩⟩⟩, by decide, by decide +kernel, by decide +kernel⟩

theorem emitted_inWindow : InWindow emitted :=
  ⟨by decide +kernel, ⟨by decide +kernel, by decide +kernel, fun _ => ⟨.emit 4, by decide +kernel, by decide,
    Or.inl ⟨by decide +kernel, by decide +kernel⟩⟩⟩, by decide +kernel, by decide +kernel, by decide +kernel⟩

/-- The same for an EMIT, with an output byte of each clause: untouched; and a byte of neither buffer. -/
theorem witness_InWindow_emit : InWindow emitting ∧ emitting.fin = false ∧ Untouched emitting 3 ∧
    3 < emitting.footprint.count ∧ InWindow emitted ∧ emitted.fin = true ∧ Untouched emitted 3 ∧
    emitted.footprint = emitting.footprint ∧ emitted.ownsOutput 0x1003 = true ∧ emitted.ownsOutput 0x1004 = false ∧
    memOK emitted.config 0x1004 = true ∧ memOK emitted.config (2 ^ 32) = false :=
  ⟨emitting_inWindow, by decide, by decide, by decide +kernel,
    emitted_inWindow, by decide +kernel,
    by decide +kernel, by decide +kernel, by decide +kernel, by decide +kernel, by decide +kernel, by decide⟩

/-- An EMIT from 0x1000 to 0x2000 at its completion, with input byte 1 written by another agent. -/
def racedEmit : State :=
  memWrite 0x1001 9 (emitEffect 4 (State.accept { fed with dp := 0x2000, dst := 0x2000 } (.emit 4)))

theorem witness_CompletionIsAStepOfItsOwn : let s := (State.reset.accept .nop).finish .idle
    (s.current = some .nop ∧ s.fin = true ∧ s.races = []) ∧
    InWindow racedEmit ∧ racedEmit.current = some (.emit 4) ∧ racedEmit.fin = true ∧ Untouched racedEmit 0 ∧
      racedEmit.footprint.ks = false ∧ (∀ r ∈ racedEmit.races, r.addr ≠ 0x2001) ∧
      (∃ r ∈ racedEmit.races, r.addr = 0x1001) ∧ racedEmit.ownsOutput 0x1001 = false :=
  ⟨by decide, ⟨by decide +kernel, ⟨by decide +kernel, by decide +kernel, fun _ => ⟨.emit 4, by decide +kernel, by decide,
    Or.inl ⟨by decide +kernel, by decide +kernel⟩⟩⟩, by decide +kernel, by decide +kernel, by decide +kernel⟩,
    by decide +kernel, by decide +kernel, by decide +kernel, by decide +kernel, by decide +kernel, by decide +kernel,
    by decide +kernel⟩

/-- For CommandsNeverWriteProgrammerRegisters, OnlyEmitAndProcessWriteMemory and
BaseMatrixFixedBetweenInits: commands that answer a next state, on an idle and on a busy engine. -/
theorem witness_exec_next : (∃ t, exec (.emit 1) State.reset = .next t) ∧ State.reset.busy = false ∧
    ∃ t, exec .block (State.reset.accept .block) = .next t := ⟨⟨_, rfl⟩, rfl, ⟨_, rfl⟩⟩

theorem witness_ResetMeetsTheInvariants : Config.default.Legal ∧ (⟨.one, .w32, 8, 0x100, []⟩ : Config).Legal := by decide

/-- For the statements on what every step keeps: the invariants hold of a call in progress, and it steps. -/
theorem witness_StepKeeps : let s := call 1 0 0 false []
    MemInv s ∧ ParamInv s ∧ StreamInv s ∧ SeqInv s ∧ ∃ t, step s = .next t :=
  ⟨by decide, by decide, by decide, call_seqInv, ⟨_, rfl⟩⟩

theorem witness_AcceptedCommandEnds : InProgress .process (call 1 0 0 false []) ∧ SeqInv (call 1 0 0 false []) :=
  ⟨by decide, call_seqInv⟩

/-- An idle state that becomes busy, one that becomes an error, one state in error, one busy. -/
theorem witness_StateTransitionsAreTheListedOnes :
    (∀ w, SeqInv (State.reset.facing (cmdWrite Config.default w)) ∧
      Idle (State.reset.facing (cmdWrite Config.default w))) ∧
    after (step (State.reset.facing (cmdWrite Config.default 0x01000000))) (fun t => t.busy) = true ∧
    after (step (State.reset.facing (cmdWrite Config.default 0x02000000))) (fun t => t.err == .seq) = true ∧
    (SeqInv (State.reset.raise .seq) ∧ InError (State.reset.raise .seq) ∧
      ∃ t, step (State.reset.raise .seq) = .next t) ∧
    SeqInv (call 1 0 0 false []) ∧ (call 1 0 0 false []).busy = true ∧ ∃ t, step (call 1 0 0 false []) = .next t :=
  ⟨fun _ => ⟨reset_seqInv, ⟨rfl, rfl⟩⟩, by decide, by decide,
    ⟨⟨by decide, by decide, fun h => absurd h (by decide)⟩, by decide, ⟨_, rfl⟩⟩, call_seqInv, rfl, ⟨_, rfl⟩⟩

/-- A dropped write, and a `STATUS` write that clears. -/
theorem witness_WrbIsStickyAndSetByDroppedWrites :
    after (step ((State.reset.accept .nop).facing (wrEvent Config.default 0xFC 0))) (fun t => t.wrb) = true ∧
    after (step (State.facing { State.reset with wrb := true } (wrEvent Config.default 0x04 0x20)))
      (fun t => !t.wrb) = true := by decide

theorem witness_BusyWindowAdmitsBothOutcomes :
    (Idle State.reset ∧ ∀ i ∈ [Instr.nop, .init, .process], i.wf = true ∧
      exec i State.reset = .next (AcceptedState i State.reset)) ∧
    Idle fed ∧ (Instr.emit 4).wf = true ∧ exec (.emit 4) fed = .next (AcceptedState (.emit 4) fed) :=
  ⟨⟨by decide, fun i hi => by
    simp only [List.mem_cons, List.not_mem_nil, or_false] at hi
    obtain rfl | rfl | rfl := hi <;> exact ⟨rfl, rfl⟩⟩, by decide, rfl, rfl⟩

/-- A call of 129 bytes with two blocks an iteration, and the same call on a scalar-only engine. -/
theorem witness_VectorAndScalarPathsAgree :
    let s : State := { call 129 0 0x100 true [] with
      config := { Config.default with bpi := .two }, slots := [⟨Matrix.zero, zeroBlock⟩] }
    CallReady s ∧ CallReady { s with
      config := { s.config with bpi := .one }, cfg := { s.cfg with ven := false }, slots := [] } := by decide +kernel

theorem witness_StagesOfABlockEqualBlock : Idle idleInit ∧ SeqInv idleInit ∧ idleInit.sv = true :=
  ⟨by decide, idleInit_seqInv, rfl⟩

theorem witness_StagesOfACallEqualProcess : let s : State := { State.reset with len := 65 }
    Idle s ∧ SeqInv s ∧ ParamInv s ∧ callCheck s = .none ∧
      rangeOK s.config s.cfg.ks s.src.toNat s.dst.toNat s.len.toNat = true :=
  ⟨by decide, ⟨by decide, by decide, fun h => absurd h (by decide)⟩, by decide, by decide, by decide +kernel⟩

/-- The output of `call 1 0 0 false []`, on which the second call works. -/
def enciphered : Memory := (processEffect (call 1 0 0 false [])).mem

theorem witness_Involution : let s := call 1 0 0 false []
    let u := call 1 0 0 false enciphered
    CallReady s ∧ CallReady u ∧ SameCipher s u ∧ u.len = s.len ∧ s.cfg.ks = false ∧ u.cfg.ks = false ∧
      (∃ t, exec .process s = .next t ∧
        ∀ i, i < s.len.toNat → Memory.read u.mem (u.src.toNat + i) = Memory.read t.mem (s.dst.toNat + i)) ∧
      ∃ v, exec .process u = .next v :=
  ⟨by decide +kernel, by decide +kernel, by decide +kernel, rfl, rfl, rfl,
    ⟨_, rfl, fun i hi => by
      obtain rfl : i = 0 := Nat.lt_one_iff.mp hi
      rfl⟩, ⟨_, rfl⟩⟩

/-- Both modes of the second call. -/
theorem witness_KeystreamIndependence : let s := call 1 0 0 false []
    CallReady s ∧ CallReady (call 1 4 4 false [(4, 9)]) ∧ CallReady (call 1 4 4 true []) ∧
      SameCipher s (call 1 4 4 false [(4, 9)]) ∧ SameCipher s (call 1 4 4 true []) ∧ s.cfg.ks = false ∧
      (∀ i, i < s.len.toNat → Memory.read s.mem (s.src.toNat + i) = 0) ∧ (∃ t, exec .process s = .next t) ∧
      ∀ ks m, ∃ v, exec .process (call 1 4 4 ks m) = .next v :=
  ⟨by decide +kernel, by decide +kernel, by decide +kernel, by decide +kernel, by decide +kernel, rfl,
    fun _ _ => rfl, ⟨_, rfl⟩, fun _ _ => ⟨_, rfl⟩⟩

/-- A call of 65 bytes at counter 0, one of 64 at counter 0, one of 1 at counter 1; `k` = 1. -/
theorem witness_SplitCallsAgree : let s := call 65 0 0x100 false []
    let f := call 64 0 0x100 false []
    let g : State := { call 1 64 0x140 false [] with ctr0 := 1 }
    CallReady s ∧ CallReady f ∧ CallReady g ∧ SameCipher s f ∧ f.cfg.ks = s.cfg.ks ∧ g.key = s.key ∧
      g.nonce0 = s.nonce0 ∧ g.nonce1 = s.nonce1 ∧ g.cfg.rc = s.cfg.rc ∧ g.config.ctrWidth = s.config.ctrWidth ∧
      g.cfg.ks = s.cfg.ks ∧ s.config.ctrWidth = .w64 ∧
      g.ctr1.toNat * 2 ^ 32 + g.ctr0.toNat = (s.ctr1.toNat * 2 ^ 32 + s.ctr0.toNat + 1) % 2 ^ 64 ∧
      f.len.toNat = 64 * 1 ∧ s.len.toNat = 64 * 1 + g.len.toNat ∧
      (∀ i, i < 64 * 1 → inputByte f i = inputByte s i) ∧
      (∀ i, i < g.len.toNat → inputByte g i = inputByte s (64 * 1 + i)) ∧ (∃ t, exec .process s = .next t) ∧
      (∃ t, exec .process f = .next t) ∧ ∃ t, exec .process g = .next t :=
  ⟨by decide +kernel, by decide +kernel, by decide +kernel, by decide +kernel, rfl, rfl, rfl, rfl, rfl, rfl, rfl, rfl,
    by decide, rfl, rfl, fun _ _ => rfl, fun _ _ => rfl, ⟨_, rfl⟩, ⟨_, rfl⟩, ⟨_, rfl⟩⟩

/-- The same with a 32-bit counter that wraps between the two blocks. -/
theorem witness_SplitCallsAgree_w32 : let c : Config := { Config.default with ctrWidth := .w32 }
    let s : State := { call 65 0 0x100 false [] with config := c, ctr0 := 0xFFFFFFFF, ctr1 := 7 }
    let f : State := { call 64 0 0x100 false [] with config := c, ctr0 := 0xFFFFFFFF, ctr1 := 7 }
    let g : State := { call 1 64 0x140 false [] with config := c, ctr0 := 0, ctr1 := 7 }
    CallReady s ∧ CallReady f ∧ CallReady g ∧ SameCipher s f ∧ g.config.ctrWidth = s.config.ctrWidth ∧
      s.config.ctrWidth = .w32 ∧ g.ctr1 = s.ctr1 ∧ g.ctr0.toNat = (s.ctr0.toNat + 1) % 2 ^ 32 ∧
      f.len.toNat = 64 * 1 ∧ s.len.toNat = 64 * 1 + g.len.toNat ∧
      (∀ i, i < 64 * 1 → inputByte f i = inputByte s i) ∧
      ∀ i, i < g.len.toNat → inputByte g i = inputByte s (64 * 1 + i) :=
  ⟨by decide +kernel, by decide +kernel, by decide +kernel, by decide +kernel, rfl, rfl, rfl, by decide, rfl, rfl,
    fun _ _ => rfl, fun _ _ => rfl⟩

/-- Arguments at the ends of their ranges: the last byte of the address space, the largest counter-start; and
a keystream-only call whose input address does not fit `AW` = 8 bits. -/
theorem witness_CallProgramReturnsTheCipher : let s := State.reset
    Idle s ∧ SeqInv s ∧ ParamInv s ∧ MemInv s ∧ s.inbox = [] ∧ 2 ^ 64 - 1 < 2 ^ 64 ∧
      rangeBad s.config.aw (0xFFFFFFFF#32).toNat (0xFFFFFFFF#32).toNat (1#32).toNat false = false ∧
      overlapBad (0xFFFFFFFF#32).toNat (0xFFFFFFFF#32).toNat (1#32).toNat false = false ∧
      rangeOK s.config false (0xFFFFFFFF#32).toNat (0xFFFFFFFF#32).toNat (1#32).toNat = true ∧
      (let u := State.resetWith ⟨.one, .w32, 8, 0x100, []⟩
      Idle u ∧ SeqInv u ∧ ParamInv u ∧ MemInv u ∧ rangeBad u.config.aw (0x1000#32).toNat (255#32).toNat (1#32).toNat true = false ∧
        overlapBad (0x1000#32).toNat (255#32).toNat (1#32).toNat true = false ∧
        rangeOK u.config true (0x1000#32).toNat (255#32).toNat (1#32).toNat = true) :=
  ⟨by decide, reset_seqInv, by decide, by decide, rfl, by decide, by decide, by decide, by decide,
    ⟨by decide, ⟨by decide, by decide, fun h => absurd h (by decide)⟩, by decide, by decide, by decide, by decide, by decide⟩⟩

/-- Two states that differ in what holds no value. -/
theorem witness_WhatHoldsNoValueIsNeverRead : let u : State := { State.reset with X := zeroKey, KS := ser zeroKey, rem := 7 }
    SeqInv State.reset ∧ SeqInv u ∧ State.reset.masked = u.masked ∧ u ≠ State.reset :=
  ⟨reset_seqInv, ⟨by decide, by decide, fun h => absurd h (by decide)⟩, by decide +kernel, by decide +kernel⟩

end Sys2Proof.Tests.Slice0
end

section
/-! PROOFS. What the engine never writes, and the parameters: no step changes one, and the state keeps
fitting them. -/

namespace Sys2Proof.Machine

/-! ### What the engine leaves as it was -/

/-- What no command and no turn of the engine changes (43_host_register_access.md R129): the programmer
registers, the parameters, `WRB`, the bus and what the outside does next; the number of slots; and it records
no write of another agent. A part that an update does not write is proved by `rfl`, by default. -/
structure EngineFrame (s t : State) : Prop where
  registers : SameRegisters s t := by exact ⟨rfl, rfl, rfl, rfl, rfl, rfl, rfl, rfl, rfl⟩
  config : t.config = s.config := by rfl
  wrb : t.wrb = s.wrb := by rfl
  inbox : t.inbox = s.inbox := by rfl
  bus : t.bus = s.bus := by rfl
  slots : t.slots.length = s.slots.length := by rfl
  races : t.races ⊆ s.races := by exact List.Subset.refl _

namespace EngineFrame

variable {s t u : State}

protected theorem refl (s : State) : EngineFrame s s := {}

protected theorem trans (h : EngineFrame s t) (k : EngineFrame t u) : EngineFrame s u where
  registers := by
    obtain ⟨a1, a2, a3, a4, a5, a6, a7, a8, a9⟩ := h.registers
    obtain ⟨b1, b2, b3, b4, b5, b6, b7, b8, b9⟩ := k.registers
    exact ⟨b1.trans a1, b2.trans a2, b3.trans a3, b4.trans a4, b5.trans a5, b6.trans a6, b7.trans a7,
      b8.trans a8, b9.trans a9⟩
  config := k.config.trans h.config
  wrb := k.wrb.trans h.wrb
  inbox := k.inbox.trans h.inbox
  bus := k.bus.trans h.bus
  slots := k.slots.trans h.slots
  races := List.Subset.trans k.races h.races

/-- The sequencer's phase is no part of the frame. -/
theorem setPh (h : EngineFrame s t) (p : Phase) : EngineFrame s { t with ph := p } := h.trans {}

/-- Nor is the mark of a complete effect (log 9). -/
theorem setFin (h : EngineFrame s t) (b : Bool) : EngineFrame s { t with fin := b } := h.trans {}

theorem finish (h : EngineFrame s t) (p : Phase) : EngineFrame s (t.finish p) := h.trans {}

theorem raise (h : EngineFrame s t) (e : Err) : EngineFrame s (t.raise e) := by
  refine h.trans ?_
  by_cases he : e = .bus
  · subst he
    exact { races := List.nil_subset _ }
  · rw [raise_check t e he]
    exact {}

end EngineFrame

theorem engineFrame_accept (s : State) (i : Instr) : EngineFrame s (s.accept i) := { races := List.nil_subset _ }

theorem engineFrame_complete (s : State) : EngineFrame s s.complete := { races := List.nil_subset _ }

theorem engineFrame_initPhase (s : State) : EngineFrame s (initPhase s) := {}

theorem engineFrame_loadPhase (vec : Bool) (s : State) : EngineFrame s (loadPhase vec s) where
  slots := by cases vec <;> simp [loadSlots_length]

theorem engineFrame_roundPhase (vec : Bool) (s : State) : EngineFrame s (roundPhase vec s) where
  slots := by cases vec <;> simp

theorem engineFrame_feedPhase (vec : Bool) (s : State) : EngineFrame s (feedPhase vec s) where
  slots := by cases vec <;> simp [feedSlots_length]

theorem engineFrame_emitPhase (n : Nat) (s : State) : EngineFrame s (emitPhase n s) := {}

theorem engineFrame_roundPhases (vec : Bool) (k : Nat) (s : State) : EngineFrame s (roundPhases vec k s) := by
  induction k generalizing s with
  | zero => exact .refl s
  | succ k ih => exact (engineFrame_roundPhase vec s).trans (ih _)

theorem engineFrame_blockPass (vec : Bool) (s : State) : EngineFrame s (blockPass vec s) :=
  ((engineFrame_loadPhase vec s).trans (engineFrame_roundPhases vec _ _)).trans (engineFrame_feedPhase vec _)

theorem engineFrame_emitEffect (n : BitVec 7) (s : State) : EngineFrame s (emitEffect n s) := by
  unfold emitEffect
  split
  · exact (engineFrame_emitPhase _ s).finish _
  · exact (EngineFrame.refl s).raise _

theorem engineFrame_processEffect (s : State) : EngineFrame s (processEffect s) := by
  have pass : ∀ u, EngineFrame s u → EngineFrame s (blockPass u.vectorPass u) :=
    fun u hu => hu.trans (engineFrame_blockPass _ u)
  unfold processEffect
  rcases processPasses_cases (EngineFrame s)
      (fun u hu _ _ => ((pass u hu).trans (engineFrame_emitPhase _ _)).setPh _)
      ((s.len.toNat + 63) / 64 + 1) (initPhase s) (engineFrame_initPhase s) with
    ⟨u, hu, h⟩ | ⟨u, hu, -, -, h⟩ <;> rw [h]
  · exact hu.setFin true
  · exact (pass u hu).raise .bus

theorem engineFrame_commandEffect (i : Instr) (s : State) : EngineFrame s (commandEffect i s) := by
  cases i with
  | nop => exact (EngineFrame.refl s).finish _
  | init => exact (engineFrame_initPhase s).finish _
  | loadx => exact (engineFrame_loadPhase false s).finish _
  | dround => exact (engineFrame_roundPhase false s).finish _
  | feed => exact (engineFrame_feedPhase false s).finish _
  | emit n => exact engineFrame_emitEffect n s
  | block => exact (engineFrame_blockPass false s).finish _
  | process => exact engineFrame_processEffect s

/-- Whether it is accepted, refused or executed, a command keeps the frame. -/
theorem engineFrame_exec {i : Instr} {s t : State} (h : exec i s = .next t) : EngineFrame s t := by
  rcases exec_cases i s with ⟨-, e⟩ | ⟨-, -, e⟩ | ⟨-, -, e⟩ <;> cases e.symm.trans h
  · exact engineFrame_commandEffect i s
  · exact engineFrame_accept s i
  · exact (EngineFrame.refl s).raise _

theorem engineFrame_blockPhase (s : State) : EngineFrame s (blockPhase s) := by
  unfold blockPhase
  cases s.ph with
  | loadp => exact (engineFrame_loadPhase false s).setPh _
  | roundp =>
    dsimp only
    split
    · exact engineFrame_roundPhase false s
    · exact (engineFrame_roundPhase false s).setPh _
  | feedp => exact (engineFrame_feedPhase false s).finish _
  | idle | initp | emitp => exact .refl s

theorem engineFrame_processPhase (s : State) : EngineFrame s (processPhase s) := by
  unfold processPhase
  cases s.ph with
  | initp =>
    dsimp only
    split
    · exact (engineFrame_initPhase s).finish _
    · exact (engineFrame_initPhase s).setPh _
  | loadp => exact (engineFrame_loadPhase _ s).setPh _
  | roundp =>
    dsimp only
    split
    · exact engineFrame_roundPhase _ s
    · exact (engineFrame_roundPhase _ s).setPh _
  | feedp => exact (engineFrame_feedPhase _ s).setPh _
  | emitp =>
    dsimp only
    split
    · split
      · exact (engineFrame_emitPhase _ s).finish _
      · exact (engineFrame_emitPhase _ s).setPh _
    · exact (EngineFrame.refl s).raise _
  | idle => exact .refl s

/-- A stage command has exactly one phase, its effect (10_state.md R38). -/
theorem phaseStep_eq_commandEffect {i : Instr} (s : State) (hb : i ≠ .block) (hp : i ≠ .process) :
    phaseStep i s = commandEffect i s := by
  cases i with
  | block => exact absurd rfl hb
  | process => exact absurd rfl hp
  | nop | init | loadx | dround | feed | emit => rfl

theorem engineFrame_phaseStep (i : Instr) (s : State) : EngineFrame s (phaseStep i s) := by
  by_cases hb : i = .block
  · subst hb
    exact engineFrame_blockPhase s
  · by_cases hp : i = .process
    · subst hp
      exact engineFrame_processPhase s
    · rw [phaseStep_eq_commandEffect s hb hp]
      exact engineFrame_commandEffect i s

theorem engineFrame_engineTurn {g : Grain} {s t : State} (h : engineTurn g s = .next t) : EngineFrame s t := by
  rcases engineTurn_cases g s with ⟨-, e⟩ | ⟨-, -, -, e⟩ | ⟨i, -, -, -, -, e⟩ | ⟨i, -, -, e⟩
  · cases e.symm.trans h
    exact .refl s
  · cases e.symm.trans h
    exact engineFrame_complete s
  · exact engineFrame_exec (e.symm.trans h)
  · cases e.symm.trans h
    exact engineFrame_phaseStep i s

/-! ### What a host write can do -/

/-- Everything `Dispatch` can do. -/
theorem dispatchWord_cases {w : Word} {s t : State} (h : dispatchWord w s = .next t) :
    (s.err ≠ .none ∧ t = s) ∨ (s.err = .none ∧ decode w = none ∧ t = s.raise .illcmd) ∨
    (s.err = .none ∧ ∃ i, decode w = some i ∧ exec i s = .next t) := by
  cases he : s.err with
  | none =>
    right
    simp only [dispatchWord, he] at h
    cases hd : decode w with
    | none =>
      rw [hd] at h
      cases h
      exact .inl ⟨rfl, rfl, rfl⟩
    | some i =>
      rw [hd] at h
      exact .inr ⟨rfl, i, rfl, h⟩
  | illcmd | rounds | seq | range | overlap | bus =>
    simp only [dispatchWord, he] at h
    cases h
    exact .inl ⟨by decide, rfl⟩

/-- Everything a `WR` can do: it is dropped, dispatched, or writes its register. -/
theorem writeAt_cases {off : Nat} {data : Word} {s t : State} (h : writeAt off data s = .next t) :
    (s.busy = true ∧ t = { s with wrb := true }) ∨
    (s.busy = false ∧ regAt off = .cmd ∧ dispatchWord data s = .next t) ∨
    (s.busy = false ∧ regAt off ≠ .cmd ∧ t = writeReg (regAt off) data s) := by
  unfold writeAt at h
  cases hb : s.busy with
  | true =>
    rw [hb] at h
    cases h
    exact .inl ⟨rfl, rfl⟩
  | false =>
    right
    rw [hb] at h
    simp only [Bool.false_eq_true, if_false] at h
    split at h
    · rename_i hr
      exact .inl ⟨rfl, hr, h⟩
    · rename_i hr
      cases h
      exact .inr ⟨rfl, hr, rfl⟩

/-! ### The parameters -/

/-- The parameters of `t` are those of `s`, and `t` fits them. -/
abbrev ParamsKept (s t : State) : Prop := t.config = s.config ∧ ParamInv t

theorem EngineFrame.paramsKept {s t : State} (h : EngineFrame s t) (hs : ParamInv s) : ParamsKept s t := by
  obtain ⟨hlegal, hslots, hven, hsrc, hdst, hraces⟩ := hs
  obtain ⟨ecfg, esrc, edst, -⟩ := h.registers
  refine ⟨h.config, ?_⟩
  rw [ParamInv, h.config, h.slots, ecfg, esrc, edst]
  exact ⟨hlegal, hslots, hven, hsrc, hdst, fun r hr => hraces r (h.races hr)⟩

theorem dispatchWord_paramsKept {w : Word} {s t : State} (hs : ParamInv s) (h : dispatchWord w s = .next t) :
    ParamsKept s t := by
  rcases dispatchWord_cases h with ⟨-, rfl⟩ | ⟨-, -, rfl⟩ | ⟨-, i, -, hx⟩
  · exact ⟨rfl, hs⟩
  · exact ((EngineFrame.refl s).raise _).paramsKept hs
  · exact (engineFrame_exec hx).paramsKept hs

/-- An address register takes `AW` bits (10_state.md R24). -/
theorem truncAW_lt (c : Config) (w : Word) : (truncAW c w).toNat < 2 ^ c.aw := by
  rw [truncAW, BitVec.toNat_ofNat]
  exact (Nat.mod_le _ _).trans_lt (Nat.mod_lt _ (Nat.two_pow_pos _))

/-- `VEN` is hardwired to 0 when `BPI = 1` (10_state.md R22). -/
theorem one_lt_count_of_cfgOf_ven {c : Config} {data : Word} (h : (cfgOf c data).ven = true) : 1 < c.bpi.count := by
  simp only [cfgOf, Bool.and_eq_true, decide_eq_true_eq] at h
  exact h.1

theorem writeReg_paramsKept (r : Reg) (data : Word) {s : State} (hs : ParamInv s) :
    ParamsKept s (writeReg r data s) := by
  obtain ⟨hlegal, hslots, hven, hsrc, hdst, hraces⟩ := hs
  cases r with
  | cfg => exact ⟨rfl, hlegal, hslots, one_lt_count_of_cfgOf_ven, hsrc, hdst, hraces⟩
  | src => exact ⟨rfl, hlegal, hslots, hven, truncAW_lt _ _, hdst, hraces⟩
  | dst => exact ⟨rfl, hlegal, hslots, hven, hsrc, truncAW_lt _ _, hraces⟩
  | cmd | status | cap | len | ctr0 | ctr1 | nonce0 | nonce1 | const | key | reserved =>
    exact ⟨rfl, hlegal, hslots, hven, hsrc, hdst, hraces⟩

theorem writeAt_paramsKept {off : Nat} {data : Word} {s t : State} (hs : ParamInv s)
    (h : writeAt off data s = .next t) : ParamsKept s t := by
  rcases writeAt_cases h with ⟨-, rfl⟩ | ⟨-, -, hd⟩ | ⟨-, -, rfl⟩
  · exact ⟨rfl, hs⟩
  · exact dispatchWord_paramsKept hs hd
  · exact writeReg_paramsKept _ data hs

theorem hostWrite_paramsKept {addr size : Nat} {data : Word} {s t : State} (hs : ParamInv s)
    (h : hostWrite addr size data s = .next t) : ParamsKept s t := by
  unfold hostWrite at h
  split at h
  · cases h
    exact ⟨rfl, hs⟩
  · cases h
    exact ⟨rfl, hs⟩
  · exact writeAt_paramsKept (s := { s with bus := .ack }) hs h

theorem hostRead_paramsKept (addr size : Nat) {s : State} (hs : ParamInv s) :
    ParamsKept s (hostRead addr size s) := by
  unfold hostRead
  split <;> exact ⟨rfl, hs⟩

/-- A write that is recorded as a race was admitted by `MemOK` (log 23). -/
theorem memWrite_paramsKept (a : Nat) (v : Byte) {s : State} (hs : ParamInv s) :
    ParamsKept s (memWrite a v s) := by
  rcases memWrite_cases a v s with ⟨-, e⟩ | ⟨hok, -, e⟩ | ⟨-, -, -, e⟩ <;> rw [e]
  · exact ⟨rfl, hs⟩
  · obtain ⟨hlegal, hslots, hven, hsrc, hdst, hraces⟩ := hs
    exact ⟨rfl, hlegal, hslots, hven, hsrc, hdst, List.forall_mem_cons.mpr ⟨hok, hraces⟩⟩
  · exact ⟨rfl, hs⟩

theorem memRead_paramsKept (a : Nat) {s : State} (hs : ParamInv s) : ParamsKept s (memRead a s) := by
  rcases memRead_cases a s with ⟨-, e⟩ | ⟨-, -, e⟩ | ⟨-, -, e⟩ <;> rw [e] <;> exact ⟨rfl, hs⟩

/-- The state after reset fits every legal parameter set (10_state.md R40). -/
theorem resetWith_paramInv {c : Config} (h : c.Legal) : ParamInv (State.resetWith c) :=
  ⟨h, List.length_replicate, of_decide_eq_true, Nat.two_pow_pos _, Nat.two_pow_pos _, fun _ hr => nomatch hr⟩

theorem handle_paramsKept {e : Event} {s t : State} (hs : ParamInv s) (h : handle e s = .next t) :
    ParamsKept s t := by
  cases e with
  | hostWrite addr size data => exact hostWrite_paramsKept hs h
  | hostRead addr size =>
    cases h
    exact hostRead_paramsKept addr size hs
  | hostWait g =>
    cases h
    exact ⟨rfl, hs⟩
  | engine g => exact (engineFrame_engineTurn h).paramsKept hs
  | memWrite a v =>
    cases h
    exact memWrite_paramsKept a v hs
  | memRead a =>
    cases h
    exact memRead_paramsKept a hs
  | reset =>
    cases h
    exact ⟨rfl, resetWith_paramInv hs.1⟩

/-- Settles O42: the engine keeps its frame; of the events only writes of `CFG`, `SRC` and `DST`, a recorded
race (the model's own, log 23) and reset touch what the parameters bound, and each stays inside the bound. -/
theorem stepKeepsParameters : Obligations.StepKeepsParameters := by
  intro s t hs h
  rcases step_cases h with ⟨-, h⟩ | ⟨e, rest, -, h⟩
  · exact (engineFrame_engineTurn h).paramsKept hs
  · exact handle_paramsKept (s := { s with inbox := rest }) hs h

end Sys2Proof.Machine
end

section
/-! PROOFS. The sequencer: the flag invariants of 10_state.md R37 and the positions of R38 hold at reset and
after every step. -/

namespace Sys2Proof.Machine

/-! ### A command in progress -/

/-- Command `i` is in progress, no error is latched, and the flags of the block pipeline are consistent
(10_state.md R37). -/
structure Running (i : Instr) (s : State) : Prop where
  current : s.current = some i
  wf : i.wf = true
  err : s.err = .none
  done : s.done = false
  sv_of_xv : s.xv = true → s.sv = true
  sv_of_kv : s.kv = true → s.sv = true
  drc_zero : s.xv = false → s.drc = 0
  drc_le : s.xv = true → s.drc.toNat ≤ s.ndr.toNat

theorem running_of_seqInv {i : Instr} {s : State} (h : SeqInv s) (hc : s.current = some i) :
    Running i s ∧ ((s.fin = true ∧ EndInv i s) ∨ (s.fin = false ∧ PhaseInv i s)) := by
  obtain ⟨⟨hxv, hkv, hzero, hle, herr, hdone⟩, -, hbusy⟩ := h
  have hb := busy_of_current hc
  obtain ⟨j, hj, hwf, hpos⟩ := hbusy hb
  obtain rfl : j = i := Option.some.inj (hj.symm.trans hc)
  have hd : s.done = false := by
    cases hd : s.done with
    | false => rfl
    | true => rw [(hdone hd).1] at hb; cases hb
  exact ⟨⟨hc, hwf, herr hb, hd, hxv, hkv, hzero, hle⟩, hpos⟩

namespace Running

variable {i : Instr} {s : State}

theorem flagInv (h : Running i s) : FlagInv s :=
  ⟨h.sv_of_xv, h.sv_of_kv, h.drc_zero, h.drc_le, fun _ => h.err, fun hd => nomatch h.done.symm.trans hd⟩

theorem seqInv (h : Running i s) (hpos : (s.fin = true ∧ EndInv i s) ∨ (s.fin = false ∧ PhaseInv i s)) :
    SeqInv s :=
  ⟨h.flagInv, fun hb => (nomatch (busy_of_current h.current).symm.trans hb),
    fun _ => ⟨i, h.current, h.wf, hpos⟩⟩

theorem setPh (h : Running i s) (p : Phase) : Running i { s with ph := p } := { h with }

theorem setFin (h : Running i s) (b : Bool) : Running i { s with fin := b } := { h with }

theorem seqInv_of_phaseInv (h : Running i s) (hf : s.fin = false) (hp : PhaseInv i s) : SeqInv s :=
  h.seqInv (.inr ⟨hf, hp⟩)

theorem finish_seqInv (h : Running i s) (p : Phase) (he : EndInv i s) : SeqInv (s.finish p) :=
  (show Running i (s.finish p) from { h with }).seqInv (.inl ⟨rfl, he⟩)

theorem initPhase (h : Running i s) : Running i (initPhase s) :=
  { h with
    sv_of_xv := fun _ => rfl
    sv_of_kv := fun _ => rfl
    drc_zero := fun _ => rfl
    drc_le := nofun }

theorem loadPhase (h : Running i s) (vec : Bool) (hs : s.sv = true) : Running i (loadPhase vec s) :=
  { h with
    sv_of_xv := fun _ => hs
    drc_zero := nofun
    drc_le := fun _ => Nat.zero_le _ }

theorem feedPhase (h : Running i s) (vec : Bool) (hs : s.sv = true) : Running i (feedPhase vec s) :=
  { h with
    sv_of_xv := nofun
    sv_of_kv := fun _ => hs
    drc_zero := fun _ => rfl
    drc_le := nofun }

theorem emitPhase (h : Running i s) (n : Nat) : Running i (emitPhase n s) :=
  { h with sv_of_kv := nofun }

end Running

theorem Ndr.toNat_pos (n : Ndr) : 0 < n.toNat := by cases n <;> decide

theorem Ndr.toNat_le (n : Ndr) : n.toNat ≤ 10 := by cases n <;> decide

/-- The 5-bit counter does not wrap while double-rounds are left. -/
theorem roundPhase_drc_toNat {s : State} (vec : Bool) (h : s.drc.toNat < s.ndr.toNat) :
    (roundPhase vec s).drc.toNat = s.drc.toNat + 1 := by
  have hn := s.ndr.toNat_le
  rw [roundPhase_drc, BitVec.toNat_add]
  exact Nat.mod_eq_of_lt (show s.drc.toNat + 1 < 32 by omega)

/-- After a double-round another one is left, or all are done. -/
theorem roundPhase_rounds {s : State} (vec : Bool) (h : RoundsLeft s) :
    ((roundPhase vec s).drc.toNat < (roundPhase vec s).ndr.toNat ∧ RoundsLeft (roundPhase vec s)) ∨
    (¬(roundPhase vec s).drc.toNat < (roundPhase vec s).ndr.toNat ∧ RoundsDone (roundPhase vec s)) := by
  obtain ⟨hx, hd⟩ := h
  have e := roundPhase_drc_toNat vec hd
  by_cases hlt : (roundPhase vec s).drc.toNat < (roundPhase vec s).ndr.toNat
  · exact .inl ⟨hlt, hx, hlt⟩
  · refine .inr ⟨hlt, hx, ?_⟩
    rw [roundPhase_ndr] at hlt ⊢
    omega

theorem Running.roundPhase {i : Instr} {s : State} (h : Running i s) (vec : Bool) (hl : RoundsLeft s) :
    Running i (roundPhase vec s) :=
  { h with
    drc_zero := fun hx => nomatch hl.1.symm.trans hx
    drc_le := fun _ => by rw [roundPhase_drc_toNat vec hl.2]; exact hl.2 }

theorem Running.blockPass {i : Instr} {s : State} (h : Running i s) (vec : Bool) (hs : s.sv = true) :
    Running i (blockPass vec s) := by
  obtain ⟨x, ks, sl, e⟩ := blockPass_frame vec s
  rw [e]
  exact { h with
    sv_of_xv := nofun
    sv_of_kv := fun _ => hs
    drc_zero := fun _ => rfl
    drc_le := nofun }

theorem blockPass_sv (vec : Bool) (s : State) : (blockPass vec s).sv = s.sv := by
  obtain ⟨x, ks, sl, e⟩ := blockPass_frame vec s
  rw [e]

/-- The checks of a call read registers and parameters only, which no command writes. -/
theorem EngineFrame.callCheck {s t : State} (h : EngineFrame s t) : callCheck t = callCheck s := by
  obtain ⟨ecfg, esrc, edst, elen, -⟩ := h.registers
  simp only [Machine.callCheck, ecfg, esrc, edst, elen, h.config]

/-! ### The engine's turns -/

/-- BUS ends a command at rest, with no flag set (60_exceptions.md R151). -/
theorem raise_bus_seqInv (s : State) : SeqInv (s.raise .bus) :=
  ⟨⟨nofun, nofun, fun _ => rfl, nofun, nofun, nofun⟩, fun _ => ⟨rfl, rfl, rfl⟩, nofun⟩

theorem emitEffect_seqInv {n : BitVec 7} {s : State} (h : Running (.emit n) s) (hk : s.kv = true) :
    SeqInv (emitEffect n s) := by
  unfold emitEffect
  split
  · exact (h.emitPhase _).finish_seqInv _ ⟨.inr (h.sv_of_kv hk), nofun⟩
  · exact raise_bus_seqInv s

theorem blockPhase_seqInv {s : State} (h : Running .block s) (hf : s.fin = false) (hp : PhaseInv .block s) :
    SeqInv (blockPhase s) := by
  obtain ⟨hs, hp⟩ := hp
  unfold blockPhase
  rcases hp with hph | ⟨hph, hl⟩ | ⟨hph, -⟩ <;> rw [hph] <;> dsimp only
  · exact ((h.loadPhase _ hs).setPh _).seqInv_of_phaseInv hf ⟨hs, .inr (.inl ⟨rfl, rfl, s.ndr.toNat_pos⟩)⟩
  · have hr := h.roundPhase false hl
    rcases roundPhase_rounds false hl with ⟨hlt, hl'⟩ | ⟨hlt, hd⟩
    · rw [if_pos hlt]
      exact hr.seqInv_of_phaseInv hf ⟨hs, .inr (.inl ⟨hph, hl'⟩)⟩
    · rw [if_neg hlt]
      exact (hr.setPh _).seqInv_of_phaseInv hf ⟨hs, .inr (.inr ⟨rfl, hd⟩)⟩
  · exact (h.feedPhase _ hs).finish_seqInv _ ⟨.inr hs, nofun⟩

theorem processPhase_seqInv {s : State} (h : Running .process s) (hf : s.fin = false)
    (hp : PhaseInv .process s) : SeqInv (processPhase s) := by
  obtain ⟨hc, hp⟩ := hp
  unfold processPhase
  rcases hp with hph | ⟨hs, hrem, ⟨hph, -, hk⟩ | ⟨hph, hl, hk⟩ | ⟨hph, -, -⟩ | ⟨hph, hx, -⟩⟩ <;>
    rw [hph] <;> dsimp only
  · split
    · exact h.initPhase.finish_seqInv _ ⟨.inr rfl, fun _ => hc⟩
    · rename_i hr
      exact (h.initPhase.setPh _).seqInv_of_phaseInv hf
        ⟨hc, .inr ⟨rfl, BitVec.toNat_pos_of_ne_zero hr, .inl ⟨rfl, rfl, rfl⟩⟩⟩
  · exact ((h.loadPhase _ hs).setPh _).seqInv_of_phaseInv hf
      ⟨hc, .inr ⟨hs, hrem, .inr (.inl ⟨rfl, ⟨rfl, s.ndr.toNat_pos⟩, hk⟩)⟩⟩
  · have hr := h.roundPhase s.vectorPass hl
    rcases roundPhase_rounds s.vectorPass hl with ⟨hlt, hl'⟩ | ⟨hlt, hd⟩
    · rw [if_pos hlt]
      exact hr.seqInv_of_phaseInv hf ⟨hc, .inr ⟨hs, hrem, .inr (.inl ⟨hph, hl', hk⟩)⟩⟩
    · rw [if_neg hlt]
      exact (hr.setPh _).seqInv_of_phaseInv hf ⟨hc, .inr ⟨hs, hrem, .inr (.inr (.inl ⟨rfl, hd, hk⟩))⟩⟩
  · exact ((h.feedPhase _ hs).setPh _).seqInv_of_phaseInv hf
      ⟨hc, .inr ⟨hs, hrem, .inr (.inr (.inr ⟨rfl, rfl, rfl⟩))⟩⟩
  · split
    · split
      · exact (h.emitPhase _).finish_seqInv _ ⟨.inr hs, fun _ => hc⟩
      · rename_i hr
        exact ((h.emitPhase _).setPh _).seqInv_of_phaseInv hf
          ⟨hc, .inr ⟨hs, BitVec.toNat_pos_of_ne_zero hr, .inl ⟨rfl, hx, rfl⟩⟩⟩
    · exact raise_bus_seqInv s

/-- One phase of the command in progress. -/
theorem phaseStep_seqInv {i : Instr} {s : State} (h : Running i s) (hf : s.fin = false) (hp : PhaseInv i s) :
    SeqInv (phaseStep i s) := by
  cases i with
  | nop => exact h.finish_seqInv _ ⟨.inl rfl, nofun⟩
  | init => exact h.initPhase.finish_seqInv _ ⟨.inr rfl, nofun⟩
  | loadx => exact (h.loadPhase _ hp.2).finish_seqInv _ ⟨.inr hp.2, nofun⟩
  | dround => exact (h.roundPhase _ hp.2).finish_seqInv _ ⟨.inr (h.sv_of_xv hp.2.1), nofun⟩
  | feed =>
    have hs := h.sv_of_xv hp.2.1
    exact (h.feedPhase _ hs).finish_seqInv _ ⟨.inr hs, nofun⟩
  | emit n => exact emitEffect_seqInv h hp.2.1
  | block => exact blockPhase_seqInv h hf hp
  | process => exact processPhase_seqInv h hf hp

/-- What every pass of a call keeps. -/
structure InCall (s : State) : Prop where
  running : Running .process s
  sv : s.sv = true
  check : callCheck s = .none

theorem InCall.pass {s : State} (h : InCall s) :
    InCall { emitPhase s.passBytes (blockPass s.vectorPass s) with ph := .emitp } where
  running := ((h.running.blockPass _ h.sv).emitPhase _).setPh _
  sv := (blockPass_sv _ s).trans h.sv
  check := (engineFrame_blockPass _ s).callCheck.trans h.check

theorem processEffect_seqInv {s : State} (h : Running .process s) (hc : callCheck s = .none) :
    SeqInv (processEffect s) := by
  have h0 : InCall (initPhase s) := ⟨h.initPhase, rfl, hc⟩
  unfold processEffect
  rcases processPasses_cases InCall (fun u hu _ _ => hu.pass) ((s.len.toNat + 63) / 64 + 1) _ h0 with
    ⟨u, hu, e⟩ | ⟨u, -, -, -, e⟩ <;> rw [e]
  · exact (hu.running.setFin true).seqInv (.inl ⟨rfl, .inr hu.sv, fun _ => hu.check⟩)
  · exact raise_bus_seqInv _

/-- The whole effect of the command in progress. -/
theorem commandEffect_seqInv {i : Instr} {s : State} (h : Running i s) (hf : s.fin = false)
    (hp : PhaseInv i s) : SeqInv (commandEffect i s) := by
  by_cases hb : i = .block
  · subst hb
    exact (h.blockPass false hp.1).finish_seqInv _ ⟨.inr ((blockPass_sv _ s).trans hp.1), nofun⟩
  · by_cases hpr : i = .process
    · subst hpr
      exact processEffect_seqInv h hp.1
    · rw [← phaseStep_eq_commandEffect s hb hpr]
      exact phaseStep_seqInv h hf hp

/-- Completion leaves the engine at rest with the flags as they are. -/
theorem complete_seqInv {i : Instr} {s : State} (h : Running i s) : SeqInv s.complete :=
  ⟨⟨h.sv_of_xv, h.sv_of_kv, h.drc_zero, h.drc_le, nofun, fun _ => ⟨rfl, h.err⟩⟩, fun _ => ⟨rfl, rfl, rfl⟩, nofun⟩

theorem engineTurn_seqInv {g : Grain} {s t : State} (hs : SeqInv s) (h : engineTurn g s = .next t) :
    SeqInv t := by
  rcases engineTurn_cases g s with ⟨-, e⟩ | ⟨i, hc, -, e⟩ | ⟨i, hc, hf, -, -, e⟩ | ⟨i, hc, hf, e⟩
  · cases e.symm.trans h
    exact hs
  · cases e.symm.trans h
    exact complete_seqInv (running_of_seqInv hs hc).1
  all_goals
    obtain ⟨hr, hend | ⟨-, hp⟩⟩ := running_of_seqInv hs hc
    · rw [hf] at hend
      cases hend.1
  · rw [exec_eq_runCommand, runCommand_busy (busy_of_current hc)] at e
    cases e.symm.trans h
    exact commandEffect_seqInv hr hf hp
  · cases e.symm.trans h
    exact phaseStep_seqInv hr hf hp

/-! ### Acceptance -/

/-- The decoder answers well-formed commands only (30_encoding.md R70). -/
theorem wf_of_decode {w : Word} {i : Instr} (h : decode w = some i) : i.wf = true := by
  unfold decode at h
  split at h
  · split at h
    · rename_i hn
      cases h
      exact decide_eq_true hn.2
    · cases h
  · split at h
    · unfold formatZ at h
      repeat' split at h
      all_goals cases h
      all_goals rfl
    · cases h

theorem baseCheck_eq_none {s : State} (h : baseCheck s = .none) : s.sv = true := by
  unfold baseCheck at h
  split at h
  · assumption
  · cases h

theorem droundCheck_eq_none {s : State} (h : droundCheck s = .none) : RoundsLeft s := by
  unfold droundCheck at h
  repeat' split at h
  · cases h
  · exact ⟨by assumption, by omega⟩
  · cases h

theorem feedCheck_eq_none {s : State} (h : feedCheck s = .none) : RoundsDone s := by
  unfold feedCheck at h
  repeat' split at h
  · exact ⟨by assumption, by assumption⟩
  · cases h
  · cases h

theorem emitCheck_eq_none {n : BitVec 7} {s : State} (h : emitCheck n s = .none) :
    s.kv = true ∧ n.toNat ≤ s.rem.toNat := by
  unfold emitCheck at h
  repeat' split at h
  · cases h
  · exact ⟨by assumption, by omega⟩
  · cases h

/-- A command that passes its checks stands before its first phase with what that phase needs. -/
theorem accept_phaseInv {i : Instr} {s : State} (hwf : i.wf = true) (hc : commandCheck i s = .none) :
    PhaseInv i (s.accept i) := by
  cases i with
  | nop => rfl
  | init => exact ⟨rfl, hc⟩
  | loadx => exact ⟨rfl, baseCheck_eq_none hc⟩
  | dround => exact ⟨rfl, droundCheck_eq_none hc⟩
  | feed => exact ⟨rfl, feedCheck_eq_none hc⟩
  | emit n =>
    obtain ⟨hk, hr⟩ := emitCheck_eq_none hc
    exact ⟨rfl, hk, of_decide_eq_true hwf, hr⟩
  | block => exact ⟨baseCheck_eq_none hc, .inl rfl⟩
  | process => exact ⟨hc, .inl rfl⟩

theorem accept_seqInv {i : Instr} {s : State} (hs : SeqInv s) (he : s.err = .none) (hwf : i.wf = true)
    (hc : commandCheck i s = .none) : SeqInv (s.accept i) := by
  obtain ⟨⟨hxv, hkv, hzero, hle, -⟩, -⟩ := hs
  exact Running.seqInv_of_phaseInv
    ⟨current_of_inProgress ⟨rfl, rfl, rfl, rfl, rfl⟩, hwf, he, rfl, hxv, hkv, hzero, hle⟩ rfl
    (accept_phaseInv hwf hc)

/-- A failure found at the `CMD` write leaves the engine at rest (60_exceptions.md R150). -/
theorem raise_seqInv {s : State} (hs : SeqInv s) (hb : s.busy = false) (e : Err) : SeqInv (s.raise e) := by
  by_cases he : e = .bus
  · subst he
    exact raise_bus_seqInv s
  · rw [raise_check s e he]
    obtain ⟨⟨hxv, hkv, hzero, hle, -⟩, hrest, -⟩ := hs
    have hnb : ¬s.busy = true := by simp [hb]
    exact ⟨⟨hxv, hkv, hzero, hle, fun h => absurd h hnb, nofun⟩, hrest, fun h => absurd h hnb⟩

/-! ### The events -/

theorem dispatchWord_seqInv {w : Word} {s t : State} (hs : SeqInv s) (hb : s.busy = false)
    (h : dispatchWord w s = .next t) : SeqInv t := by
  rcases dispatchWord_cases h with ⟨-, rfl⟩ | ⟨-, -, rfl⟩ | ⟨he, i, hd, hx⟩
  · exact hs
  · exact raise_seqInv hs hb _
  · rcases exec_cases i s with ⟨hb', -⟩ | ⟨-, hc, e⟩ | ⟨-, -, e⟩
    · rw [hb] at hb'
      cases hb'
    · cases e.symm.trans hx
      exact accept_seqInv hs he (wf_of_decode hd) hc
    · cases e.symm.trans hx
      exact raise_seqInv hs hb _

/-- A register write on an engine at rest clears at most `ERR` of what the invariants speak of. -/
theorem writeReg_seqInv (r : Reg) (data : Word) {s : State} (hs : SeqInv s) (hb : s.busy = false) :
    SeqInv (writeReg r data s) := by
  have hnb : ¬s.busy = true := by simp [hb]
  obtain ⟨⟨hxv, hkv, hzero, hle, herr, hdone⟩, hrest, -⟩ := hs
  cases r with
  | status =>
    refine ⟨⟨hxv, hkv, hzero, hle, fun h => absurd h hnb, fun hd => ⟨hb, ?_⟩⟩, hrest, fun h => absurd h hnb⟩
    show (if data.getLsbD 31 then Err.none else s.err) = .none
    rw [(hdone hd).2, ite_self]
  | cmd | cfg | cap | src | dst | len | ctr0 | ctr1 | nonce0 | nonce1 | const | key | reserved =>
    exact ⟨⟨hxv, hkv, hzero, hle, herr, hdone⟩, hrest, fun h => absurd h hnb⟩

theorem writeAt_seqInv {off : Nat} {data : Word} {s t : State} (hs : SeqInv s)
    (h : writeAt off data s = .next t) : SeqInv t := by
  rcases writeAt_cases h with ⟨-, rfl⟩ | ⟨hb, -, hd⟩ | ⟨hb, -, rfl⟩
  · exact hs
  · exact dispatchWord_seqInv hs hb hd
  · exact writeReg_seqInv _ data hs hb

theorem hostWrite_seqInv {addr size : Nat} {data : Word} {s t : State} (hs : SeqInv s)
    (h : hostWrite addr size data s = .next t) : SeqInv t := by
  unfold hostWrite at h
  split at h
  · cases h
    exact hs
  · cases h
    exact hs
  · exact writeAt_seqInv (s := { s with bus := .ack }) hs h

theorem hostRead_seqInv (addr size : Nat) {s : State} (hs : SeqInv s) : SeqInv (hostRead addr size s) := by
  unfold hostRead
  split <;> exact hs

theorem memWrite_seqInv (a : Nat) (v : Byte) {s : State} (hs : SeqInv s) : SeqInv (memWrite a v s) := by
  rcases memWrite_cases a v s with ⟨-, e⟩ | ⟨-, -, e⟩ | ⟨-, -, -, e⟩ <;> rw [e] <;> exact hs

theorem memRead_seqInv (a : Nat) {s : State} (hs : SeqInv s) : SeqInv (memRead a s) := by
  rcases memRead_cases a s with ⟨-, e⟩ | ⟨-, -, e⟩ | ⟨-, -, e⟩ <;> rw [e] <;> exact hs

theorem resetWith_seqInv (c : Config) : SeqInv (State.resetWith c) :=
  ⟨⟨nofun, nofun, fun _ => rfl, nofun, nofun, nofun⟩, fun _ => ⟨rfl, rfl, rfl⟩, nofun⟩

theorem handle_seqInv {e : Event} {s t : State} (hs : SeqInv s) (h : handle e s = .next t) : SeqInv t := by
  cases e with
  | hostWrite addr size data => exact hostWrite_seqInv hs h
  | hostRead addr size =>
    cases h
    exact hostRead_seqInv addr size hs
  | hostWait g =>
    cases h
    exact hs
  | engine g => exact engineTurn_seqInv hs h
  | memWrite a v =>
    cases h
    exact memWrite_seqInv a v hs
  | memRead a =>
    cases h
    exact memRead_seqInv a hs
  | reset =>
    cases h
    exact resetWith_seqInv s.config

/-- Settles O43: each phase of the command in progress establishes what the next one needs, acceptance what
the first one needs; the events otherwise leave the flags and the position alone. NOP's position at IDLE
(log 8) and `fin` (log 9) are the model's own. -/
theorem stepKeepsSequencerInvariant : Obligations.StepKeepsSequencerInvariant := by
  intro s t hs h
  rcases step_cases h with ⟨-, h⟩ | ⟨e, rest, -, h⟩
  · exact engineTurn_seqInv hs h
  · exact handle_seqInv (s := { s with inbox := rest }) hs h

end Sys2Proof.Machine
end

section
/-! PROOFS. What holds no value is never read (10_state.md R33, R37, R40): the fields a validity flag guards,
the agreement of two states on everything that holds a value, and that every step keeps it. -/

namespace Sys2Proof.Machine

/-! ### The fields that may hold no value -/

/-- The fields that hold no value while some flag is 0, or outside a vector iteration. -/
structure Hidden where
  S : Matrix
  X : Matrix
  KS : Block
  slots : List Slot
  sp : Word
  dp : Word
  rem : Word
  ndr : Ndr
  ksl : Bool
  venl : Bool

/-- These fields of a state. -/
def State.hidden (s : State) : Hidden := ⟨s.S, s.X, s.KS, s.slots, s.sp, s.dp, s.rem, s.ndr, s.ksl, s.venl⟩

/-- The state with these fields replaced. -/
def State.withHidden (s : State) (k : Hidden) : State :=
  { s with
    S := k.S, X := k.X, KS := k.KS, slots := k.slots, sp := k.sp, dp := k.dp, rem := k.rem, ndr := k.ndr
    ksl := k.ksl, venl := k.venl }

/-- Do `s` and `u` agree on everything that holds a value, the contents of the slots aside? -/
structure Agree (s u : State) : Prop where
  visible : u = s.withHidden u.hidden
  S : s.sv = true → u.S = s.S
  sp : s.sv = true → u.sp = s.sp
  dp : s.sv = true → u.dp = s.dp
  rem : s.sv = true → u.rem = s.rem
  ndr : s.sv = true → u.ndr = s.ndr
  ksl : s.sv = true → u.ksl = s.ksl
  venl : s.sv = true → u.venl = s.venl
  X : s.xv = true → u.X = s.X
  KS : s.kv = true → u.KS = s.KS
  slots : u.slots.length = s.slots.length

/-- Do the slots of `s` and `u` agree where they hold a value? -/
structure SlotsAgree (s u : State) : Prop where
  x : s.xv = true → s.slotsLive = true → u.slots.map Slot.x = s.slots.map Slot.x
  ks : s.kv = true → s.slotsLive = true → u.slots.map Slot.ks = s.slots.map Slot.ks

/-- `s` and `u` agree on everything that holds a value. -/
abbrev SameHeld (s u : State) : Prop := Agree s u ∧ SlotsAgree s u

theorem slotsAgree_of_not_live {s u : State} (h : s.slotsLive = false) : SlotsAgree s u :=
  ⟨fun _ hl => absurd (h.symm.trans hl) nofun, fun _ hl => absurd (h.symm.trans hl) nofun⟩

/-! ### Agreement is equality of the masked states -/

/-- Masking two values under the same flag makes them equal exactly when they are equal while it is 1. -/
theorem mask_eq_mask_iff {α : Type} {b : Bool} {x y z : α} :
    ((if b then x else z) = if b then y else z) ↔ (b = true → y = x) := by
  cases b <;> simp [eq_comm]

/-- A list of slots with what is not wanted replaced. -/
def maskSlots (x ks : Bool) (l : List Slot) : List Slot :=
  l.map fun sl => { x := if x then sl.x else Matrix.zero, ks := if ks then sl.ks else zeroBlock }

theorem maskSlots_cons (x ks : Bool) (a : Slot) (l : List Slot) :
    maskSlots x ks (a :: l) =
      { x := if x then a.x else Matrix.zero, ks := if ks then a.ks else zeroBlock } :: maskSlots x ks l := rfl

theorem maskSlots_eq_iff {x ks : Bool} {l l' : List Slot} :
    maskSlots x ks l = maskSlots x ks l' ↔
      l'.length = l.length ∧ (x = true → l'.map Slot.x = l.map Slot.x) ∧
        (ks = true → l'.map Slot.ks = l.map Slot.ks) := by
  induction l generalizing l' with
  | nil => cases l' <;> simp [maskSlots]
  | cons a l ih =>
    cases l' with
    | nil => simp [maskSlots]
    | cons b l' =>
      rw [maskSlots_cons, maskSlots_cons, List.cons.injEq, Slot.mk.injEq, ih]
      simp only [mask_eq_mask_iff, List.length_cons, Nat.add_right_cancel_iff, List.map_cons, List.cons.injEq,
        imp_and]
      tauto

/-- While no flag but `SV` stands alone, the mask keeps the slots' contents as the flags and the pass say. -/
theorem masked_slots {s : State} (hx : s.xv = true → s.sv = true) (hk : s.kv = true → s.sv = true) :
    s.masked.slots = maskSlots (s.xv && s.slotsLive) (s.kv && s.slotsLive) s.slots := by
  cases hsv : s.sv with
  | true => simp [State.masked, maskSlots, State.slotsLive, State.vectorPass, hsv]
  | false => simp_all [State.masked, maskSlots]

theorem slotsLive_withHidden {s : State} {k : Hidden} (hrem : k.rem = s.rem) (hvenl : k.venl = s.venl) :
    (s.withHidden k).slotsLive = s.slotsLive := by
  simp only [State.slotsLive, State.vectorPass, State.withHidden, hrem, hvenl]

/-- The mask of two states that agree is the same, but for what it looks at in the slots. -/
theorem masked_slots_withHidden {s : State} {k : Hidden} (hx : s.xv = true → s.sv = true)
    (hk : s.kv = true → s.sv = true) (h : Agree s (s.withHidden k)) :
    (s.withHidden k).masked.slots = maskSlots (s.xv && s.slotsLive) (s.kv && s.slotsLive) k.slots := by
  rw [masked_slots (s := s.withHidden k) hx hk]
  cases hsv : s.sv with
  | true =>
    rw [slotsLive_withHidden (h.rem hsv) (h.venl hsv)]
    rfl
  | false =>
    have hx' : s.xv = false := by simpa [hsv] using hx
    have hk' : s.kv = false := by simpa [hsv] using hk
    simp [State.withHidden, hx', hk']

theorem agree_of_masked_eq {s u : State} (h : s.masked = u.masked) : Agree s u := by
  have hv : u = s.withHidden u.hidden := (congrArg (State.withHidden · u.hidden) h).symm
  obtain ⟨k, rfl⟩ : ∃ k, u = s.withHidden k := ⟨_, hv⟩
  exact {
    visible := rfl
    S := mask_eq_mask_iff.1 (congrArg State.S h)
    sp := mask_eq_mask_iff.1 (congrArg State.sp h)
    dp := mask_eq_mask_iff.1 (congrArg State.dp h)
    rem := mask_eq_mask_iff.1 (congrArg State.rem h)
    ndr := mask_eq_mask_iff.1 (congrArg State.ndr h)
    ksl := mask_eq_mask_iff.1 (congrArg State.ksl h)
    venl := mask_eq_mask_iff.1 (congrArg State.venl h)
    X := mask_eq_mask_iff.1 (congrArg State.X h)
    KS := mask_eq_mask_iff.1 (congrArg State.KS h)
    slots := by simpa [State.masked] using (congrArg (fun t => t.slots.length) h).symm }

/-- Two states agree on everything that holds a value exactly when they are masked to the same state. -/
theorem sameHeld_iff {s u : State} (hx : s.xv = true → s.sv = true) (hk : s.kv = true → s.sv = true) :
    SameHeld s u ↔ s.masked = u.masked := by
  constructor
  · rintro ⟨h, hsl⟩
    obtain ⟨k, rfl⟩ : ∃ k, u = s.withHidden k := ⟨_, h.visible⟩
    have hslots : s.masked.slots = (s.withHidden k).masked.slots := by
      rw [masked_slots_withHidden hx hk h, masked_slots hx hk, maskSlots_eq_iff]
      simp only [Bool.and_eq_true]
      exact ⟨h.slots, fun ⟨hxv, hl⟩ => hsl.x hxv hl, fun ⟨hkv, hl⟩ => hsl.ks hkv hl⟩
    have hhid : s.masked.hidden = (s.withHidden k).masked.hidden := by
      rw [State.hidden, State.hidden, Hidden.mk.injEq]
      exact ⟨mask_eq_mask_iff.2 h.S, mask_eq_mask_iff.2 h.X, mask_eq_mask_iff.2 h.KS, hslots,
        mask_eq_mask_iff.2 h.sp, mask_eq_mask_iff.2 h.dp, mask_eq_mask_iff.2 h.rem,
        mask_eq_mask_iff.2 h.ndr, mask_eq_mask_iff.2 h.ksl, mask_eq_mask_iff.2 h.venl⟩
    exact congrArg s.withHidden hhid
  · intro h
    have ha := agree_of_masked_eq h
    obtain ⟨k, rfl⟩ : ∃ k, u = s.withHidden k := ⟨_, ha.visible⟩
    have hslots := congrArg State.slots h
    rw [masked_slots_withHidden hx hk ha, masked_slots hx hk, maskSlots_eq_iff] at hslots
    obtain ⟨-, hsx, hsk⟩ := hslots
    exact ⟨ha, fun hxv hl => hsx (by rw [hxv, hl]; rfl), fun hkv hl => hsk (by rw [hkv, hl]; rfl)⟩

end Sys2Proof.Machine
end

section
/-! PROOFS. What two states that agree on everything that holds a value have in common, and the stages on them. -/

namespace Sys2Proof.Machine

/-! ### What is visible in both states -/

namespace Agree

variable {s u : State} (h : Agree s u)
include h

theorem exists_withHidden : ∃ k, u = s.withHidden k := ⟨_, h.visible⟩

theorem config : u.config = s.config := (congrArg State.config h.visible :)
theorem busy : u.busy = s.busy := (congrArg State.busy h.visible :)
theorem err : u.err = s.err := (congrArg State.err h.visible :)
theorem sv : u.sv = s.sv := (congrArg State.sv h.visible :)
theorem xv : u.xv = s.xv := (congrArg State.xv h.visible :)
theorem kv : u.kv = s.kv := (congrArg State.kv h.visible :)
theorem drc : u.drc = s.drc := (congrArg State.drc h.visible :)
theorem ph : u.ph = s.ph := (congrArg State.ph h.visible :)
theorem fin : u.fin = s.fin := (congrArg State.fin h.visible :)
theorem mem : u.mem = s.mem := (congrArg State.mem h.visible :)
theorem accMem : u.accMem = s.accMem := (congrArg State.accMem h.visible :)
theorem races : u.races = s.races := (congrArg State.races h.visible :)
theorem draw : u.draw = s.draw := (congrArg State.draw h.visible :)
theorem inbox : u.inbox = s.inbox := (congrArg State.inbox h.visible :)
theorem current : u.current = s.current := (congrArg State.current h.visible :)
theorem callCheck : callCheck u = callCheck s := (congrArg Machine.callCheck h.visible :)
theorem outputKey : u.outputKey = s.outputKey := (congrArg State.outputKey h.visible :)

theorem readReg (r : Reg) : readReg u r = readReg s r := by
  rw [h.visible]
  cases r <;> rfl

/-! ### The buffers of the command in progress -/

/-- Where a command moves bytes is in the registers, or for an EMIT in the pointers of a valid call. -/
theorem footprint (hemit : ∀ n, s.current = some (.emit n) → s.sv = true) : u.footprint = s.footprint := by
  unfold State.footprint
  rw [h.current]
  cases hc : s.current with
  | none => rfl
  | some i =>
    cases i with
    | emit n =>
      have hs := hemit n hc
      simp only [h.ksl hs, h.sp hs, h.dp hs, h.config, h.fin]
    | process => rw [h.visible]; rfl
    | nop | init | loadx | dround | feed | block => rfl

section Buffers

variable (hf : u.footprint = s.footprint)
include hf

theorem ownsOutput (a : Nat) : u.ownsOutput a = s.ownsOutput a := by
  simp only [State.ownsOutput, hf, h.config]

theorem ownsInput (a : Nat) : u.ownsInput a = s.ownsInput a := by
  simp only [State.ownsInput, hf, h.config]

theorem newByte : u.newByte = s.newByte := by
  funext i
  simp only [State.newByte, hf, h.config, h.outputKey, h.accMem, h.races]

theorem raceInputs (l : List Race) (m : Memory) : u.raceInputs l m = s.raceInputs l m := by
  induction l with
  | nil => rfl
  | cons r l ih => simp only [State.raceInputs, h.ownsInput hf, h.newByte hf, hf, h.config, ih]

theorem raceOutputs (l : List Race) (m : Memory) : u.raceOutputs l m = s.raceOutputs l m := by
  induction l with
  | nil => rfl
  | cons r l ih => simp only [State.raceOutputs, h.ownsOutput hf, ih]

theorem settled : u.settled = s.settled := by
  simp only [State.settled, h.raceOutputs hf, h.newByte hf, hf, h.config, h.draw, h.accMem, h.races, h.mem]

theorem completed : u.completed = s.completed := by
  simp only [State.completed, h.raceOutputs hf, h.raceInputs hf, h.races, h.mem]

theorem windowByte (a : Nat) : u.windowByte a = s.windowByte a := by
  simp only [State.windowByte, h.newByte hf, hf, h.config, h.draw, h.accMem, h.races]

end Buffers

end Agree

/-! ### Updates that leave alone what may hold no value -/

/-- Agreement passes to states that differ from the old ones alike, in no field that may hold no value, and in
which no flag and no slot has come to hold one. -/
theorem SameHeld.of_visible {s u t t' : State} (h : SameHeld s u) (hv : t' = t.withHidden u.hidden)
    (hh : t.hidden = s.hidden := by rfl)
    (hsv : t.sv = true → s.sv = true := by exact id) (hxv : t.xv = true → s.xv = true := by exact id)
    (hkv : t.kv = true → s.kv = true := by exact id)
    (hl : t.slotsLive = true → s.slotsLive = true := by exact id) : SameHeld t t' := by
  obtain ⟨ha, hx, hk⟩ := h
  obtain ⟨eS, eX, eKS, eslots, esp, edp, erem, endr, eksl, evenl⟩ := (Hidden.mk.injEq ..).mp hh
  subst hv
  exact ⟨{
    visible := rfl
    S := fun hs => (ha.S (hsv hs)).trans eS.symm
    sp := fun hs => (ha.sp (hsv hs)).trans esp.symm
    dp := fun hs => (ha.dp (hsv hs)).trans edp.symm
    rem := fun hs => (ha.rem (hsv hs)).trans erem.symm
    ndr := fun hs => (ha.ndr (hsv hs)).trans endr.symm
    ksl := fun hs => (ha.ksl (hsv hs)).trans eksl.symm
    venl := fun hs => (ha.venl (hsv hs)).trans evenl.symm
    X := fun hs => (ha.X (hxv hs)).trans eX.symm
    KS := fun hs => (ha.KS (hkv hs)).trans eKS.symm
    slots := ha.slots.trans (congrArg List.length eslots.symm) },
    fun hx' hl' => (hx (hxv hx') (hl hl')).trans (congrArg (List.map Slot.x) eslots.symm),
    fun hk' hl' => (hk (hkv hk') (hl hl')).trans (congrArg (List.map Slot.ks) eslots.symm)⟩

theorem slotsLive_of_not_busy {s : State} (h : s.busy = false) : s.slotsLive = false := by
  simp [State.slotsLive, h]

theorem slotsLive_of_fin {s : State} (h : s.fin = true) : s.slotsLive = false := by
  simp [State.slotsLive, h]

/-- PROCESS is in progress exactly when `OP` says so. -/
theorem current_eq_process_iff {s : State} : s.current = some .process ↔ s.busy = true ∧ s.op = 0x07 := by
  simp only [State.current, formatZ]
  split_ifs <;> simp_all

/-- The slots take part in a call only. -/
theorem slotsLive_of_current {s : State} (hc : s.current ≠ some .process) : s.slotsLive = false := by
  rw [← Bool.not_eq_true]
  intro hl
  simp only [State.slotsLive, Bool.and_eq_true, decide_eq_true_eq] at hl
  obtain ⟨⟨⟨⟨hb, hop⟩, -⟩, -⟩, -⟩ := hl
  exact hc (current_eq_process_iff.2 ⟨hb, hop⟩)

/-- In a call the slots are live in the phases after the load of a vector iteration. -/
theorem slotsLive_of_process {s : State} (hc : s.current = some .process) (hf : s.fin = false)
    (hp : s.ph = .roundp ∨ s.ph = .feedp ∨ s.ph = .emitp) : s.slotsLive = s.vectorPass := by
  obtain ⟨hb, hop⟩ := current_eq_process_iff.1 hc
  rcases hp with hp | hp | hp <;> simp [State.slotsLive, hb, hop, hf, hp]

/-! ### The stages -/

theorem Agree.initPhase {s u : State} (h : Agree s u) : Agree (initPhase s) (initPhase u) := by
  obtain ⟨k, rfl⟩ := h.exists_withHidden
  exact {
    visible := rfl, S := fun _ => rfl, sp := fun _ => rfl, dp := fun _ => rfl, rem := fun _ => rfl
    ndr := fun _ => rfl, ksl := fun _ => rfl, venl := fun _ => rfl, X := nofun, KS := nofun, slots := h.slots }

theorem Agree.loadPhase {s u : State} (h : Agree s u) (hs : s.sv = true) (vec : Bool) :
    Agree (loadPhase vec s) (loadPhase vec u) := by
  obtain ⟨k, rfl⟩ := h.exists_withHidden
  exact { h with
    visible := rfl
    X := fun _ => h.S hs
    slots := by cases vec <;> simp [loadSlots_length, h.slots] }

theorem Agree.roundPhase {s u : State} (h : Agree s u) (hx : s.xv = true) (vec : Bool) :
    Agree (roundPhase vec s) (roundPhase vec u) := by
  obtain ⟨k, rfl⟩ := h.exists_withHidden
  exact { h with
    visible := rfl
    X := fun _ => by rw [roundPhase_X, roundPhase_X, h.X hx]
    slots := by cases vec <;> simp [h.slots] }

theorem Agree.feedPhase {s u : State} (h : Agree s u) (hs : s.sv = true) (hx : s.xv = true) (vec : Bool) :
    Agree (feedPhase vec s) (feedPhase vec u) := by
  obtain ⟨k, rfl⟩ := h.exists_withHidden
  exact { h with
    visible := rfl
    S := fun _ => by rw [feedPhase_S, feedPhase_S, h.S hs]; rfl
    X := nofun
    KS := fun _ => by rw [feedPhase_KS, feedPhase_KS, h.X hx, h.S hs]
    slots := by cases vec <;> simp [feedSlots_length, h.slots] }

theorem Agree.emitPhase {s u : State} (h : Agree s u) (hs : s.sv = true) {n : Nat}
    (hb : u.readyBytes.take n = s.readyBytes.take n) : Agree (emitPhase n s) (emitPhase n u) := by
  have hmem : (Machine.emitPhase n u).mem = (Machine.emitPhase n s).mem := by
    rw [emitPhase_mem, emitPhase_mem, hb, h.config, h.ksl hs, h.sp hs, h.dp hs, h.mem]
  obtain ⟨k, rfl⟩ := h.exists_withHidden
  exact { h with
    visible := congrArg (fun m => { (Machine.emitPhase n (s.withHidden k)) with mem := m }) hmem
    sp := fun _ => by rw [emitPhase_sp, emitPhase_sp, h.sp hs, h.config]
    dp := fun _ => by rw [emitPhase_dp, emitPhase_dp, h.dp hs, h.config]
    rem := fun _ => by rw [emitPhase_rem, emitPhase_rem, h.rem hs]
    KS := nofun }

end Sys2Proof.Machine
end

section
/-! PROOFS. The engine's turns on two states that agree on everything that holds a value: the slots of a vector
iteration, a pass, each phase and each whole effect. -/

namespace Sys2Proof.Machine

/-! ### The slots of a vector iteration -/

/-- The load of a vector iteration reads no slot (42_block_and_process.md R116). -/
theorem loadSlots_map_x {l l' : List Slot} (w : CtrWidth) (m : Matrix) (h : l'.length = l.length) :
    (loadSlots w m l').map Slot.x = (loadSlots w m l).map Slot.x := by
  induction l generalizing l' m with
  | nil => rw [List.length_eq_zero_iff.mp h]
  | cons a l ih =>
    cases l' with
    | nil => cases h
    | cons b l' =>
      simp only [loadSlots, List.map_cons]
      rw [ih _ (Nat.succ.inj h)]

/-- FEED of a vector iteration reads the slots' working matrices only. -/
theorem feedSlots_of_map_x {l l' : List Slot} (w : CtrWidth) (m : Matrix) (h : l'.map Slot.x = l.map Slot.x) :
    feedSlots w m l' = feedSlots w m l := by
  induction l generalizing l' m with
  | nil => rw [List.map_eq_nil_iff.mp h]
  | cons a l ih =>
    cases l' with
    | nil => cases h
    | cons b l' =>
      obtain ⟨hx, hl⟩ := List.cons.inj h
      simp only [feedSlots]
      rw [hx, ih _ hl]

/-- A double-round of a vector iteration works on the working matrices only. -/
theorem roundPhase_map_x (s : State) :
    (roundPhase true s).slots.map Slot.x = (s.slots.map Slot.x).map DRlane := by
  simp

/-- The bytes that stand ready are those of the scratch buffers. -/
theorem readyBytes_eq (s : State) :
    s.readyBytes = s.KS.toList ++ (s.slots.map Slot.ks).flatMap Vector.toList := by
  rw [State.readyBytes, List.flatMap_map]

/-- A scalar EMIT stage takes its bytes from the scratch buffer of slot 0. -/
theorem take_readyBytes (s : State) {n : Nat} (hn : n ≤ 64) : s.readyBytes.take n = s.KS.toList.take n :=
  List.take_append_of_le_length (by simpa using hn)

theorem passBytes_le {s : State} (h : s.vectorPass = false) : s.passBytes ≤ 64 := by
  rw [State.passBytes, h]
  exact Nat.min_le_left ..

section Call

variable {s u : State} (h : Agree s u) (hs : s.sv = true)
include h hs

theorem Agree.vectorPass : u.vectorPass = s.vectorPass := by
  simp only [State.vectorPass, h.config, h.venl hs, h.rem hs]

theorem Agree.passBytes : u.passBytes = s.passBytes := by
  simp only [State.passBytes, h.vectorPass hs, h.config, h.rem hs]

theorem Agree.emitOK (n : Nat) : u.emitOK n = s.emitOK n := by
  simp only [State.emitOK, h.config, h.ksl hs, h.sp hs, h.dp hs]

end Call

/-- The bytes of a stage agree if slot 0's do and, in a vector iteration, those of the slots. -/
theorem Agree.take_readyBytes {s u : State} (h : Agree s u) (hk : s.kv = true) {n : Nat}
    (hn : n ≤ 64 ∨ u.slots.map Slot.ks = s.slots.map Slot.ks) :
    u.readyBytes.take n = s.readyBytes.take n := by
  rcases hn with hn | hsl
  · rw [Machine.take_readyBytes u hn, Machine.take_readyBytes s hn, h.KS hk]
  · rw [readyBytes_eq, readyBytes_eq, h.KS hk, hsl]

/-! ### A pass of the pipeline -/

theorem Agree.roundPhases {s u : State} (h : Agree s u) (hx : s.xv = true) (vec : Bool) (k : Nat) :
    Agree (roundPhases vec k s) (roundPhases vec k u) := by
  induction k generalizing s u with
  | zero => exact h
  | succ k ih => exact ih (h.roundPhase hx vec) hx

/-- The double-rounds change nothing a pass reads of the call. -/
theorem roundPhases_flags (vec : Bool) (k : Nat) (s : State) :
    (roundPhases vec k s).sv = s.sv ∧ (roundPhases vec k s).xv = s.xv ∧ (roundPhases vec k s).S = s.S ∧
      (roundPhases vec k s).config = s.config := by
  obtain ⟨x, sl, d, e⟩ := roundPhases_frame vec k s
  rw [e]
  exact ⟨rfl, rfl, rfl, rfl⟩

theorem roundPhases_map_x {s u : State} (k : Nat) (h : u.slots.map Slot.x = s.slots.map Slot.x) :
    (roundPhases true k u).slots.map Slot.x = (roundPhases true k s).slots.map Slot.x := by
  induction k generalizing s u with
  | zero => exact h
  | succ k ih => exact ih (by rw [roundPhase_map_x, roundPhase_map_x, h])

theorem Agree.blockPass {s u : State} (h : Agree s u) (hs : s.sv = true) (vec : Bool) :
    Agree (blockPass vec s) (blockPass vec u) := by
  have hr := (h.loadPhase hs vec).roundPhases rfl vec s.ndr.toNat
  obtain ⟨hsv, hxv, -, -⟩ := roundPhases_flags vec s.ndr.toNat (Machine.loadPhase vec s)
  rw [Machine.blockPass, Machine.blockPass, h.ndr hs]
  exact hr.feedPhase (hsv.trans hs) hxv vec

/-- A vector pass fills the slots whatever they held. -/
theorem Agree.blockPass_slots {s u : State} (h : Agree s u) (hs : s.sv = true) :
    (Machine.blockPass true u).slots = (Machine.blockPass true s).slots := by
  have hx : (Machine.loadPhase true u).slots.map Slot.x = (Machine.loadPhase true s).slots.map Slot.x := by
    simp only [loadPhase_slots, if_true, h.config, h.S hs]
    exact loadSlots_map_x _ _ h.slots
  obtain ⟨-, -, huS, huc⟩ := roundPhases_flags true s.ndr.toNat (Machine.loadPhase true u)
  obtain ⟨-, -, hsS, hsc⟩ := roundPhases_flags true s.ndr.toNat (Machine.loadPhase true s)
  simp only [Machine.blockPass, h.ndr hs, feedPhase_slots, if_true, huS, huc, hsS, hsc, loadPhase_S,
    loadPhase_config, h.S hs, h.config]
  exact feedSlots_of_map_x _ _ (roundPhases_map_x _ hx)

/-- What a pass of PROCESS makes ready agrees. -/
theorem Agree.blockPass_readyBytes {s u : State} (h : Agree s u) (hs : s.sv = true) :
    (Machine.blockPass s.vectorPass u).readyBytes.take s.passBytes =
      (Machine.blockPass s.vectorPass s).readyBytes.take s.passBytes := by
  refine (h.blockPass hs s.vectorPass).take_readyBytes rfl ?_
  cases hv : s.vectorPass with
  | true => exact .inr (by rw [h.blockPass_slots hs])
  | false => exact .inl (passBytes_le hv)

/-! ### The effects -/

/-- BUS clears every flag. -/
theorem SameHeld.raise_bus {s u : State} (h : Agree s u) (hf : u.footprint = s.footprint) :
    SameHeld (s.raise .bus) (u.raise .bus) := by
  have hset := h.settled hf
  obtain ⟨k, rfl⟩ := h.exists_withHidden
  refine ⟨{ h with
    visible := congrArg (fun m => { (s.withHidden k).raise .bus with mem := m }) hset
    S := nofun, sp := nofun, dp := nofun, rem := nofun, ndr := nofun, ksl := nofun, venl := nofun, X := nofun
    KS := nofun }, slotsAgree_of_not_live (slotsLive_of_not_busy rfl)⟩

theorem Agree.setPh {s u : State} (h : Agree s u) (p : Phase) : Agree { s with ph := p } { u with ph := p } :=
  { h with visible := congrArg (fun v => { v with ph := p }) h.visible }

theorem Agree.setFin {s u : State} (h : Agree s u) (b : Bool) : Agree { s with fin := b } { u with fin := b } :=
  { h with visible := congrArg (fun v => { v with fin := b }) h.visible }

/-- With the effect complete no slot is live. -/
theorem Agree.finish {s u : State} (h : Agree s u) (p : Phase) : SameHeld (s.finish p) (u.finish p) :=
  ⟨(h.setPh p).setFin true, slotsAgree_of_not_live (slotsLive_of_fin rfl)⟩

/-- Alike on both branches of conditions that agree. -/
theorem sameHeld_ite {c d : Prop} [Decidable c] [Decidable d] {s s' u u' : State} (hcd : d ↔ c)
    (ht : c → SameHeld s u) (he : ¬c → SameHeld s' u') :
    SameHeld (if c then s else s') (if d then u else u') := by
  by_cases hc : c
  · rw [if_pos hc, if_pos (hcd.2 hc)]
    exact ht hc
  · rw [if_neg hc, if_neg (mt hcd.1 hc)]
    exact he hc

/-- No slot holds a value at the end of the passes. -/
theorem processPasses_sameHeld (fuel : Nat) {s u : State} (h : Agree s u) (hs : s.sv = true) :
    SameHeld (processPasses fuel s) (processPasses fuel u) := by
  induction fuel generalizing s u with
  | zero => exact ⟨h.setFin true, slotsAgree_of_not_live (slotsLive_of_fin rfl)⟩
  | succ fuel ih =>
    have hb := h.blockPass hs s.vectorPass
    have hbs : (Machine.blockPass s.vectorPass s).sv = true := (blockPass_sv _ s).trans hs
    rw [processPasses, processPasses, h.vectorPass hs, h.passBytes hs]
    refine sameHeld_ite (by rw [h.rem hs])
      (fun _ => ⟨h.setFin true, slotsAgree_of_not_live (slotsLive_of_fin rfl)⟩) fun _ => ?_
    refine sameHeld_ite (by rw [hb.emitOK hbs]) (fun _ => ?_) fun _ => ?_
    · exact ih ((hb.emitPhase hbs (h.blockPass_readyBytes hs)).setPh _) hbs
    · exact SameHeld.raise_bus hb (hb.footprint fun _ _ => hbs)

theorem emitEffect_sameHeld {n : BitVec 7} {s u : State} (h : Agree s u) (hs : s.sv = true) (hk : s.kv = true)
    (hn : n.toNat ≤ 64) : SameHeld (emitEffect n s) (emitEffect n u) := by
  simp only [emitEffect, h.emitOK hs]
  split
  · exact (h.emitPhase hs (h.take_readyBytes hk (.inl hn))).finish _
  · exact SameHeld.raise_bus h (h.footprint fun _ _ => hs)

/-- Outside a call no slot is live. -/
theorem Agree.sameHeld_of_current {s u : State} (h : Agree s u) (hc : s.current ≠ some .process) :
    SameHeld s u :=
  ⟨h, slotsAgree_of_not_live (slotsLive_of_current hc)⟩

theorem blockPhase_sameHeld {s u : State} (h : Agree s u) (hc : s.current = some .block)
    (hp : PhaseInv .block s) : SameHeld (blockPhase s) (blockPhase u) := by
  have hc' : s.current ≠ some .process := by rw [hc]; decide
  obtain ⟨hs, hp⟩ := hp
  unfold blockPhase
  rw [h.ph]
  rcases hp with hph | ⟨hph, hx, -⟩ | ⟨hph, hx, -⟩ <;> rw [hph] <;> dsimp only
  · exact ((h.loadPhase hs false).setPh .roundp).sameHeld_of_current hc'
  · have hr := h.roundPhase hx false
    exact sameHeld_ite (by rw [hr.drc, hr.ndr hs]) (fun _ => hr.sameHeld_of_current hc')
      fun _ => (hr.setPh .feedp).sameHeld_of_current hc'
  · exact (h.feedPhase hs hx false).finish _

/-- A phase of a call that leaves the slots live agrees on what they hold. -/
theorem slotsAgree_of_vectorPass {s u : State} (hp : s.vectorPass = true → SlotsAgree s u) : SlotsAgree s u := by
  have key : s.slotsLive = true → s.vectorPass = true := fun hl => by
    simp only [State.slotsLive, Bool.and_eq_true] at hl
    exact hl.1.2
  exact ⟨fun hx hl => (hp (key hl)).x hx hl, fun hk hl => (hp (key hl)).ks hk hl⟩

/-- Before and while the slots are loaded they hold no value. -/
theorem slotsLive_of_ph {s : State} (h : s.ph = .initp ∨ s.ph = .loadp) : s.slotsLive = false := by
  rcases h with h | h <;> simp [State.slotsLive, h]

theorem processPhase_sameHeld {s u : State} (h : SameHeld s u) (hc : s.current = some .process)
    (hf : s.fin = false) (hp : PhaseInv .process s) : SameHeld (processPhase s) (processPhase u) := by
  obtain ⟨h, hslots⟩ := h
  obtain ⟨-, hp⟩ := hp
  unfold processPhase
  rw [h.ph]
  rcases hp with hph | ⟨hs, -, ⟨hph, -, hk⟩ | ⟨hph, ⟨hx, -⟩, hk⟩ | ⟨hph, ⟨hx, -⟩, -⟩ | ⟨hph, -, hk⟩⟩ <;>
    rw [hph] <;> dsimp only
  · exact sameHeld_ite (by rw [h.initPhase.rem rfl]) (fun _ => h.initPhase.finish _)
      fun _ => ⟨h.initPhase.setPh .loadp, slotsAgree_of_not_live (slotsLive_of_ph (.inr rfl))⟩
  · rw [h.vectorPass hs]
    refine ⟨(h.loadPhase hs _).setPh _, slotsAgree_of_vectorPass fun hv => ⟨fun _ _ => ?_, fun hk' => ?_⟩⟩
    · have hv : s.vectorPass = true := hv
      simp only [hv, loadPhase_slots, if_true, h.config, h.S hs]
      exact loadSlots_map_x _ _ h.slots
    · exact nomatch hk.symm.trans hk'
  · have hr := h.roundPhase hx s.vectorPass
    have hmap : s.vectorPass = true →
        (roundPhase s.vectorPass u).slots.map Slot.x = (roundPhase s.vectorPass s).slots.map Slot.x := by
      intro hv
      rw [hv, roundPhase_map_x, roundPhase_map_x,
        hslots.x hx ((slotsLive_of_process hc hf (.inl hph)).trans hv)]
    have hsl : ∀ p q, SlotsAgree { roundPhase s.vectorPass s with ph := p }
        { roundPhase s.vectorPass u with ph := q } := fun _ _ =>
      slotsAgree_of_vectorPass fun hv => ⟨fun _ _ => hmap hv, fun hk' => nomatch hk.symm.trans hk'⟩
    rw [h.vectorPass hs]
    exact sameHeld_ite (by rw [hr.drc, hr.ndr hs]) (fun _ => ⟨hr, hsl s.ph u.ph⟩)
      fun _ => ⟨hr.setPh .feedp, hsl .feedp .feedp⟩
  · rw [h.vectorPass hs]
    refine ⟨(h.feedPhase hs hx _).setPh _, slotsAgree_of_vectorPass fun hv => ⟨nofun, fun _ _ => ?_⟩⟩
    have hv : s.vectorPass = true := hv
    simp only [hv, feedPhase_slots, if_true, h.config, h.S hs]
    rw [feedSlots_of_map_x _ _ (hslots.x hx ((slotsLive_of_process hc hf (.inr (.inl hph))).trans hv))]
  · have hready : u.readyBytes.take s.passBytes = s.readyBytes.take s.passBytes := by
      refine h.take_readyBytes hk ?_
      cases hv : s.vectorPass with
      | true => exact .inr (hslots.ks hk ((slotsLive_of_process hc hf (.inr (.inr hph))).trans hv))
      | false => exact .inl (passBytes_le hv)
    have he := h.emitPhase hs hready
    rw [h.passBytes hs]
    exact sameHeld_ite (by rw [h.emitOK hs])
      (fun _ => sameHeld_ite (by rw [he.rem hs]) (fun _ => he.finish _)
        fun _ => ⟨he.setPh .loadp, slotsAgree_of_not_live (slotsLive_of_ph (.inr rfl))⟩)
      fun _ => SameHeld.raise_bus h (h.footprint fun _ _ => hs)

/-! ### The command in progress -/

theorem phaseStep_sameHeld {i : Instr} {s u : State} (h : SameHeld s u) (hr : Running i s)
    (hf : s.fin = false) (hp : PhaseInv i s) : SameHeld (phaseStep i s) (phaseStep i u) := by
  have ha := h.1
  cases i with
  | nop => exact ha.finish _
  | init => exact ha.initPhase.finish _
  | loadx => exact (ha.loadPhase hp.2 false).finish _
  | dround => exact (ha.roundPhase hp.2.1 false).finish _
  | feed => exact (ha.feedPhase (hr.sv_of_xv hp.2.1) hp.2.1 false).finish _
  | emit n =>
    obtain ⟨-, hk, hn, -⟩ := hp
    exact emitEffect_sameHeld ha (hr.sv_of_kv hk) hk hn
  | block => exact blockPhase_sameHeld ha hr.current hp
  | process => exact processPhase_sameHeld h hr.current hf hp

theorem commandEffect_sameHeld {i : Instr} {s u : State} (h : SameHeld s u) (hr : Running i s)
    (hf : s.fin = false) (hp : PhaseInv i s) : SameHeld (commandEffect i s) (commandEffect i u) := by
  by_cases hb : i = .block
  · subst hb
    exact (h.1.blockPass hp.1 false).finish _
  · by_cases hpr : i = .process
    · subst hpr
      have hi := h.1.initPhase
      have hlen : u.len = s.len := (congrArg State.len h.1.visible :)
      show SameHeld (processEffect s) (processEffect u)
      rw [processEffect, processEffect, hlen]
      exact processPasses_sameHeld _ hi rfl
    · rw [← phaseStep_eq_commandEffect s hb hpr, ← phaseStep_eq_commandEffect u hb hpr]
      exact phaseStep_sameHeld h hr hf hp

/-- Both outcomes are next states that agree on everything that holds a value. -/
def NextHeld (o o' : Host.Outcome State Fault Refusal) : Prop :=
  ∃ t t', o = .next t ∧ o' = .next t' ∧ SameHeld t t'

theorem SameHeld.nextHeld {t t' : State} (h : SameHeld t t') : NextHeld (.next t) (.next t') :=
  ⟨t, t', rfl, rfl, h⟩

/-- Completion reads the pointers only for the footprint of an EMIT, whose call is valid. -/
theorem complete_sameHeld {i : Instr} {s u : State} (h : SameHeld s u) (hc : s.current = some i)
    (he : EndInv i s) : SameHeld s.complete u.complete := by
  have hcomp := h.1.completed (h.1.footprint fun n hn => ?_)
  · obtain ⟨k, rfl⟩ := h.1.exists_withHidden
    exact h.of_visible (congrArg (fun m => { (s.withHidden k).complete with mem := m }) hcomp)
      (hl := fun hl => nomatch (slotsLive_of_not_busy rfl).symm.trans hl)
  · obtain rfl : i = .emit n := Option.some.inj (hc.symm.trans hn)
    exact he.1.resolve_left nofun

theorem engineTurn_nextHeld (g : Grain) {s u : State} (h : SameHeld s u) (hs : SeqInv s) :
    NextHeld (engineTurn g s) (engineTurn g u) := by
  have ha := h.1
  cases hc : s.current with
  | none =>
    simp only [engineTurn, hc, ha.current.trans hc]
    exact h.nextHeld
  | some i =>
    obtain ⟨hr, hpos⟩ := running_of_seqInv hs hc
    simp only [engineTurn, hc, ha.current.trans hc, ha.fin, ha.ph]
    rcases hpos with ⟨hf, he⟩ | ⟨hf, hp⟩
    · simp only [hf, if_true]
      exact (complete_sameHeld h hc he).nextHeld
    · have hphase := (phaseStep_sameHeld h hr hf hp).nextHeld
      simp only [hf, Bool.false_eq_true, if_false]
      cases g with
      | phase => exact hphase
      | whole =>
        dsimp only
        split
        · have hb := busy_of_current hc
          rw [exec_eq_runCommand, exec_eq_runCommand, runCommand_busy hb, runCommand_busy (ha.busy.trans hb)]
          exact (commandEffect_sameHeld h hr hf hp).nextHeld
        · exact hphase

end Sys2Proof.Machine
end

section
/-! PROOFS. Acceptance and the events on two states that agree on everything that holds a value. -/

namespace Sys2Proof.Machine

/-! ### Acceptance -/

/-- An acceptance check reads a guarded field only after its flag (41_stage_commands.md R105 to R108). -/
theorem Agree.commandCheck {s u : State} (h : Agree s u) (hs : SeqInv s) (i : Instr) :
    commandCheck i u = commandCheck i s := by
  obtain ⟨⟨hxv, hkv, -⟩, -⟩ := hs
  cases i with
  | nop => rfl
  | init | process => exact h.callCheck
  | loadx | block => simp only [Machine.commandCheck, baseCheck, h.sv]
  | dround =>
    simp only [Machine.commandCheck, droundCheck, h.xv, h.drc]
    split
    · rw [h.ndr (hxv (by assumption))]
    · rfl
  | feed =>
    simp only [Machine.commandCheck, feedCheck, h.xv, h.drc]
    split
    · rw [h.ndr (hxv (by assumption))]
    · rfl
  | emit n =>
    simp only [Machine.commandCheck, emitCheck, h.kv]
    split
    · rw [h.rem (hkv (by assumption))]
    · rfl

/-- Right after acceptance no slot is loaded. -/
theorem slotsLive_accept (s : State) (i : Instr) : (s.accept i).slotsLive = false := by
  by_cases hi : i = .process
  · subst hi
    exact slotsLive_of_ph (.inl rfl)
  · refine slotsLive_of_current ?_
    rw [current_of_inProgress (i := i) ⟨rfl, rfl, rfl, rfl, rfl⟩]
    exact fun e => hi (Option.some.inj e)

/-- An accepted command keeps the scratch buffer only where it holds a value. -/
theorem accept_sameHeld {i : Instr} {s u : State} (h : SameHeld s u) (hc : commandCheck i s = .none) :
    SameHeld (s.accept i) (u.accept i) := by
  have hkept : keptBlock i u.KS = keptBlock i s.KS := by
    cases i with
    | emit n => exact h.1.KS (emitCheck_eq_none hc).1
    | nop | init | loadx | dround | feed | block | process => rfl
  obtain ⟨k, rfl⟩ := h.1.exists_withHidden
  exact h.of_visible (congrArg (fun b => { (s.withHidden k).accept i with accKS := b }) hkept)
    (hl := fun hl => nomatch (slotsLive_accept s i).symm.trans hl)

/-- A failure found at the `CMD` write (60_exceptions.md R150). -/
theorem raise_sameHeld {e : Err} {s u : State} (h : SameHeld s u) (he : e ≠ .bus) :
    SameHeld (s.raise e) (u.raise e) := by
  rw [raise_check s e he, raise_check u e he]
  exact h.of_visible (congrArg (fun v => { v with err := e, done := false }) h.1.visible)

theorem exec_nextHeld (i : Instr) {s u : State} (h : SameHeld s u) (hs : SeqInv s) (hb : s.busy = false) :
    NextHeld (exec i s) (exec i u) := by
  have hbu := h.1.busy.trans hb
  have hcheck := h.1.commandCheck hs i
  rw [exec_eq_runCommand, exec_eq_runCommand]
  by_cases hc : commandCheck i s = .none
  · rw [runCommand_accept hb hc, runCommand_accept hbu (hcheck.trans hc)]
    exact (accept_sameHeld h hc).nextHeld
  · rw [runCommand_raise hb hc, runCommand_raise hbu (by rwa [hcheck]), hcheck]
    exact (raise_sameHeld h (commandCheck_ne_bus i s)).nextHeld

/-! ### The events -/

theorem dispatchWord_nextHeld (w : Word) {s u : State} (h : SameHeld s u) (hs : SeqInv s)
    (hb : s.busy = false) : NextHeld (dispatchWord w s) (dispatchWord w u) := by
  unfold dispatchWord
  rw [h.1.err]
  cases s.err with
  | none =>
    cases decode w with
    | none => exact (raise_sameHeld h (by decide)).nextHeld
    | some i => exact exec_nextHeld i h hs hb
  | illcmd | rounds | seq | range | overlap | bus => exact h.nextHeld

/-- A register write neither reads nor writes what may hold no value. -/
theorem writeReg_sameHeld (r : Reg) (data : Word) {s u : State} (h : SameHeld s u) (hb : s.busy = false) :
    SameHeld (writeReg r data s) (writeReg r data u) := by
  have hlive : ∀ t : State, t.busy = s.busy → t.slotsLive = true → s.slotsLive = true :=
    fun t ht hl => nomatch (slotsLive_of_not_busy (ht.trans hb)).symm.trans hl
  obtain ⟨k, rfl⟩ := h.1.exists_withHidden
  cases r <;> exact h.of_visible rfl (hl := hlive _ rfl)

theorem writeAt_nextHeld (off : Nat) (data : Word) {s u : State} (h : SameHeld s u) (hs : SeqInv s) :
    NextHeld (writeAt off data s) (writeAt off data u) := by
  have hbu := h.1.busy
  unfold writeAt
  by_cases hb : s.busy = true
  · rw [if_pos hb, if_pos (hbu.trans hb)]
    exact (h.of_visible (congrArg (fun v => { v with wrb := true }) h.1.visible)).nextHeld
  · rw [if_neg hb, if_neg (by rwa [hbu])]
    split
    · exact dispatchWord_nextHeld data h hs (Bool.eq_false_iff.2 hb)
    · exact (writeReg_sameHeld _ data h (Bool.eq_false_iff.2 hb)).nextHeld

/-- The bus's answer is no field that may hold no value. -/
theorem SameHeld.setBus {s u : State} (h : SameHeld s u) (b : BusReply) :
    SameHeld { s with bus := b } { u with bus := b } :=
  h.of_visible (congrArg (fun v => { v with bus := b }) h.1.visible)

theorem SameHeld.setInbox {s u : State} (h : SameHeld s u) (es : List Event) :
    SameHeld { s with inbox := es } { u with inbox := es } :=
  h.of_visible (congrArg (fun v => { v with inbox := es }) h.1.visible)

theorem hostWrite_nextHeld (addr size : Nat) (data : Word) {s u : State} (h : SameHeld s u) (hs : SeqInv s) :
    NextHeld (hostWrite addr size data s) (hostWrite addr size data u) := by
  have hsel : select u.config addr size = select s.config addr size := by rw [h.1.config]
  unfold hostWrite
  rw [hsel]
  split
  · exact (h.setBus _).nextHeld
  · exact (h.setBus _).nextHeld
  · exact writeAt_nextHeld _ data (h.setBus .ack) hs

theorem hostRead_sameHeld (addr size : Nat) {s u : State} (h : SameHeld s u) :
    SameHeld (hostRead addr size s) (hostRead addr size u) := by
  have hsel : select u.config addr size = select s.config addr size := by rw [h.1.config]
  unfold hostRead
  rw [hsel]
  split
  · exact h.setBus _
  · exact h.setBus _
  · rw [h.1.readReg]
    exact h.setBus _

theorem hostWait_sameHeld (g : Grain) {s u : State} (h : SameHeld s u) :
    SameHeld (hostWait g s) (hostWait g u) := by
  unfold hostWait
  rw [h.1.readReg, h.1.inbox]
  exact (h.setBus (.word (readReg s .status))).setInbox _

/-- While an EMIT is in progress, or complete, its call is valid. -/
theorem sv_of_current_emit {s : State} (hs : SeqInv s) {n : BitVec 7} (hc : s.current = some (.emit n)) :
    s.sv = true := by
  obtain ⟨hr, ⟨-, he⟩ | ⟨-, -, hk, -⟩⟩ := running_of_seqInv hs hc
  · exact he.1.resolve_left nofun
  · exact hr.sv_of_kv hk

theorem memWrite_sameHeld (a : Nat) (v : Byte) {s u : State} (h : SameHeld s u) (hs : SeqInv s) :
    SameHeld (memWrite a v s) (memWrite a v u) := by
  have hf := h.1.footprint fun _ hn => sv_of_current_emit hs hn
  unfold memWrite
  rw [h.1.config, h.1.ownsOutput hf, h.1.ownsInput hf]
  obtain ⟨k, rfl⟩ := h.1.exists_withHidden
  split
  · split <;> exact h.of_visible rfl
  · exact h.setBus _

theorem memRead_sameHeld (a : Nat) {s u : State} (h : SameHeld s u) (hs : SeqInv s) :
    SameHeld (memRead a s) (memRead a u) := by
  have hf := h.1.footprint fun _ hn => sv_of_current_emit hs hn
  unfold memRead
  rw [h.1.config, h.1.ownsOutput hf, h.1.windowByte hf]
  obtain ⟨k, rfl⟩ := h.1.exists_withHidden
  split
  · split <;> exact h.of_visible rfl
  · exact h.setBus _

/-- Reset gives every field its value, and memory what the interrupted command leaves. -/
theorem resetInput_sameHeld {s u : State} (h : SameHeld s u) (hs : SeqInv s) :
    SameHeld (resetInput s) (resetInput u) := by
  have hset := h.1.settled (h.1.footprint fun _ hn => sv_of_current_emit hs hn)
  have e : resetInput u = resetInput s := by
    unfold resetInput
    rw [hset, h.1.config, h.1.draw, h.1.inbox]
  rw [e]
  exact ⟨agree_of_masked_eq rfl, fun _ _ => rfl, fun _ _ => rfl⟩

theorem handle_nextHeld (e : Event) {s u : State} (h : SameHeld s u) (hs : SeqInv s) :
    NextHeld (handle e s) (handle e u) := by
  cases e with
  | hostWrite addr size data => exact hostWrite_nextHeld addr size data h hs
  | hostRead addr size => exact (hostRead_sameHeld addr size h).nextHeld
  | hostWait g => exact (hostWait_sameHeld g h).nextHeld
  | engine g => exact engineTurn_nextHeld g h hs
  | memWrite a v => exact (memWrite_sameHeld a v h hs).nextHeld
  | memRead a => exact (memRead_sameHeld a h hs).nextHeld
  | reset => exact (resetInput_sameHeld h hs).nextHeld

theorem step_nextHeld {s u : State} (h : SameHeld s u) (hs : SeqInv s) : NextHeld (step s) (step u) := by
  unfold step nextMove
  rw [h.1.inbox]
  cases s.inbox with
  | nil => exact engineTurn_nextHeld .whole h hs
  | cons e rest => exact handle_nextHeld e (h.setInbox rest) hs

/-- Settles O60: a check or an effect reads a field only while its flag says that it holds a value, by the
sequencer invariant (O43); what a stage or a vector pass makes of the rest is hidden again or overwritten. -/
theorem whatHoldsNoValueIsNeverRead : Obligations.WhatHoldsNoValueIsNeverRead := by
  intro s u hs _ hm
  have h : SameHeld s u := (sameHeld_iff hs.1.1 hs.1.2.1).2 hm
  obtain ⟨t, t', et, eu, ht⟩ := step_nextHeld h hs
  obtain ⟨⟨hxv, hkv, -⟩, -⟩ := stepKeepsSequencerInvariant s t hs et
  rw [et, eu]
  exact (sameHeld_iff hxv hkv).1 ht

end Sys2Proof.Machine
end

section
/-! PROOFS. The words a host reads: the fields of `STATUS` and `CFG`, and what no read depends on. -/

namespace Sys2Proof.Machine

/-! ### The fields of the words -/

/-- The flags of `STATUS` (10_state.md R16). -/
theorem statusWord_flags (s : State) :
    (statusWord s).getLsbD 0 = s.busy ∧ (statusWord s).getLsbD 1 = s.done ∧ (statusWord s).getLsbD 2 = s.sv ∧
      (statusWord s).getLsbD 3 = s.xv ∧ (statusWord s).getLsbD 4 = s.kv ∧ (statusWord s).getLsbD 5 = s.wrb := by
  simp only [statusWord, BitVec.getLsbD_append]
  simp

/-- `ERR`, `DRC` and the reserved bits of `STATUS` (R16, R17): a field is what is left when the fields below it
are dropped. -/
theorem statusWord_fields (s : State) :
    (statusWord s).extractLsb' 6 2 = 0 ∧ (statusWord s).extractLsb' 8 4 = s.err.code ∧
      (statusWord s).extractLsb' 12 4 = 0 ∧ (statusWord s).extractLsb' 16 5 = s.drc ∧
      (statusWord s).extractLsb' 21 11 = 0 := by
  simp (disch := decide) only [statusWord, BitVec.extractLsb'_append_eq_of_le,
    BitVec.extractLsb'_append_eq_of_add_le]
  exact ⟨BitVec.extractLsb'_eq_self, BitVec.extractLsb'_eq_self, BitVec.extractLsb'_eq_self,
    BitVec.extractLsb'_eq_self, BitVec.extractLsb'_eq_self⟩

/-- The fields and the reserved bits of `CFG` (R20). -/
theorem cfgWord_fields (c : Cfg) :
    (cfgWord c).extractLsb' 0 2 = c.rc ∧ (cfgWord c).extractLsb' 2 2 = 0 ∧ (cfgWord c).getLsbD 4 = c.ks ∧
      (cfgWord c).extractLsb' 5 3 = 0 ∧ (cfgWord c).getLsbD 8 = c.ven ∧ (cfgWord c).extractLsb' 9 23 = 0 := by
  simp (disch := decide) only [cfgWord, BitVec.extractLsb'_append_eq_of_le,
    BitVec.extractLsb'_append_eq_of_add_le, BitVec.getLsbD_append]
  refine ⟨BitVec.extractLsb'_eq_self, BitVec.extractLsb'_eq_self, ?_, BitVec.extractLsb'_eq_self, ?_,
    BitVec.extractLsb'_eq_self⟩ <;> simp

/-- Settles O17: the words are their fields, one appended to the other, so each field stands above the widths of
those below it. -/
theorem statusAndCfgFields : Obligations.StatusAndCfgFields := by
  refine ⟨by decide, fun s => ?_⟩
  obtain ⟨h0, h1, h2, h3, h4, h5⟩ := statusWord_flags s
  obtain ⟨h6, h8, h12, h16, h21⟩ := statusWord_fields s
  exact ⟨h0, h1, h2, h3, h4, h5, h6, h8, h12, h16, h21, cfgWord_fields s.cfg⟩

/-! ### What a read does not depend on -/

/-- Settles O19: the answer is made of the address, the parameters and the register read, which the host may read
by another access or which reads as a constant (43_host_register_access.md R125). -/
theorem hiddenStateIsNotReadable : Obligations.HiddenStateIsNotReadable := by
  intro s t addr size hconfig hcfg hsrc hdst hlen hctr0 hctr1 hnonce0 hnonce1 hbusy hdone hsv hxv hkv hwrb herr hdrc
  unfold hostRead
  rw [hconfig]
  split
  · rfl
  · rfl
  · rename_i off _
    show BusReply.word (readReg t (regAt off)) = .word (readReg s (regAt off))
    cases regAt off with
    | status => simp only [readReg, statusWord, hbusy, hdone, hsv, hxv, hkv, hwrb, herr, hdrc]
    | cfg | cap | src | dst | len | ctr0 | ctr1 | nonce0 | nonce1 =>
      simp only [readReg, hcfg, hconfig, hsrc, hdst, hlen, hctr0, hctr1, hnonce0, hnonce1]
    | cmd | const | key | reserved => rfl

/-! ### `WRB` -/

/-- The offsets an access of the block can select. -/
theorem select_eq_at {c : Config} {addr size off : Nat} (h : select c addr size = .at off) :
    addr = c.base + off ∧ size = 4 ∧ off < 256 ∧ off % 4 = 0 := by
  unfold select at h
  split at h
  · cases h
  · split at h
    · cases h
      omega
    · cases h

theorem regAt_eq_status {off : Nat} : regAt off = .status ↔ off = 0x04 := by
  unfold regAt
  split <;> simp_all

theorem dispatchWord_wrb {w : Word} {s t : State} (h : dispatchWord w s = .next t) : t.wrb = s.wrb := by
  rcases dispatchWord_cases h with ⟨-, rfl⟩ | ⟨-, -, rfl⟩ | ⟨-, i, -, hx⟩
  · rfl
  · rfl
  · exact (engineFrame_exec hx).wrb

theorem writeReg_wrb (r : Reg) (data : Word) (s : State) :
    (writeReg r data s).wrb = true ↔ s.wrb = true ∧ ¬(r = .status ∧ data.getLsbD 5 = true) := by
  cases r with
  | status => simp only [writeReg, writeStatus]; cases data.getLsbD 5 <;> simp
  | cmd | cfg | cap | src | dst | len | ctr0 | ctr1 | nonce0 | nonce1 | const | key | reserved => simp [writeReg]

/-- A write of the block sets `WRB` when it is dropped, and clears it by bit 5 of a `STATUS` write. -/
theorem writeAt_wrb {off : Nat} {data : Word} {s t : State} (h : writeAt off data s = .next t) :
    t.wrb = true ↔
      s.busy = true ∨ (s.wrb = true ∧ ¬(s.busy = false ∧ off = 0x04 ∧ data.getLsbD 5 = true)) := by
  rcases writeAt_cases h with ⟨hb, rfl⟩ | ⟨hb, hr, hd⟩ | ⟨hb, -, rfl⟩
  · simp [hb]
  · have hoff : off ≠ 0x04 := fun e => by rw [e] at hr; cases hr
    simp [hb, hoff, dispatchWord_wrb hd]
  · rw [writeReg_wrb, regAt_eq_status, hb]
    simp only [Bool.false_eq_true, false_or, true_and]

/-- No event but a write of the block and reset changes `WRB`. -/
theorem handle_wrb_other {e : Event} {s t : State} (h : handle e s = .next t)
    (hw : ∀ off data, off < 256 → off % 4 = 0 → e ≠ wrEvent s.config off data) (hr : e ≠ .reset) :
    t.wrb = s.wrb := by
  cases e with
  | hostWrite addr size data =>
    simp only [handle, hostWrite] at h
    split at h
    · cases h
      rfl
    · cases h
      rfl
    · rename_i off hsel
      obtain ⟨rfl, rfl, hlt, hal⟩ := select_eq_at hsel
      exact absurd rfl (hw off data hlt hal)
  | engine g => exact (engineFrame_engineTurn h).wrb
  | hostRead addr size =>
    cases h
    unfold hostRead
    split <;> rfl
  | hostWait g =>
    cases h
    rfl
  | memWrite a v =>
    cases h
    rcases memWrite_cases a v s with ⟨-, e⟩ | ⟨-, -, e⟩ | ⟨-, -, -, e⟩ <;> rw [e]
  | memRead a =>
    cases h
    rcases memRead_cases a s with ⟨-, e⟩ | ⟨-, -, e⟩ | ⟨-, -, e⟩ <;> rw [e]
  | reset => exact absurd rfl hr

/-- Two writes of the block are the same event only at the same offset with the same data. -/
theorem wrEvent_inj {c : Config} {off off' : Nat} {data data' : Word} :
    wrEvent c off data = wrEvent c off' data' ↔ off = off' ∧ data = data' := by
  simp [wrEvent]

/-- What an event makes of `WRB` (10_state.md R18). -/
theorem handle_wrb {e : Event} {s t : State} (h : handle e s = .next t) :
    t.wrb = true ↔
      (s.busy = true ∧ ∃ off data, off < 256 ∧ off % 4 = 0 ∧ e = wrEvent s.config off data) ∨
      (s.wrb = true ∧ ¬(s.busy = false ∧ ∃ data, BitVec.getLsbD data 5 = true ∧ e = wrEvent s.config 0x04 data) ∧
        e ≠ .reset) := by
  by_cases hw : ∃ off data, off < 256 ∧ off % 4 = 0 ∧ e = wrEvent s.config off data
  · obtain ⟨off, data, hlt, hal, rfl⟩ := hw
    have hclear : (∃ d, BitVec.getLsbD d 5 = true ∧ wrEvent s.config off data = wrEvent s.config 0x04 d) ↔
        off = 0x04 ∧ data.getLsbD 5 = true := by
      simp only [wrEvent_inj]
      exact ⟨fun ⟨d, hd, ho, e⟩ => ⟨ho, e ▸ hd⟩, fun ⟨ho, hd⟩ => ⟨data, hd, ho, rfl⟩⟩
    rw [handle_wrEvent s data hlt hal] at h
    rw [writeAt_wrb h, hclear]
    have hdrop : ∃ o d, o < 256 ∧ o % 4 = 0 ∧ wrEvent s.config off data = wrEvent s.config o d :=
      ⟨off, data, hlt, hal, rfl⟩
    simp only [hdrop, and_true, ne_eq, reduceCtorEq, not_false_eq_true]
  · have hstatus : ¬∃ data, BitVec.getLsbD data 5 = true ∧ e = wrEvent s.config 0x04 data :=
      fun ⟨data, _, he⟩ => hw ⟨0x04, data, by decide, rfl, he⟩
    simp only [hw, hstatus, and_false, false_or, not_false_eq_true, true_and]
    by_cases hr : e = .reset
    · subst hr
      cases h
      simp [resetInput, State.resetWith]
    · rw [handle_wrb_other h (fun off data hlt hal he => hw ⟨off, data, hlt, hal, he⟩) hr]
      exact (and_iff_left hr).symm

/-- Settles O47: of all that a step can do, only a host write of the block and reset touch `WRB`. -/
theorem wrbIsStickyAndSetByDroppedWrites : Obligations.WrbIsStickyAndSetByDroppedWrites := by
  intro s t h
  rcases step_cases h with ⟨hin, h⟩ | ⟨e, rest, hin, h⟩
  · simp [hin, (engineFrame_engineTurn h).wrb]
  · rw [handle_wrb h]
    simp [hin]

end Sys2Proof.Machine
end

section
/-! PROOFS. What a command leaves as it was, and the state after reset. -/

namespace Sys2Proof.Machine

/-- Settles O37: the programmer registers, `WRB` and the parameters are in the engine's frame. -/
theorem commandsNeverWriteProgrammerRegisters : Obligations.CommandsNeverWriteProgrammerRegisters := by
  intro i s t h
  have hf := engineFrame_exec h
  exact ⟨hf.registers, hf.config, hf.wrb, hf.inbox, hf.bus⟩

/-! ### The base matrix -/

/-- The counter advance writes words 12 and 13 (40_arx_datapath.md R94). -/
theorem ctrInc_words (w : CtrWidth) (m : Matrix) :
    (ctrInc w m).words = (m.words.set 12 (ctrInc w m).d.l0).set 13 (ctrInc w m).d.l1 := by
  cases w <;> rfl

theorem raise_S (s : State) (e : Err) : (s.raise e).S = s.S := by
  cases e <;> rfl

/-- Of the effects but INIT's and PROCESS's, only FEED's advances the counter, alone or in BLOCK. -/
theorem commandEffect_S {i : Instr} (s : State) (hi : i ≠ .init) (hp : i ≠ .process) :
    (commandEffect i s).S = s.S ∨ (commandEffect i s).S = ctrInc s.config.ctrWidth s.S := by
  cases i with
  | init => exact absurd rfl hi
  | process => exact absurd rfl hp
  | nop | loadx | dround => exact .inl rfl
  | feed => exact .inr rfl
  | emit n =>
    left
    simp only [commandEffect, emitEffect]
    split
    · rfl
    · exact raise_S s .bus
  | block =>
    right
    simp only [commandEffect, finish_S, blockPass_false]

theorem exec_S {i : Instr} {s t : State} (h : exec i s = .next t) (hi : i ≠ .init) (hp : i ≠ .process) :
    t.S = s.S ∨ t.S = ctrInc s.config.ctrWidth s.S := by
  rcases exec_cases i s with ⟨-, e⟩ | ⟨-, -, e⟩ | ⟨-, -, e⟩ <;> cases e.symm.trans h
  · exact commandEffect_S s hi hp
  · exact .inl rfl
  · exact .inl (raise_S s _)

/-- Settles O39: a command that does not build `S` leaves it or advances its counter words. -/
theorem baseMatrixFixedBetweenInits : Obligations.BaseMatrixFixedBetweenInits := by
  intro i s t h hi hp k hk h12 h13
  rcases exec_S h hi hp with e | e
  · simp only [e]
  · simp only [e, ctrInc_words]
    rw [Vector.getElem_set_ne _ _ (Ne.symm h13), Vector.getElem_set_ne _ _ (Ne.symm h12)]

/-! ### Reset -/

/-- Settles O40: at rest with every flag 0 and nothing in memory; that memory is empty is the model's (log 4). -/
theorem resetMeetsTheInvariants : Obligations.ResetMeetsTheInvariants :=
  fun c hc => ⟨⟨rfl, rfl⟩, resetWith_paramInv hc, resetWith_seqInv c, nofun⟩

end Sys2Proof.Machine
end

section
/-! PROOFS. A command one phase at a time: the phases of the command in progress reach the state its meaning
gives at once (10_state.md R38). -/

namespace Sys2Proof.Machine

/-! ### Turns of one phase -/

/-- Some number of turns of one phase takes `s` to `t`. -/
def ReachesByPhases (s t : State) : Prop := ∃ k, phaseTurns k s = .next t

theorem ReachesByPhases.refl (s : State) : ReachesByPhases s s := ⟨0, rfl⟩

/-- With a command in progress a turn is one phase of it. -/
theorem ReachesByPhases.of_phaseStep {i : Instr} {s t : State} (hc : s.current = some i) (hf : s.fin = false)
    (h : ReachesByPhases (phaseStep i s) t) : ReachesByPhases s t := by
  obtain ⟨k, hk⟩ := h
  have hturn : engineTurn .phase s = .next (phaseStep i s) := by simp [engineTurn, hc, hf]
  exact ⟨k + 1, by rw [phaseTurns, hturn]; exact hk⟩

/-! ### The double-rounds of a pass -/

/-- The phase ROUNDP of BLOCK and of PROCESS: a double-round, and the next phase after the last one. -/
def roundStep (vec : Bool) (s : State) : State :=
  if (roundPhase vec s).drc.toNat < (roundPhase vec s).ndr.toNat then roundPhase vec s
  else { roundPhase vec s with ph := .feedp }

theorem blockPhase_roundp {s : State} (h : s.ph = .roundp) : blockPhase s = roundStep false s := by
  unfold blockPhase
  rw [h]
  rfl

theorem processPhase_roundp {s : State} (h : s.ph = .roundp) : processPhase s = roundStep s.vectorPass s := by
  unfold processPhase
  rw [h]
  rfl

/-- No stage looks at the phase. -/
theorem roundPhases_setPh (vec : Bool) (k : Nat) (s : State) (p : Phase) :
    roundPhases vec k { s with ph := p } = { roundPhases vec k s with ph := p } := by
  induction k generalizing s with
  | zero => rfl
  | succ k ih => exact ih (roundPhase vec s)

theorem roundPhases_vectorPass (vec : Bool) (k : Nat) (s : State) :
    (roundPhases vec k s).vectorPass = s.vectorPass := by
  obtain ⟨x, sl, d, e⟩ := roundPhases_frame vec k s
  rw [e]
  rfl

theorem roundPhases_current (vec : Bool) (k : Nat) (s : State) :
    (roundPhases vec k s).current = s.current ∧ (roundPhases vec k s).fin = s.fin := by
  obtain ⟨x, sl, d, e⟩ := roundPhases_frame vec k s
  rw [e]
  exact ⟨rfl, rfl⟩

/-- The phases ROUNDP do all the double-rounds that are left, `m + 1` of them. -/
theorem reaches_of_roundPhases {i : Instr} {vec v : Bool}
    (hround : ∀ u : State, u.ph = .roundp → u.vectorPass = v → phaseStep i u = roundStep vec u) (m : Nat)
    {s t : State} (hc : s.current = some i) (hf : s.fin = false) (hp : s.ph = .roundp) (hv : s.vectorPass = v)
    (hm : s.drc.toNat + (m + 1) = s.ndr.toNat)
    (h : ReachesByPhases { roundPhases vec (m + 1) s with ph := .feedp } t) : ReachesByPhases s t := by
  have hd : (roundPhase vec s).drc.toNat = s.drc.toNat + 1 := roundPhase_drc_toNat vec (by omega)
  refine .of_phaseStep hc hf ?_
  rw [hround s hp hv, roundStep, hd, roundPhase_ndr]
  induction m generalizing s with
  | zero =>
    rw [if_neg (by omega)]
    exact h
  | succ m ih =>
    have hd' : (roundPhase vec (roundPhase vec s)).drc.toNat = (roundPhase vec s).drc.toNat + 1 :=
      roundPhase_drc_toNat vec (by rw [roundPhase_ndr]; omega)
    rw [if_pos (by omega)]
    refine .of_phaseStep (s := roundPhase vec s) hc hf ?_
    rw [hround (roundPhase vec s) hp hv, roundStep, hd', roundPhase_ndr]
    exact ih (s := roundPhase vec s) hc hf hp hv (by rw [roundPhase_ndr]; omega) h hd'

/-- From the load on, the phases ROUNDP lead to FEEDP with all double-rounds done. -/
theorem reaches_of_loaded {i : Instr} {vec v : Bool} {s t : State} (hc : s.current = some i) (hf : s.fin = false)
    (hv : s.vectorPass = v)
    (hround : ∀ u : State, u.ph = .roundp → u.vectorPass = v → phaseStep i u = roundStep vec u)
    (h : ReachesByPhases { roundPhases vec s.ndr.toNat (loadPhase vec s) with ph := .feedp } t) :
    ReachesByPhases { loadPhase vec s with ph := .roundp } t := by
  obtain ⟨m, hm⟩ := Nat.exists_eq_succ_of_ne_zero s.ndr.toNat_pos.ne'
  refine reaches_of_roundPhases hround m (s := { loadPhase vec s with ph := .roundp }) hc hf rfl hv
    ((Nat.zero_add _).trans hm.symm) ?_
  rw [roundPhases_setPh, ← Nat.succ_eq_add_one, ← hm]
  exact h

theorem block_reaches {s : State} (hc : s.current = some .block) (hf : s.fin = false) (hp : s.ph = .loadp) :
    ReachesByPhases s (commandEffect .block s) := by
  have hload : phaseStep .block s = { loadPhase false s with ph := .roundp } := by
    show blockPhase s = _
    unfold blockPhase
    rw [hp]
  refine .of_phaseStep hc hf ?_
  rw [hload]
  refine reaches_of_loaded hc hf rfl (fun u hu _ => blockPhase_roundp hu) ?_
  obtain ⟨hcr, hfr⟩ := roundPhases_current false s.ndr.toNat (loadPhase false s)
  exact .of_phaseStep (hcr.trans hc) (hfr.trans hf) (.refl _)

/-! ### The passes of a call -/

theorem blockPass_call (vec : Bool) (s : State) :
    (blockPass vec s).vectorPass = s.vectorPass ∧ (blockPass vec s).passBytes = s.passBytes ∧
      (blockPass vec s).rem = s.rem ∧ (blockPass vec s).current = s.current ∧ (blockPass vec s).fin = s.fin := by
  obtain ⟨x, ks, sl, e⟩ := blockPass_frame vec s
  rw [e]
  exact ⟨rfl, rfl, rfl, rfl, rfl⟩

/-- LOADP, the double-rounds and FEEDP of a pass of a call. -/
theorem reaches_of_blockPass {s t : State} (hc : s.current = some .process) (hf : s.fin = false)
    (h : ReachesByPhases { blockPass s.vectorPass s with ph := .emitp } t) :
    ReachesByPhases { s with ph := .loadp } t := by
  refine .of_phaseStep (i := .process) (s := { s with ph := .loadp }) hc hf ?_
  show ReachesByPhases { loadPhase s.vectorPass s with ph := .roundp } t
  refine reaches_of_loaded hc hf rfl
    (fun u hu hv => (processPhase_roundp hu).trans (by rw [hv])) ?_
  obtain ⟨hcr, hfr⟩ := roundPhases_current s.vectorPass s.ndr.toNat (loadPhase s.vectorPass s)
  refine .of_phaseStep (i := .process) (hcr.trans hc) (hfr.trans hf) ?_
  have hv := roundPhases_vectorPass s.vectorPass s.ndr.toNat (loadPhase s.vectorPass s)
  have hfeed : phaseStep .process
      { roundPhases s.vectorPass s.ndr.toNat (loadPhase s.vectorPass s) with ph := .feedp } =
        { feedPhase (roundPhases s.vectorPass s.ndr.toNat (loadPhase s.vectorPass s)).vectorPass
            (roundPhases s.vectorPass s.ndr.toNat (loadPhase s.vectorPass s)) with ph := .emitp } := rfl
  rw [hfeed, hv]
  exact h

theorem passBytes_le_rem (s : State) : s.passBytes ≤ s.rem.toNat := by
  unfold State.passBytes
  split
  · rename_i hv
    simp only [State.vectorPass, Bool.and_eq_true, decide_eq_true_eq] at hv
    exact hv.2
  · exact Nat.min_le_right ..

theorem min_le_passBytes (s : State) : min 64 s.rem.toNat ≤ s.passBytes := by
  unfold State.passBytes
  split
  · rename_i hv
    simp only [State.vectorPass, Bool.and_eq_true, decide_eq_true_eq] at hv
    omega
  · exact Nat.le_refl _

/-- A pass takes its bytes off `REM`. -/
theorem pass_rem (s : State) :
    (emitPhase s.passBytes (blockPass s.vectorPass s)).rem.toNat = s.rem.toNat - s.passBytes := by
  obtain ⟨-, -, hrem, -⟩ := blockPass_call s.vectorPass s
  have hle := passBytes_le_rem s
  have hlt := s.rem.isLt
  have hn : (BitVec.ofNat 32 s.passBytes).toNat = s.passBytes := by
    rw [BitVec.toNat_ofNat]
    exact Nat.mod_eq_of_lt (by omega)
  rw [emitPhase_rem, hrem, BitVec.toNat_sub_of_le (by rwa [BitVec.le_def, hn]), hn]

theorem processPasses_of_rem_eq_zero (fuel : Nat) {s : State} (h : s.rem = 0) :
    processPasses fuel s = { s with fin := true } := by
  cases fuel with
  | zero => rfl
  | succ fuel => rw [processPasses, if_pos h]

/-- The bytes that races leave do not depend on the phase. -/
theorem raceOutputs_setPh (s : State) (p : Phase) (l : List Race) (m : Memory) :
    ({ s with ph := p } : State).raceOutputs l m = s.raceOutputs l m := by
  induction l with
  | nil => rfl
  | cons r l ih =>
    simp only [State.raceOutputs, ih]
    rfl

/-- BUS ends a command alike in every phase. -/
theorem raise_bus_setPh (s : State) (p : Phase) : ({ s with ph := p } : State).raise .bus = s.raise .bus := by
  have hset : ({ s with ph := p } : State).settled = s.settled := raceOutputs_setPh s p _ _
  exact congrArg (fun m => { s.raise .bus with mem := m }) hset

/-- The phase EMITP of a call. -/
theorem phaseStep_emitp (s : State) :
    phaseStep .process { s with ph := .emitp } =
      if s.emitOK s.passBytes then
        if (emitPhase s.passBytes s).rem = 0 then (emitPhase s.passBytes s).finish .emitp
        else { emitPhase s.passBytes s with ph := .loadp }
      else s.raise .bus := by
  rw [← raise_bus_setPh s .emitp]
  rfl

/-- The phases of the passes that are left reach what the passes do at once; `fuel` passes suffice. -/
theorem processPasses_reached (fuel : Nat) {s : State} (hc : s.current = some .process) (hf : s.fin = false)
    (h0 : s.rem ≠ 0) (hfuel : s.rem.toNat ≤ 64 * fuel) :
    ReachesByPhases { s with ph := .loadp } (processPasses fuel s) := by
  induction fuel generalizing s with
  | zero => exact absurd (BitVec.eq_of_toNat_eq (Nat.le_zero.mp hfuel)) h0
  | succ fuel ih =>
    obtain ⟨-, hbytes, -, hcb, hfb⟩ := blockPass_call s.vectorPass s
    refine reaches_of_blockPass hc hf (.of_phaseStep (i := .process) (hcb.trans hc) (hfb.trans hf) ?_)
    rw [phaseStep_emitp, hbytes, processPasses, if_neg h0]
    dsimp only
    by_cases hok : (blockPass s.vectorPass s).emitOK s.passBytes = true
    · rw [if_pos hok, if_pos hok]
      have hrem := pass_rem s
      have hce : (emitPhase s.passBytes (blockPass s.vectorPass s)).current = some .process := hcb.trans hc
      have hfe : (emitPhase s.passBytes (blockPass s.vectorPass s)).fin = false := hfb.trans hf
      generalize emitPhase s.passBytes (blockPass s.vectorPass s) = e at hrem hce hfe ⊢
      by_cases hr : e.rem = 0
      · rw [if_pos hr, processPasses_of_rem_eq_zero (s := { e with ph := .emitp }) fuel hr]
        exact .refl _
      · rw [if_neg hr]
        have hpos := BitVec.toNat_pos_of_ne_zero hr
        have hmin := min_le_passBytes s
        exact ih (s := { e with ph := .emitp }) hce hfe hr (show e.rem.toNat ≤ 64 * fuel by omega)
    · rw [if_neg hok, if_neg hok]
      exact .refl _

theorem process_reaches {s : State} (hc : s.current = some .process) (hf : s.fin = false) (hp : s.ph = .initp) :
    ReachesByPhases s (commandEffect .process s) := by
  have hinit : phaseStep .process s =
      if (initPhase s).rem = 0 then (initPhase s).finish .initp else { initPhase s with ph := .loadp } := by
    show processPhase s = _
    unfold processPhase
    rw [hp]
  refine .of_phaseStep hc hf ?_
  rw [hinit]
  show ReachesByPhases _ (processPasses ((s.len.toNat + 63) / 64 + 1) (initPhase s))
  by_cases hr : (initPhase s).rem = 0
  · have hend : (initPhase s).finish .initp = { initPhase s with fin := true } := by
      rw [State.finish, ← hp]
      rfl
    rw [if_pos hr, processPasses_of_rem_eq_zero _ hr, hend]
    exact .refl _
  · rw [if_neg hr]
    refine processPasses_reached _ hc hf hr ?_
    show s.len.toNat ≤ _
    omega

/-- Settles O53: a stage command is its one phase; BLOCK and PROCESS make the same passes phase by phase, and the
passes that `LEN` bounds are all that a call needs. -/
theorem phasesReachTheWholeEffect : Obligations.PhasesReachTheWholeEffect := by
  intro i s h
  have hc := current_of_inProgress h
  obtain ⟨hb, hf, -, hp, -⟩ := h
  have hreach : ReachesByPhases s (commandEffect i s) := by
    by_cases hbl : i = .block
    · subst hbl
      exact block_reaches hc hf hp
    · by_cases hpr : i = .process
      · subst hpr
        exact process_reaches hc hf hp
      · refine .of_phaseStep hc hf ?_
        rw [phaseStep_eq_commandEffect s hbl hpr]
        exact .refl _
  obtain ⟨k, hk⟩ := hreach
  exact ⟨k, commandEffect i s, by rw [exec_eq_runCommand, runCommand_busy hb], hk⟩

end Sys2Proof.Machine
end

section
/-! PROOFS. What leaves data memory and the call alone, and the canonical form of memory (20_memory.md R47,
R48). -/

namespace Sys2Proof.Machine

/-! ### The call and data memory -/

/-- Data memory, the parameters and what is latched of the call are as they were; the memory kept from acceptance
is the one from before or, at an acceptance, data memory itself (log 12). A part that an update does not write is
proved by `rfl`, by default. -/
structure CallFrame (s t : State) : Prop where
  config : t.config = s.config := by rfl
  mem : t.mem = s.mem := by rfl
  accMem : t.accMem = s.accMem ∨ t.accMem = s.mem := by exact .inl rfl
  sv : t.sv = s.sv := by rfl
  sp : t.sp = s.sp := by rfl
  dp : t.dp = s.dp := by rfl
  rem : t.rem = s.rem := by rfl
  ksl : t.ksl = s.ksl := by rfl

namespace CallFrame

protected theorem refl (s : State) : CallFrame s s := {}

/-- Neither the sequencer's phase nor the mark of a complete effect is part of the frame. -/
theorem finish {s t : State} (h : CallFrame s t) (p : Phase) : CallFrame s (t.finish p) := { h with }

theorem setPh {s t : State} (h : CallFrame s t) (p : Phase) : CallFrame s { t with ph := p } := { h with }

theorem memInv {s t : State} (h : CallFrame s t) (hs : MemInv s) : MemInv t := by
  obtain ⟨hmem, hacc⟩ := hs
  refine ⟨by rwa [h.mem], ?_⟩
  rcases h.accMem with e | e <;> rwa [e]

theorem streamInv {s t : State} (h : CallFrame s t) (hs : StreamInv s) : StreamInv t := by
  rwa [StreamInv, h.config, h.sv, h.sp, h.dp, h.rem, h.ksl]

end CallFrame

theorem callFrame_loadPhase (vec : Bool) (s : State) : CallFrame s (loadPhase vec s) := {}

theorem callFrame_roundPhase (vec : Bool) (s : State) : CallFrame s (roundPhase vec s) := {}

theorem callFrame_feedPhase (vec : Bool) (s : State) : CallFrame s (feedPhase vec s) := {}

theorem callFrame_blockPass (vec : Bool) (s : State) : CallFrame s (blockPass vec s) := by
  obtain ⟨x, ks, sl, e⟩ := blockPass_frame vec s
  rw [e]
  exact {}

theorem callFrame_accept (s : State) (i : Instr) : CallFrame s (s.accept i) where
  accMem := .inr rfl

/-- A failure found at the `CMD` write changes `ERR` and `DONE` only (60_exceptions.md R150). -/
theorem callFrame_raise {e : Err} (s : State) (he : e ≠ .bus) : CallFrame s (s.raise e) := by
  rw [raise_check s e he]
  exact {}

theorem callFrame_blockPhase (s : State) : CallFrame s (blockPhase s) := by
  unfold blockPhase
  cases s.ph with
  | loadp => exact (callFrame_loadPhase false s).setPh _
  | roundp =>
    dsimp only
    split
    · exact callFrame_roundPhase false s
    · exact (callFrame_roundPhase false s).setPh _
  | feedp => exact (callFrame_feedPhase false s).finish _
  | idle | initp | emitp => exact .refl s

/-! ### What a phase and a command do to them -/

/-- A phase of a call latches the call, moves the bytes of its pass, or ends in BUS; every other phase leaves
the call and data memory alone. -/
theorem processPhase_cases (s : State) :
    CallFrame s (processPhase s) ∨ CallFrame (initPhase s) (processPhase s) ∨
      CallFrame (emitPhase s.passBytes s) (processPhase s) ∨ processPhase s = s.raise .bus := by
  unfold processPhase
  cases s.ph with
  | initp =>
    right; left
    dsimp only
    split
    · exact (CallFrame.refl _).finish _
    · exact (CallFrame.refl _).setPh _
  | loadp => exact .inl ((callFrame_loadPhase _ s).setPh _)
  | roundp =>
    left
    dsimp only
    split
    · exact callFrame_roundPhase _ s
    · exact (callFrame_roundPhase _ s).setPh _
  | feedp => exact .inl ((callFrame_feedPhase _ s).setPh _)
  | emitp =>
    right; right
    dsimp only
    split
    · left
      split
      · exact (CallFrame.refl _).finish _
      · exact (CallFrame.refl _).setPh _
    · exact .inr rfl
  | idle => exact .inl (.refl s)

theorem emitEffect_cases (n : BitVec 7) (s : State) :
    CallFrame (emitPhase n.toNat s) (emitEffect n s) ∨ emitEffect n s = s.raise .bus := by
  unfold emitEffect
  split
  · exact .inl ((CallFrame.refl _).finish _)
  · exact .inr rfl

/-- Everything a phase of a command can do to the call and to data memory. -/
theorem phaseStep_cases (i : Instr) (s : State) :
    CallFrame s (phaseStep i s) ∨
    ((i = .init ∨ i = .process) ∧ CallFrame (initPhase s) (phaseStep i s)) ∨
    (∃ n, ((∃ k, i = .emit k ∧ n = k.toNat) ∨ (i = .process ∧ n = s.passBytes)) ∧
      CallFrame (emitPhase n s) (phaseStep i s)) ∨
    phaseStep i s = s.raise .bus := by
  cases i with
  | nop => exact .inl ((CallFrame.refl s).finish _)
  | init => exact .inr (.inl ⟨.inl rfl, (CallFrame.refl _).finish _⟩)
  | loadx => exact .inl ((callFrame_loadPhase false s).finish _)
  | dround => exact .inl ((callFrame_roundPhase false s).finish _)
  | feed => exact .inl ((callFrame_feedPhase false s).finish _)
  | emit n =>
    rcases emitEffect_cases n s with h | h
    · exact .inr (.inr (.inl ⟨_, .inl ⟨n, rfl, rfl⟩, h⟩))
    · exact .inr (.inr (.inr h))
  | block => exact .inl (callFrame_blockPhase s)
  | process =>
    rcases processPhase_cases s with h | h | h | h
    · exact .inl h
    · exact .inr (.inl ⟨.inr rfl, h⟩)
    · exact .inr (.inr (.inl ⟨_, .inr ⟨rfl, rfl⟩, h⟩))
    · exact .inr (.inr (.inr h))

/-- The whole effects of BLOCK and PROCESS are their passes; every other effect is one phase. -/
theorem commandEffect_cases (i : Instr) (s : State) :
    (i = .block ∧ CallFrame s (commandEffect i s)) ∨ (i = .process ∧ commandEffect i s = processEffect s) ∨
      commandEffect i s = phaseStep i s := by
  by_cases hb : i = .block
  · subst hb
    exact .inl ⟨rfl, (callFrame_blockPass false s).finish _⟩
  · by_cases hp : i = .process
    · exact .inr (.inl ⟨hp, by rw [hp]; rfl⟩)
    · exact .inr (.inr (phaseStep_eq_commandEffect s hb hp).symm)

/-- A command that is being issued is accepted or refused; either way its effect has not begun. -/
theorem callFrame_exec_of_not_busy {i : Instr} {s t : State} (hb : s.busy = false) (h : exec i s = .next t) :
    CallFrame s t := by
  rcases exec_cases i s with ⟨hb', -⟩ | ⟨-, -, e⟩ | ⟨-, -, e⟩
  · rw [hb] at hb'
    cases hb'
  · cases e.symm.trans h
    exact callFrame_accept s i
  · cases e.symm.trans h
    exact callFrame_raise s (commandCheck_ne_bus i s)

/-- INIT writes the call, not data memory; the other effects but EMIT's and PROCESS's write neither. -/
theorem commandEffect_mem {i : Instr} (s : State) (he : ∀ n, i ≠ .emit n) (hp : i ≠ .process) :
    (commandEffect i s).mem = s.mem := by
  cases i with
  | emit n => exact absurd rfl (he n)
  | process => exact absurd rfl hp
  | block => exact (callFrame_blockPass false s).mem
  | nop | init | loadx | dround | feed => rfl

/-- Settles O38: issuing a command leaves data memory alone, and so does every effect but EMIT's and
PROCESS's. -/
theorem onlyEmitAndProcessWriteMemory : Obligations.OnlyEmitAndProcessWriteMemory := by
  intro i s t h hcase a
  suffices hmem : t.mem = s.mem by rw [hmem]
  cases hb : s.busy with
  | false => exact (callFrame_exec_of_not_busy hb h).mem
  | true =>
    rcases hcase with hb' | ⟨he, hp⟩
    · rw [hb] at hb'
      cases hb'
    · rw [exec_eq_runCommand, runCommand_busy hb] at h
      cases h
      exact commandEffect_mem s he hp

/-! ### What an event does to them -/

theorem callFrame_dispatchWord {w : Word} {s t : State} (hb : s.busy = false) (h : dispatchWord w s = .next t) :
    CallFrame s t := by
  rcases dispatchWord_cases h with ⟨-, rfl⟩ | ⟨-, -, rfl⟩ | ⟨-, i, -, hx⟩
  · exact .refl _
  · exact callFrame_raise s (by decide)
  · exact callFrame_exec_of_not_busy hb hx

theorem callFrame_writeReg (r : Reg) (data : Word) (s : State) : CallFrame s (writeReg r data s) := by
  cases r <;> exact {}

theorem callFrame_writeAt {off : Nat} {data : Word} {s t : State} (h : writeAt off data s = .next t) :
    CallFrame s t := by
  rcases writeAt_cases h with ⟨-, rfl⟩ | ⟨hb, -, hd⟩ | ⟨-, -, rfl⟩
  · exact {}
  · exact callFrame_dispatchWord hb hd
  · exact callFrame_writeReg _ data s

theorem callFrame_hostWrite {addr size : Nat} {data : Word} {s t : State}
    (h : hostWrite addr size data s = .next t) : CallFrame s t := by
  unfold hostWrite at h
  split at h
  · cases h
    exact {}
  · cases h
    exact {}
  · exact { callFrame_writeAt h with }

theorem callFrame_hostRead (addr size : Nat) (s : State) : CallFrame s (hostRead addr size s) := by
  unfold hostRead
  split <;> exact {}

theorem callFrame_memRead (a : Nat) (s : State) : CallFrame s (memRead a s) := by
  rcases memRead_cases a s with ⟨-, e⟩ | ⟨-, -, e⟩ | ⟨-, -, e⟩ <;> rw [e] <;> exact {}

/-- Of the events only a turn of the engine, another agent's write and reset touch the call or data memory. -/
theorem handle_cases {e : Event} {s t : State} (h : handle e s = .next t) :
    CallFrame s t ∨ (∃ g, engineTurn g s = .next t) ∨ (∃ a v, t = memWrite a v s) ∨ t = resetInput s := by
  cases e with
  | hostWrite addr size data => exact .inl (callFrame_hostWrite h)
  | hostRead addr size =>
    cases h
    exact .inl (callFrame_hostRead addr size s)
  | hostWait g =>
    cases h
    exact .inl {}
  | engine g => exact .inr (.inl ⟨g, h⟩)
  | memWrite a v =>
    cases h
    exact .inr (.inr (.inl ⟨a, v, rfl⟩))
  | memRead a =>
    cases h
    exact .inl (callFrame_memRead a s)
  | reset =>
    cases h
    exact .inr (.inr (.inr rfl))

/-! ### The canonical form of data memory -/

theorem emitPhase_memInv (n : Nat) {s : State} (hs : MemInv s) : MemInv (emitPhase n s) :=
  ⟨wf_moveBytes _ _ _ _ _ hs.1, hs.2⟩

theorem raise_bus_memInv {s : State} (hs : MemInv s) : MemInv (s.raise .bus) := ⟨wf_settled hs.1, rfl⟩

theorem complete_memInv {s : State} (hs : MemInv s) : MemInv s.complete := ⟨wf_completed hs.1, rfl⟩

theorem phaseStep_memInv (i : Instr) {s : State} (hs : MemInv s) : MemInv (phaseStep i s) := by
  rcases phaseStep_cases i s with h | ⟨-, h⟩ | ⟨n, -, h⟩ | h
  · exact h.memInv hs
  · exact h.memInv hs
  · exact h.memInv (emitPhase_memInv n hs)
  · rw [h]
    exact raise_bus_memInv hs

theorem processEffect_memInv {s : State} (hs : MemInv s) : MemInv (processEffect s) := by
  have pass : ∀ u, MemInv u → MemInv (blockPass u.vectorPass u) :=
    fun u hu => (callFrame_blockPass _ u).memInv hu
  unfold processEffect
  rcases processPasses_cases MemInv (fun u hu _ _ => emitPhase_memInv _ (pass u hu))
      ((s.len.toNat + 63) / 64 + 1) (initPhase s) hs with
    ⟨u, hu, h⟩ | ⟨u, hu, -, -, h⟩ <;> rw [h]
  · exact hu
  · exact raise_bus_memInv (pass u hu)

theorem commandEffect_memInv (i : Instr) {s : State} (hs : MemInv s) : MemInv (commandEffect i s) := by
  rcases commandEffect_cases i s with ⟨-, h⟩ | ⟨-, h⟩ | h
  · exact h.memInv hs
  · rw [h]
    exact processEffect_memInv hs
  · rw [h]
    exact phaseStep_memInv i hs

theorem exec_memInv {i : Instr} {s t : State} (hs : MemInv s) (h : exec i s = .next t) : MemInv t := by
  cases hb : s.busy with
  | false => exact (callFrame_exec_of_not_busy hb h).memInv hs
  | true =>
    rw [exec_eq_runCommand, runCommand_busy hb] at h
    cases h
    exact commandEffect_memInv i hs

theorem engineTurn_memInv {g : Grain} {s t : State} (hs : MemInv s) (h : engineTurn g s = .next t) :
    MemInv t := by
  rcases engineTurn_cases g s with ⟨-, e⟩ | ⟨-, -, -, e⟩ | ⟨i, -, -, -, -, e⟩ | ⟨i, -, -, e⟩
  · cases e.symm.trans h
    exact hs
  · cases e.symm.trans h
    exact complete_memInv hs
  · exact exec_memInv hs (e.symm.trans h)
  · cases e.symm.trans h
    exact phaseStep_memInv i hs

theorem memWrite_memInv (a : Nat) (v : Byte) {s : State} (hs : MemInv s) : MemInv (memWrite a v s) := by
  have hw : MemInv { s with mem := Memory.write s.mem a v } := ⟨Memory.wf_write a v hs.1, hs.2⟩
  rcases memWrite_cases a v s with ⟨-, e⟩ | ⟨-, -, e⟩ | ⟨-, -, -, e⟩ <;> rw [e]
  · exact hs
  · exact hw
  · exact hw

theorem handle_memInv {e : Event} {s t : State} (hs : MemInv s) (h : handle e s = .next t) : MemInv t := by
  rcases handle_cases h with h | ⟨g, h⟩ | ⟨a, v, rfl⟩ | rfl
  · exact h.memInv hs
  · exact engineTurn_memInv hs h
  · exact memWrite_memInv a v hs
  · exact ⟨wf_settled hs.1, rfl⟩

/-- Settles O41: memory changes one byte at a time, and a write keeps the form (the model's own, log 4); the
memory kept from acceptance is a copy of it (log 12). -/
theorem stepKeepsMemoryCanonical : Obligations.StepKeepsMemoryCanonical := by
  intro s t hs h
  rcases step_cases h with ⟨-, h⟩ | ⟨e, rest, -, h⟩
  · exact engineTurn_memInv hs h
  · exact handle_memInv (s := { s with inbox := rest }) hs h

end Sys2Proof.Machine
end

section
/-! PROOFS. The bounds of a call: what its checks establish, and that the bytes still to be moved stay inside
them (20_memory.md R55, R59). -/

namespace Sys2Proof.Machine

/-! ### What the checks of a call say -/

theorem rangeBad_eq_false {aw s d n : Nat} {ks : Bool} :
    rangeBad aw s d n ks = false ↔ (0 < n → d + n ≤ 2 ^ aw ∧ (ks = false → s + n ≤ 2 ^ aw)) := by
  cases ks <;> simp [rangeBad]

theorem overlapBad_eq_false {s d n : Nat} {ks : Bool} :
    overlapBad s d n ks = false ↔ (ks = false → 0 < n → s = d ∨ d + n ≤ s ∨ s + n ≤ d) := by
  cases ks with
  | true => simp [overlapBad]
  | false =>
    simp only [overlapBad, Bool.not_false, Bool.true_and, Bool.and_eq_false_iff, decide_eq_false_iff_not, forall_const]
    omega

/-- A call passes its checks when none of ROUNDS, RANGE and OVERLAP applies (41_stage_commands.md R103, R104). -/
theorem callCheck_eq_none {s : State} :
    callCheck s = .none ↔ s.cfg.rc ≠ 3 ∧
      rangeBad s.config.aw s.src.toNat s.dst.toNat s.len.toNat s.cfg.ks = false ∧
      overlapBad s.src.toNat s.dst.toNat s.len.toNat s.cfg.ks = false := by
  unfold callCheck
  split_ifs <;> simp_all

/-- The checks of the call in progress pass in every phase, since nothing writes the registers. -/
theorem callCheck_of_process {s : State} (hs : SeqInv s) (hc : s.current = some .process) :
    callCheck s = .none := by
  obtain ⟨-, ⟨-, -, hend⟩ | ⟨-, hp⟩⟩ := running_of_seqInv hs hc
  · exact hend rfl
  · exact hp.1

/-! ### The bytes still to be moved -/

/-- An address fits a pointer. -/
theorem toNat_ofNat_truncAddr {c : Config} (h : c.aw ≤ 32) (v : Nat) :
    (BitVec.ofNat 32 (truncAddr c v)).toNat = truncAddr c v := by
  rw [BitVec.toNat_ofNat]
  exact Nat.mod_eq_of_lt ((Nat.mod_lt _ (Nat.two_pow_pos _)).trans_le (Nat.pow_le_pow_right (by decide) h))

theorem truncAddr_lt (c : Config) (v : Nat) : truncAddr c v < 2 ^ c.aw := Nat.mod_lt _ (Nat.two_pow_pos _)

/-- A stage takes its bytes off `REM`. -/
theorem emitPhase_rem_toNat {n : Nat} {s : State} (hn : n ≤ s.rem.toNat) :
    (emitPhase n s).rem.toNat = s.rem.toNat - n := by
  have e : (BitVec.ofNat 32 n).toNat = n := by
    rw [BitVec.toNat_ofNat]
    exact Nat.mod_eq_of_lt (hn.trans_lt s.rem.isLt)
  rw [emitPhase_rem, BitVec.toNat_sub_of_le (by rwa [BitVec.le_def, e]), e]

/-- INIT latches buffers that its checks have bounded. -/
theorem initPhase_streamInv {s : State} (hp : ParamInv s) (hc : callCheck s = .none) :
    StreamInv (initPhase s) := by
  obtain ⟨-, -, -, hsrc, hdst, -⟩ := hp
  obtain ⟨-, hrange, hoverlap⟩ := callCheck_eq_none.1 hc
  rw [rangeBad_eq_false] at hrange
  rw [overlapBad_eq_false] at hoverlap
  refine fun _ => ⟨hsrc, hdst, fun hlen => ⟨(hrange hlen).1, fun hks => ⟨(hrange hlen).2 hks, ?_⟩⟩⟩
  rcases hoverlap hks hlen with h | h | h
  · exact .inl (BitVec.eq_of_toNat_eq h)
  · exact .inr (.inr h)
  · exact .inr (.inl h)

/-- A stage of at most `REM` bytes moves the start of each range it uses up to what is left of it; only a pointer
whose range is used up, or that is not used, wraps (R59). -/
theorem emitPhase_streamInv {n : Nat} {s : State} (haw : s.config.aw ≤ 32) (hn : n ≤ s.rem.toNat)
    (hs : StreamInv s) : StreamInv (emitPhase n s) := by
  intro hsv
  obtain ⟨-, -, hbounds⟩ := hs hsv
  have hsp : (emitPhase n s).sp.toNat = truncAddr s.config (s.sp.toNat + n) := toNat_ofNat_truncAddr haw _
  have hdp : (emitPhase n s).dp.toNat = truncAddr s.config (s.dp.toNat + n) := toNat_ofNat_truncAddr haw _
  rw [hsp, hdp, emitPhase_rem_toNat hn]
  refine ⟨truncAddr_lt _ _, truncAddr_lt _ _, fun hleft => ?_⟩
  obtain ⟨hd, hxor⟩ := hbounds (by omega)
  rw [truncAddr_of_lt (v := s.dp.toNat + n) (by omega)]
  refine ⟨show s.dp.toNat + n + _ ≤ 2 ^ s.config.aw by omega, fun hks => ?_⟩
  obtain ⟨hr, hsep⟩ := hxor hks
  rw [truncAddr_of_lt (v := s.sp.toNat + n) (by omega)]
  refine ⟨show s.sp.toNat + n + _ ≤ 2 ^ s.config.aw by omega, ?_⟩
  rcases hsep with h | h | h
  · left
    rw [emitPhase_sp, emitPhase_dp, h]
  · exact .inr (.inl (by omega))
  · exact .inr (.inr (by omega))

/-- BUS leaves no call (60_exceptions.md R151). -/
theorem raise_bus_streamInv (s : State) : StreamInv (s.raise .bus) := nofun

/-! ### Every step -/

theorem phaseStep_streamInv {i : Instr} {s : State} (hparam : ParamInv s) (hp : PhaseInv i s)
    (hs : StreamInv s) : StreamInv (phaseStep i s) := by
  have haw : s.config.aw ≤ 32 := hparam.1.2.1
  rcases phaseStep_cases i s with h | ⟨hi, h⟩ | ⟨n, hi, h⟩ | h
  · exact h.streamInv hs
  · refine h.streamInv (initPhase_streamInv hparam ?_)
    rcases hi with rfl | rfl
    · exact hp.2
    · exact hp.1
  · refine h.streamInv (emitPhase_streamInv haw ?_ hs)
    rcases hi with ⟨k, rfl, rfl⟩ | ⟨rfl, rfl⟩
    · obtain ⟨-, -, -, hrem⟩ := hp
      exact hrem
    · exact passBytes_le_rem s
  · rw [h]
    exact raise_bus_streamInv s

/-- A pass of a call moves at most the bytes that are left. -/
theorem pass_streamInv {s : State} (haw : s.config.aw ≤ 32) (hs : StreamInv s) :
    StreamInv (emitPhase s.passBytes (blockPass s.vectorPass s)) := by
  have hf := callFrame_blockPass s.vectorPass s
  refine emitPhase_streamInv (by rwa [hf.config]) ?_ (hf.streamInv hs)
  rw [hf.rem]
  exact passBytes_le_rem s

theorem processEffect_streamInv {s : State} (hparam : ParamInv s) (hc : callCheck s = .none) :
    StreamInv (processEffect s) := by
  have pass : ∀ u : State, u.config.aw ≤ 32 ∧ StreamInv u →
      (emitPhase u.passBytes (blockPass u.vectorPass u)).config.aw ≤ 32 ∧
        StreamInv (emitPhase u.passBytes (blockPass u.vectorPass u)) := by
    rintro u ⟨haw, hu⟩
    refine ⟨?_, pass_streamInv haw hu⟩
    rwa [emitPhase_config, (callFrame_blockPass _ u).config]
  unfold processEffect
  rcases processPasses_cases (fun u => u.config.aw ≤ 32 ∧ StreamInv u) (fun u hu _ _ => pass u hu)
      ((s.len.toNat + 63) / 64 + 1) (initPhase s) ⟨hparam.1.2.1, initPhase_streamInv hparam hc⟩ with
    ⟨u, ⟨-, hu⟩, h⟩ | ⟨u, -, -, -, h⟩ <;> rw [h]
  · exact hu
  · exact raise_bus_streamInv _

theorem commandEffect_streamInv {i : Instr} {s : State} (hparam : ParamInv s) (hp : PhaseInv i s)
    (hs : StreamInv s) : StreamInv (commandEffect i s) := by
  rcases commandEffect_cases i s with ⟨-, h⟩ | ⟨rfl, h⟩ | h
  · exact h.streamInv hs
  · rw [h]
    exact processEffect_streamInv hparam hp.1
  · rw [h]
    exact phaseStep_streamInv hparam hp hs

theorem engineTurn_streamInv {g : Grain} {s t : State} (hparam : ParamInv s) (hseq : SeqInv s)
    (hs : StreamInv s) (h : engineTurn g s = .next t) : StreamInv t := by
  rcases engineTurn_cases g s with ⟨-, e⟩ | ⟨-, -, -, e⟩ | ⟨i, hc, hf, -, -, e⟩ | ⟨i, hc, hf, e⟩
  · cases e.symm.trans h
    exact hs
  · cases e.symm.trans h
    exact hs
  all_goals
    obtain ⟨-, ⟨hf', -⟩ | ⟨-, hp⟩⟩ := running_of_seqInv hseq hc
    · rw [hf] at hf'
      cases hf'
  · rw [exec_eq_runCommand, runCommand_busy (busy_of_current hc)] at e
    cases e.symm.trans h
    exact commandEffect_streamInv hparam hp hs
  · cases e.symm.trans h
    exact phaseStep_streamInv hparam hp hs

theorem memWrite_streamInv (a : Nat) (v : Byte) {s : State} (hs : StreamInv s) : StreamInv (memWrite a v s) := by
  rcases memWrite_cases a v s with ⟨-, e⟩ | ⟨-, -, e⟩ | ⟨-, -, -, e⟩ <;> rw [e] <;> exact hs

theorem handle_streamInv {e : Event} {s t : State} (hparam : ParamInv s) (hseq : SeqInv s) (hs : StreamInv s)
    (h : handle e s = .next t) : StreamInv t := by
  rcases handle_cases h with h | ⟨g, h⟩ | ⟨a, v, rfl⟩ | rfl
  · exact h.streamInv hs
  · exact engineTurn_streamInv hparam hseq hs h
  · exact memWrite_streamInv a v hs
  · exact nofun

/-- Settles O44: the checks of a call bound the buffers it latches; a stage or a pass then moves at most the bytes
that are left, so what is left of each range stays inside it. Nothing but the engine's turn and reset touches
them. -/
theorem stepKeepsStreamBounds : Obligations.StepKeepsStreamBounds := by
  intro s t hparam hseq hs h
  rcases step_cases h with ⟨-, h⟩ | ⟨e, rest, -, h⟩
  · exact engineTurn_streamInv hparam hseq hs h
  · exact handle_streamInv (s := { s with inbox := rest }) hparam hseq hs h

end Sys2Proof.Machine
end

section
/-! PROOFS. Accesses of the register block that are refused, and other agents' accesses of data memory
(20_memory.md R46, R53, R56, R57, R62). -/

namespace Sys2Proof.Machine

/-! ### The register block -/

theorem writeReg_bus (r : Reg) (data : Word) (s : State) : (writeReg r data s).bus = s.bus := by
  cases r <;> rfl

theorem dispatchWord_bus {w : Word} {s t : State} (h : dispatchWord w s = .next t) : t.bus = s.bus := by
  rcases dispatchWord_cases h with ⟨-, rfl⟩ | ⟨-, -, rfl⟩ | ⟨-, i, -, hx⟩
  · rfl
  · rfl
  · exact (engineFrame_exec hx).bus

/-- A write of the block is answered before it takes effect or is dropped. -/
theorem writeAt_bus {off : Nat} {data : Word} {s t : State} (h : writeAt off data s = .next t) :
    t.bus = s.bus := by
  rcases writeAt_cases h with ⟨-, rfl⟩ | ⟨-, -, hd⟩ | ⟨-, -, rfl⟩
  · rfl
  · exact dispatchWord_bus hd
  · exact writeReg_bus _ data s

/-- An access of the block of another size or alignment answers a bus error and does nothing else. -/
theorem handle_misaligned (s : State) {off size : Nat} (data : Word) (h : off < 256) (h0 : 0 < size)
    (ha : size ≠ 4 ∨ off % 4 ≠ 0) :
    handle (.hostWrite (s.config.base + off) size data) s = .next { s with bus := .busError } ∧
      handle (.hostRead (s.config.base + off) size) s = .next { s with bus := .busError } := by
  simp only [handle, hostWrite, hostRead, select_busError s.config h h0 ha, and_self]

/-- Settles O18: such an access selects no register; an aligned 32-bit one selects its offset, whose write and
read are answered. -/
theorem unalignedHostAccessChangesNothing : Obligations.UnalignedHostAccessChangesNothing := by
  intro s off size data hoff hsize
  simp only [step_facing]
  refine ⟨handle_misaligned s data hoff hsize, ?_⟩
  rintro rfl hal
  refine ⟨?_, _, handle_rdEvent s hoff hal⟩
  obtain ⟨t, ht⟩ := writeAt_next off data { s with bus := .ack }
  exact ⟨t, (handle_wrEvent s data hoff hal).trans ht, writeAt_bus ht⟩

/-! ### The buffers of the command in progress -/

/-- The addresses of a buffer, found by their index. -/
theorem inBuffer_iff (c : Config) {base n a : Nat} (hb : base < 2 ^ c.aw) (hn : n ≤ 2 ^ c.aw) (ha : a < 2 ^ c.aw) :
    inBuffer c base n a = true ↔ ∃ i, i < n ∧ a = truncAddr c (base + i) := by
  rw [inBuffer, decide_eq_true_iff]
  constructor
  · intro h
    exact ⟨_, h, (truncAddr_bufferIndex c hb ha).symm⟩
  · rintro ⟨i, hi, rfl⟩
    rwa [bufferIndex_truncAddr c hb (by omega)]

/-- An EMIT's ranges, as they stood at its acceptance, start at addresses. -/
theorem footprint_of_emit {s : State} {n : BitVec 7} (hc : s.current = some (.emit n)) :
    s.footprint.src < 2 ^ s.config.aw ∧ s.footprint.dst < 2 ^ s.config.aw ∧ s.footprint.count = n.toNat := by
  unfold State.footprint
  rw [hc]
  exact ⟨truncAddr_lt _ _, truncAddr_lt _ _, rfl⟩

theorem footprint_of_process {s : State} (hc : s.current = some .process) :
    s.footprint = ⟨s.cfg.ks, s.src.toNat, s.dst.toNat, s.len.toNat⟩ := by
  unfold State.footprint
  rw [hc]

/-- A command that is neither EMIT nor PROCESS has no footprint. -/
theorem footprint_of_other {s : State} {i : Instr} (hc : s.current = some i) (he : ∀ n, i ≠ .emit n)
    (hp : i ≠ .process) : s.footprint = ⟨true, 0, 0, 0⟩ := by
  unfold State.footprint
  rw [hc]
  cases i with
  | emit n => exact absurd rfl (he n)
  | process => exact absurd rfl hp
  | nop | init | loadx | dround | feed | block => rfl

/-- A call whose checks pass is no longer than the address space. -/
theorem len_le_of_callCheck {s : State} (h : callCheck s = .none) : s.len.toNat ≤ 2 ^ s.config.aw := by
  obtain ⟨-, hrange, -⟩ := callCheck_eq_none.1 h
  rcases Nat.eq_zero_or_pos s.len.toNat with h0 | hpos
  · rw [h0]
    exact Nat.zero_le _
  · have := (rangeBad_eq_false.1 hrange hpos).1
    omega

/-- The buffers of the command in progress start at addresses and are no longer than the address space: an EMIT
moves at most 64 bytes, and the checks of a call bound its length. -/
theorem footprint_bounds {s : State} (hs : SeqInv s) (hp : ParamInv s) :
    s.footprint.src < 2 ^ s.config.aw ∧ s.footprint.dst < 2 ^ s.config.aw ∧
      s.footprint.count ≤ 2 ^ s.config.aw := by
  obtain ⟨⟨haw, -⟩, -, -, hsrc, hdst, -⟩ := hp
  have hpos := Nat.two_pow_pos s.config.aw
  cases hb : s.busy with
  | false =>
    rw [footprint_of_not_busy hb]
    exact ⟨hpos, hpos, hpos.le⟩
  | true =>
    obtain ⟨i, hc, hwf, -⟩ := hs.2.2 hb
    cases i with
    | emit n =>
      obtain ⟨hfs, hfd, hn⟩ := footprint_of_emit hc
      have hn64 : n.toNat ≤ 64 := of_decide_eq_true hwf
      have h256 : 2 ^ 8 ≤ 2 ^ s.config.aw := Nat.pow_le_pow_right (by decide) haw
      exact ⟨hfs, hfd, by omega⟩
    | process =>
      rw [footprint_of_process hc]
      exact ⟨hsrc, hdst, len_le_of_callCheck (callCheck_of_process hs hc)⟩
    | nop | init | loadx | dround | feed | block =>
      rw [footprint_of_other hc nofun nofun]
      exact ⟨hpos, hpos, hpos.le⟩

theorem owns_of_not_busy {s : State} (h : s.busy = false) (a : Nat) :
    s.ownsOutput a = false ∧ s.ownsInput a = false := by
  simp [State.ownsOutput, State.ownsInput, inBuffer, footprint_of_not_busy h]

/-! ### Other agents' reads of an output byte -/

/-- The completed command writes the new byte where no other agent wrote (60_exceptions.md R151). -/
theorem oldOrNew_of_newByte {s : State} {i : Nat} {v : Byte} (hu : Untouched s i) (h : s.newByte i = some v) :
    OldOrNew s i v := by
  right
  unfold State.newByte at h
  cases hks : s.footprint.ks with
  | true =>
    rw [hks] at h
    cases h
    simp
  | false =>
    have hin : ∀ r ∈ s.races, r.addr ≠ truncAddr s.config (s.footprint.src + i) := fun r hr =>
      (hu r hr).2.resolve_left (by simp [hks])
    rw [hks] at h
    simp only [Bool.false_eq_true, if_false, seenByte_of_not_raced _ hin] at h
    split at h
    · cases h
      rfl
    · cases h

/-- A byte that may have landed is old or new (93_implementation_defined.md U27). -/
theorem oldOrNew_landed {s : State} {i : Nat} (hu : Untouched s i) (b : Bool) :
    let old := Memory.read s.accMem (truncAddr s.config (s.footprint.dst + i))
    OldOrNew s i (if b then (s.newByte i).getD old else old) := by
  intro old
  cases b with
  | false => exact .inl rfl
  | true =>
    cases hn : s.newByte i with
    | none => exact .inl rfl
    | some v => exact oldOrNew_of_newByte hu hn

/-- What another agent reads of an output byte that no agent touched. -/
theorem windowByte_oldOrNew {s : State} {a : Nat} (hdst : s.footprint.dst < 2 ^ s.config.aw)
    (ha : a < 2 ^ s.config.aw) (hu : Untouched s (bufferIndex s.config s.footprint.dst a)) :
    OldOrNew s (bufferIndex s.config s.footprint.dst a) (s.windowByte a) := by
  have haddr := truncAddr_bufferIndex s.config hdst ha
  have hraced : (s.races.any fun r => r.addr = a) = false := by
    rw [List.any_eq_false]
    intro r hr
    have := (hu r hr).1
    rw [haddr] at this
    simpa using this
  have h := oldOrNew_landed hu (Config.landed s.draw (bufferIndex s.config s.footprint.dst a))
  rw [haddr] at h
  simpa only [State.windowByte, hraced, Bool.false_eq_true, if_false] using h

/-- Settles O50: `MemOK` (log 23) and the ownership of the byte decide what an access does (log 14). While a
command is in progress its buffers start at addresses and do not wrap onto themselves, so an index finds every
byte of them. -/
theorem touchingACallsBufferIsARace : Obligations.TouchingACallsBufferIsARace := by
  intro s a v
  simp only [step_facing, handle, memWrite, memRead]
  refine ⟨fun hno => by simp [hno], fun hok => ?_, fun hm b => ?_, fun hb => owns_of_not_busy hb a, ?_⟩
  · refine ⟨fun ho hi => by simp [hok, ho, hi], fun h => ?_, fun ho => by simp [hok, ho], fun ho => ?_⟩
    · simp [hok, h]
    · refine ⟨s.windowByte a, by simp [hok, ho], ?_⟩
      rintro ⟨-, hseq, hparam, -⟩ hu
      exact windowByte_oldOrNew (footprint_bounds hseq hparam).2.1 (memOK_lt hok) hu
  · split
    · rename_i hba
      rw [hba, Memory.read_write_same a v hm.1]
    · rename_i hba
      exact Memory.read_write_other s.mem v hba
  · rintro ⟨-, hseq, hparam, -⟩ ha
    obtain ⟨hsrc, hdst, hn⟩ := footprint_bounds hseq hparam
    rw [State.ownsOutput, State.ownsInput, Bool.and_eq_true, Bool.not_eq_true', inBuffer_iff _ hdst hn ha,
      inBuffer_iff _ hsrc hn ha]
    exact ⟨Iff.rfl, Iff.rfl⟩

end Sys2Proof.Machine
end

section
/-! PROOFS. Decoding and encoding: the fields of a command word, that each is the inverse of the other, and the
legal words (30_encoding.md R66 to R70). -/

namespace Sys2Proof.Machine

/-! ### The fields of a command word -/

/-- A word is its opcode field over its 24 low bits. -/
theorem opcodeField_append (w : Word) : opcodeField w ++ w.extractLsb' 0 24 = w :=
  BitVec.extractLsb'_append_extractLsb'

/-- The 24 low bits are bits 23:7 over bits 6:0 (R66). -/
theorem operandField_append (w : Word) : w.extractLsb' 7 17 ++ w.extractLsb' 0 7 = w.extractLsb' 0 24 :=
  BitVec.extractLsb'_append_extractLsb'_eq_extractLsb' rfl

theorem opcodeField_encode (i : Instr) : opcodeField (encode i) = i.opcode :=
  BitVec.extractLsb'_append_eq_left

theorem operandField_encode (i : Instr) : (encode i).extractLsb' 0 24 = i.operand :=
  BitVec.extractLsb'_append_eq_right

/-- The operand of EMIT is its byte count below 17 bits that are 0. -/
theorem operand_emit (n : BitVec 7) : (Instr.emit n).operand = (0 : BitVec 17) ++ n :=
  BitVec.setWidth_eq_append (by decide)

theorem emitFields_encode (n : BitVec 7) :
    (encode (.emit n)).extractLsb' 7 17 = 0 ∧ (encode (.emit n)).extractLsb' 0 7 = n := by
  have field : ∀ start len, start + len ≤ 24 →
      (encode (.emit n)).extractLsb' start len = ((0 : BitVec 17) ++ n).extractLsb' start len := fun _ _ h => by
    rw [← BitVec.extractLsb'_extractLsb'_of_le h, operandField_encode, operand_emit]
  exact ⟨(field 7 17 (by decide)).trans BitVec.extractLsb'_append_eq_left,
    (field 0 7 (by decide)).trans BitVec.extractLsb'_append_eq_right⟩

theorem operand_of_formatZ {i : Instr} (h : ∀ n, i ≠ .emit n) : i.operand = 0 := by
  cases i with
  | emit n => exact absurd rfl (h n)
  | nop | init | loadx | dround | feed | block | process => rfl

theorem opcode_eq_emit {i : Instr} : i.opcode = 0x05 ↔ ∃ n, i = .emit n := by
  cases i <;> simp [Instr.opcode]

/-! ### The decoder -/

/-- The map of R69 without EMIT, read from the opcode to the command. -/
theorem opcode_of_formatZ {op : BitVec 8} {i : Instr} (h : formatZ op = some i) :
    (∀ n, i ≠ .emit n) ∧ i.opcode = op := by
  unfold formatZ at h
  split_ifs at h <;> cases h <;> exact ⟨nofun, Eq.symm ‹_›⟩

theorem decode_encode {i : Instr} (h : i.wf = true) : decode (encode i) = some i := by
  unfold decode
  rw [opcodeField_encode, operandField_encode]
  by_cases he : ∃ n, i = .emit n
  · obtain ⟨n, rfl⟩ := he
    obtain ⟨hzero, hn⟩ := emitFields_encode n
    rw [if_pos (opcode_eq_emit.2 ⟨n, rfl⟩), hzero, hn, if_pos ⟨rfl, of_decide_eq_true h⟩]
  · rw [if_neg (mt opcode_eq_emit.1 he), if_pos (operand_of_formatZ (not_exists.1 he)),
      formatZ_opcode (not_exists.1 he)]

/-- A word that decodes has the opcode and the operand of its command in its fields. -/
theorem encode_of_decode {w : Word} {i : Instr} (h : decode w = some i) : encode i = w := by
  suffices hf : i.opcode = opcodeField w ∧ i.operand = w.extractLsb' 0 24 by
    rw [encode, hf.1, hf.2, opcodeField_append]
  unfold decode at h
  split at h
  · rename_i hop
    split at h
    · rename_i hn
      cases h
      rw [operand_emit, ← operandField_append, hn.1]
      exact ⟨hop.symm, rfl⟩
    · cases h
  · split at h
    · rename_i hz
      obtain ⟨hi, hop⟩ := opcode_of_formatZ h
      exact ⟨hop, (operand_of_formatZ hi).trans hz.symm⟩
    · cases h

/-- Settles O1: a command and a word that belong together have the same opcode and operand fields, and the two
fields make up the word. -/
theorem decodeExactlyInvertsEncode : Obligations.DecodeExactlyInvertsEncode := by
  intro w i
  constructor
  · exact fun h => ⟨wf_of_decode h, encode_of_decode h⟩
  · rintro ⟨hwf, rfl⟩
    exact decode_encode hwf

/-- Settles O3: each word is evaluated. -/
theorem commandWordsDecodeAsTheMapSays : Obligations.CommandWordsDecodeAsTheMapSays := by
  unfold Obligations.CommandWordsDecodeAsTheMapSays
  decide

/-! ### The legal words -/

/-- The commands of format Z (R67). -/
def formatZCommands : List Instr := [.nop, .init, .loadx, .dround, .feed, .block, .process]

/-- The well-formed EMIT commands, of 0 to 64 bytes (R68). -/
def emitCommands : List Instr := (List.range 65).map fun n => .emit (BitVec.ofNat 7 n)

theorem opcode_of_mem_formatZCommands {i : Instr} (h : i ∈ formatZCommands) : i.opcode ≠ 0x05 := by
  revert i
  decide

theorem opcode_of_mem_emitCommands {i : Instr} (h : i ∈ emitCommands) : i.opcode = 0x05 := by
  obtain ⟨n, -, rfl⟩ := List.mem_map.1 h
  rfl

theorem wf_iff_mem (i : Instr) : i.wf = true ↔ i ∈ formatZCommands ++ emitCommands := by
  cases i with
  | emit n =>
    simp only [Instr.wf, decide_eq_true_eq, formatZCommands, emitCommands, List.mem_append, List.mem_map,
      List.mem_range, Instr.emit.injEq]
    constructor
    · exact fun h => .inr ⟨n.toNat, by omega, BitVec.ofNat_toNat ..⟩
    · rintro (h | ⟨k, hk, rfl⟩)
      · simp at h
      · rw [BitVec.toNat_ofNat]
        omega
  | nop | init | loadx | dround | feed | block | process => simp [Instr.wf, formatZCommands]

theorem encode_injOn {i j : Instr} (hi : i.wf = true) (hj : j.wf = true) (h : encode i = encode j) : i = j :=
  Option.some.inj ((decode_encode hi).symm.trans ((congrArg decode h).trans (decode_encode hj)))

theorem nodup_commands : (formatZCommands ++ emitCommands).Nodup := by
  decide

theorem decode_ne_none_iff (w : Word) : decode w ≠ none ↔ w ∈ (formatZCommands ++ emitCommands).map encode := by
  rw [List.mem_map, Option.ne_none_iff_exists']
  exact exists_congr fun i => by rw [decodeExactlyInvertsEncode w i, wf_iff_mem]

/-- Settles O2: the legal words are the encodings of the 7 commands of format Z and of the 65 EMIT commands, and
no two commands have the same encoding. -/
theorem seventyTwoWordsAreLegal : Obligations.SeventyTwoWordsAreLegal := by
  refine ⟨formatZCommands.map encode, emitCommands.map encode, rfl, rfl, ?_, ?_, ?_, fun w => ?_⟩
  · rw [← List.map_append]
    exact nodup_commands.map_on fun i hi j hj => encode_injOn ((wf_iff_mem i).2 hi) ((wf_iff_mem j).2 hj)
  · refine List.forall_mem_map.2 fun i hi => ?_
    rw [opcodeField_encode]
    exact opcode_of_mem_formatZCommands hi
  · refine List.forall_mem_map.2 fun i hi => ?_
    rw [opcodeField_encode]
    exact opcode_of_mem_emitCommands hi
  · rw [decode_ne_none_iff, List.map_append]

end Sys2Proof.Machine
end

section
/-! PROOFS. A call as a whole: the keystream as a list of bytes, the bytes a pass makes ready, and the state in which
the passes of PROCESS end (40_arx_datapath.md R96; 42_block_and_process.md R114 to R119). -/

namespace Sys2Proof.Machine

/-! ### The keystream -/

/-- The first `n` bytes of the keystream from `m` on (40_arx_datapath.md R96). -/
def keystreamBytes (w : CtrWidth) (m : Matrix) (ndr n : Nat) : List Byte := (List.range n).map (keystream w m ndr)

@[simp] theorem keystreamBytes_zero (w : CtrWidth) (m : Matrix) (ndr : Nat) : keystreamBytes w m ndr 0 = [] := rfl

@[simp] theorem length_keystreamBytes (w : CtrWidth) (m : Matrix) (ndr n : Nat) :
    (keystreamBytes w m ndr n).length = n := by
  simp [keystreamBytes]

theorem take_keystreamBytes (w : CtrWidth) (m : Matrix) (ndr : Nat) {n k : Nat} (h : n ≤ k) :
    (keystreamBytes w m ndr k).take n = keystreamBytes w m ndr n := by
  rw [keystreamBytes, ← List.map_take, List.take_range, Nat.min_eq_left h, keystreamBytes]

/-- The keystream from the counter `k` blocks on is the keystream from byte `64 k` on. -/
theorem keystream_ctrIncBy (w : CtrWidth) (m : Matrix) (ndr k i : Nat) :
    keystream w (ctrIncBy w m k) ndr i = keystream w m ndr (64 * k + i) := by
  have hdiv : (64 * k + i) / 64 = k + i / 64 := by omega
  have hmod : (64 * k + i) % 64 = i % 64 := by omega
  simp only [keystream, ctrIncBy_add, hdiv, hmod]

theorem keystreamBytes_append (w : CtrWidth) (m : Matrix) (ndr k n : Nat) :
    keystreamBytes w m ndr (64 * k + n) =
      keystreamBytes w m ndr (64 * k) ++ keystreamBytes w (ctrIncBy w m k) ndr n := by
  have htail : (List.range n).map (keystream w m ndr ∘ (64 * k + ·)) = keystreamBytes w (ctrIncBy w m k) ndr n :=
    List.map_congr_left fun i _ => (keystream_ctrIncBy w m ndr k i).symm
  rw [← htail, keystreamBytes, List.range_add, List.map_append, List.map_map, keystreamBytes]

/-- The first 64 bytes are the block of the counter value in `m` (R95). -/
theorem keystreamBytes_block (w : CtrWidth) (m : Matrix) (ndr : Nat) :
    keystreamBytes w m ndr 64 = (blockBytes m ndr).toList := by
  refine List.ext_getElem (by simp) fun i hi _ => ?_
  rw [length_keystreamBytes] at hi
  simp [keystreamBytes, keystream, Nat.div_eq_of_lt hi, Nat.mod_eq_of_lt hi, ctrIncBy]

/-! ### The slots of a vector iteration -/

/-- The double-round of the row registers is the indexed one (40_arx_datapath.md R90). -/
theorem DRlane_eq_DR (m : Matrix) : DRlane m = DR m := rfl

/-- A slot after `k` double-rounds. -/
def Slot.rounds (k : Nat) (sl : Slot) : Slot := { sl with x := Machine.rounds sl.x k }

@[simp] theorem Slot.rounds_zero : Slot.rounds 0 = id := rfl

/-- What `k` double-rounds of a vector iteration do. -/
theorem roundPhases_true (k : Nat) (s : State) :
    roundPhases true k s =
      { s with X := rounds s.X k, slots := s.slots.map (Slot.rounds k), drc := s.drc + BitVec.ofNat 5 k } := by
  induction k generalizing s with
  | zero => simp [roundPhases, rounds]
  | succ k ih =>
    have hd : s.drc + 1#5 + BitVec.ofNat 5 k = s.drc + BitVec.ofNat 5 (k + 1) := by
      rw [BitVec.add_assoc, ← BitVec.ofNat_add, Nat.add_comm]
    simp [roundPhases, ih, roundPhase, DRlane_eq_DR, rounds_DR, rounds, hd, Slot.rounds, Function.comp_def]

/-- The slots hold the blocks that follow the one of slot 0 (42_block_and_process.md R116). -/
theorem slotBytes_of_pass (w : CtrWidth) (m : Matrix) (ndr : Nat) (l : List Slot) :
    ((feedSlots w m ((loadSlots w m l).map (Slot.rounds ndr))).flatMap fun sl => sl.ks.toList) =
      keystreamBytes w (ctrInc w m) ndr (64 * l.length) := by
  induction l generalizing m with
  | nil => rfl
  | cons sl l ih =>
    have happ := keystreamBytes_append w (ctrInc w m) ndr 1 (64 * l.length)
    rw [List.length_cons, show 64 * (l.length + 1) = 64 * 1 + 64 * l.length by omega, happ, keystreamBytes_block]
    simp only [loadSlots, List.map_cons, feedSlots, List.flatMap_cons, ih]
    rfl

/-! ### A pass -/

/-- What one vector pass makes ready: `BPI` blocks. -/
theorem readyBytes_blockPass_true {s : State} (hsl : s.slots.length = s.config.bpi.count - 1)
    (hb : 1 < s.config.bpi.count) :
    (blockPass true s).readyBytes =
      keystreamBytes s.config.ctrWidth s.S s.ndr.toNat (64 * s.config.bpi.count) := by
  have hlen : 64 * s.config.bpi.count = 64 * 1 + 64 * s.slots.length := by omega
  rw [hlen, keystreamBytes_append, keystreamBytes_block]
  have hslots := slotBytes_of_pass s.config.ctrWidth s.S s.ndr.toNat s.slots
  simp only [blockPass, roundPhases_true, State.readyBytes, feedPhase_KS, feedPhase_slots, loadPhase_X,
    loadPhase_slots, loadPhase_S, loadPhase_config, if_true]
  rw [hslots]
  rfl

theorem passBytes_le_passBlocks (s : State) : s.passBytes ≤ 64 * passBlocks s.vectorPass s := by
  unfold State.passBytes passBlocks
  split
  · exact Nat.le_refl _
  · exact Nat.min_le_left ..

/-- The bytes a pass of a call moves are the next ones of the keystream, in either path (R116, R118). -/
theorem take_readyBytes_pass {s : State} (hsl : s.slots.length = s.config.bpi.count - 1) :
    (blockPass s.vectorPass s).readyBytes.take s.passBytes =
      keystreamBytes s.config.ctrWidth s.S s.ndr.toNat s.passBytes := by
  have hle := passBytes_le_passBlocks s
  cases hv : s.vectorPass with
  | true =>
    have hb : 1 < s.config.bpi.count := by
      simp only [State.vectorPass, Bool.and_eq_true, decide_eq_true_eq] at hv
      exact hv.1.1
    rw [hv, passBlocks, if_pos rfl] at hle
    rw [readyBytes_blockPass_true hsl hb, take_keystreamBytes _ _ _ hle]
  | false =>
    rw [take_readyBytes _ (passBytes_le hv), blockPass_false, ← keystreamBytes_block s.config.ctrWidth,
      take_keystreamBytes _ _ _ (passBytes_le hv)]

/-! ### The bytes of a call -/

/-- The state with `n` further bytes of the call moved: keystream byte `i` from the counter in `S` on is combined
into byte `i` of the stream, the pointers and `REM` advance by `n`, the counter by the blocks used. -/
def State.streamed (s : State) (n : Nat) : State :=
  { s with
    mem := moveBytes s.config s.ksl (keystreamBytes s.config.ctrWidth s.S s.ndr.toNat n) s.sp.toNat s.dp.toNat s.mem
    S := ctrIncBy s.config.ctrWidth s.S ((n + 63) / 64)
    sp := BitVec.ofNat 32 (truncAddr s.config (s.sp.toNat + n))
    dp := BitVec.ofNat 32 (truncAddr s.config (s.dp.toNat + n))
    rem := s.rem - BitVec.ofNat 32 n }

theorem streamed_zero {s : State} (hs : s.sp.toNat < 2 ^ s.config.aw) (hd : s.dp.toNat < 2 ^ s.config.aw) :
    s.streamed 0 = s := by
  simp [State.streamed, moveBytes, ctrIncBy, truncAddr_of_lt hs, truncAddr_of_lt hd]

/-- Whole blocks first, then the rest. -/
theorem streamed_add {s : State} (haw : s.config.aw ≤ 32) (k m : Nat) :
    (s.streamed (64 * k)).streamed m = s.streamed (64 * k + m) := by
  have hctr : (64 * k + (m + 63)) / 64 = k + (m + 63) / 64 := by omega
  have hk : (64 * k + 63) / 64 = k := by omega
  have hmove : ∀ ks sp dp mem, moveBytes s.config s.ksl ks (truncAddr s.config sp) (truncAddr s.config dp) mem =
      moveBytes s.config s.ksl ks sp dp mem := fun _ _ _ _ =>
    moveBytes_truncAddr _ _ _ _ (Nat.mod_mod ..) (Nat.mod_mod ..)
  simp only [State.streamed, toNat_ofNat_truncAddr haw, truncAddr_add_truncAddr, hmove, keystreamBytes_append,
    moveBytes_append, length_keystreamBytes, hctr, ctrIncBy_add, hk, BitVec.ofNat_add, Nat.add_assoc, sub_sub]

/-! ### The passes of a call -/

/-- A call between two passes: the parameters fit, the pointers are addresses, every access of the bytes that are
left is admitted, and no block is under way. -/
structure BetweenPasses (s : State) : Prop where
  aw : s.config.aw ≤ 32
  slots : s.slots.length = s.config.bpi.count - 1
  sp : s.sp.toNat < 2 ^ s.config.aw
  dp : s.dp.toNat < 2 ^ s.config.aw
  ok : rangeOK s.config s.ksl s.sp.toNat s.dp.toNat s.rem.toNat = true
  xv : s.xv = false
  kv : s.kv = false
  drc : s.drc = 0

theorem rangeOK_of_le {c : Config} {ksl : Bool} {sp dp n m : Nat} (h : rangeOK c ksl sp dp n = true) (hm : m ≤ n) :
    rangeOK c ksl sp dp m = true :=
  (rangeOK_iff ..).2 fun i hi => (rangeOK_iff ..).1 h i (hi.trans_le hm)

/-- The accesses that are left after the first `n` bytes. -/
theorem rangeOK_drop {c : Config} {ksl : Bool} {sp dp n m : Nat} (h : rangeOK c ksl sp dp (n + m) = true) :
    rangeOK c ksl (truncAddr c (sp + n)) (truncAddr c (dp + n)) m = true := by
  refine (rangeOK_iff ..).2 fun i hi => ?_
  rw [truncAddr_add_truncAddr, truncAddr_add_truncAddr, Nat.add_assoc, Nat.add_assoc]
  exact (rangeOK_iff ..).1 h (n + i) (Nat.add_lt_add_left hi n)

/-- A pass moves its bytes of the call, whichever path it takes. -/
theorem pass_eq {s : State} (h : BetweenPasses s) (h0 : s.rem ≠ 0) :
    ∃ x ks sl, emitPhase s.passBytes (blockPass s.vectorPass s) =
      { s.streamed s.passBytes with X := x, KS := ks, slots := sl } := by
  have hready := take_readyBytes_pass h.slots
  have hblocks : passBlocks s.vectorPass s = (s.passBytes + 63) / 64 := by
    have := BitVec.toNat_pos_of_ne_zero h0
    unfold State.passBytes passBlocks
    split <;> omega
  obtain ⟨x, ks, sl, e⟩ := blockPass_frame s.vectorPass s
  rw [e, hblocks] at hready
  rw [e, hblocks]
  exact ⟨x, ks, sl, by simp only [emitPhase, hready, State.streamed, h.xv, h.kv, h.drc]⟩

/-- A pass that is not the last one moves whole blocks. -/
theorem passBytes_cases (s : State) : s.passBytes = s.rem.toNat ∨ ∃ k, s.passBytes = 64 * k := by
  unfold State.passBytes
  split
  · exact .inr ⟨_, rfl⟩
  · rcases Nat.le_total s.rem.toNat 64 with h | h
    · exact .inl (Nat.min_eq_right h)
    · exact .inr ⟨1, Nat.min_eq_left h⟩

theorem streamed_rem {s : State} {n : Nat} (h : n ≤ s.rem.toNat) : (s.streamed n).rem.toNat = s.rem.toNat - n :=
  emitPhase_rem_toNat h

theorem BetweenPasses.emitOK {s : State} (h : BetweenPasses s) :
    (blockPass s.vectorPass s).emitOK s.passBytes = true := by
  have hf := callFrame_blockPass s.vectorPass s
  rw [State.emitOK, hf.config, hf.ksl, hf.sp, hf.dp]
  exact rangeOK_of_le h.ok (passBytes_le_rem s)

theorem BetweenPasses.pass {s : State} (h : BetweenPasses s) :
    BetweenPasses { emitPhase s.passBytes (blockPass s.vectorPass s) with ph := .emitp } := by
  have hf := callFrame_blockPass s.vectorPass s
  have hslots := (engineFrame_blockPass s.vectorPass s).slots
  have hrem := pass_rem s
  have hle := passBytes_le_rem s
  have addr := toNat_ofNat_truncAddr h.aw
  constructor <;> dsimp only
  case ok =>
    rw [hrem, emitPhase_config, emitPhase_ksl, emitPhase_sp, emitPhase_dp, hf.config, hf.ksl, hf.sp, hf.dp, addr, addr]
    refine rangeOK_drop ?_
    rw [Nat.add_sub_cancel' hle]
    exact h.ok
  case slots => rw [emitPhase_slots, hslots, emitPhase_config, hf.config, h.slots]
  case aw => rw [emitPhase_config, hf.config]; exact h.aw
  case sp => rw [emitPhase_sp, emitPhase_config, hf.config, addr]; exact truncAddr_lt _ _
  case dp => rw [emitPhase_dp, emitPhase_config, hf.config, addr]; exact truncAddr_lt _ _
  all_goals rfl

/-- What a pass leaves to be moved completes the call. -/
theorem streamed_pass {s : State} (haw : s.config.aw ≤ 32) :
    (s.streamed s.passBytes).streamed (s.streamed s.passBytes).rem.toNat = s.streamed s.rem.toNat := by
  rw [streamed_rem (passBytes_le_rem s)]
  rcases passBytes_cases s with h | ⟨k, h⟩
  · have addr : ∀ v, (BitVec.ofNat 32 (truncAddr s.config v)).toNat < 2 ^ s.config.aw := fun v => by
      rw [toNat_ofNat_truncAddr haw]
      exact truncAddr_lt _ _
    rw [h, Nat.sub_self, streamed_zero (addr _) (addr _)]
  · have hle := passBytes_le_rem s
    rw [h] at hle ⊢
    rw [streamed_add haw, Nat.add_sub_cancel' hle]

/-- The state `t` is `s` with all the bytes of its call moved and the effect complete. What the block pipeline
holds, and the phase, are left open. -/
def CallMoved (s t : State) : Prop :=
  ∃ x ks sl p, t = { s.streamed s.rem.toNat with X := x, KS := ks, slots := sl, ph := p, fin := true }

theorem callMoved_of_rem_eq_zero {s : State} (h : BetweenPasses s) (h0 : s.rem = 0) :
    CallMoved s { s with fin := true } := by
  have hz : s.streamed s.rem.toNat = s := by
    rw [show s.rem.toNat = 0 from congrArg BitVec.toNat h0]
    exact streamed_zero h.sp h.dp
  exact ⟨s.X, s.KS, s.slots, s.ph, by rw [hz]⟩

theorem processPasses_callMoved (fuel : Nat) {s : State} (h : BetweenPasses s) (hfuel : s.rem.toNat ≤ 64 * fuel) :
    CallMoved s (processPasses fuel s) := by
  induction fuel generalizing s with
  | zero => exact callMoved_of_rem_eq_zero h (BitVec.eq_of_toNat_eq (Nat.le_zero.mp hfuel))
  | succ fuel ih =>
    by_cases h0 : s.rem = 0
    · rw [processPasses_of_rem_eq_zero _ h0]
      exact callMoved_of_rem_eq_zero h h0
    · have hmin := min_le_passBytes s
      obtain ⟨x, ks, sl, e⟩ := pass_eq h h0
      obtain ⟨x', ks', sl', p, he⟩ := ih h.pass (show (emitPhase _ _).rem.toNat ≤ _ by rw [pass_rem]; omega)
      refine ⟨x', ks', sl', p, ?_⟩
      rw [processPasses, if_neg h0]
      dsimp only
      rw [if_pos h.emitOK, he, e, ← streamed_pass h.aw]
      rfl

/-! ### The effect of PROCESS -/

/-- `MemOK` admits every access of the call that the argument registers describe (42_block_and_process.md R115). -/
abbrev CallMemOK (s : State) : Prop :=
  rangeOK s.config s.cfg.ks s.src.toNat s.dst.toNat s.len.toNat = true

theorem initPhase_betweenPasses {s : State} (hp : ParamInv s) (hok : CallMemOK s) : BetweenPasses (initPhase s) := by
  obtain ⟨⟨-, haw, -⟩, hslots, -, hsrc, hdst, -⟩ := hp
  exact ⟨haw, hslots, hsrc, hdst, hok, rfl, rfl, rfl⟩

/-- The effect of PROCESS moves the bytes of the call that INIT latches (R114). -/
theorem processEffect_callMoved {s : State} (hp : ParamInv s) (hok : CallMemOK s) :
    CallMoved (initPhase s) (processEffect s) :=
  processPasses_callMoved _ (initPhase_betweenPasses hp hok) (show s.len.toNat ≤ _ by omega)

/-- The contract of a call, in memory (R115): every output byte is input byte XOR keystream byte, and every other
byte is as it was. -/
theorem processEffect_read {s : State} (hp : ParamInv s) (hm : MemInv s) (hok : CallMemOK s)
    (hc : callCheck s = .none) :
    (∀ i, i < s.len.toNat → Memory.read (processEffect s).mem (s.dst.toNat + i) = inputByte s i ^^^ callKey s i) ∧
      ∀ a, (a < s.dst.toNat ∨ s.dst.toNat + s.len.toNat ≤ a) →
        Memory.read (processEffect s).mem a = Memory.read s.mem a := by
  obtain ⟨x, ks, sl, p, e⟩ := processEffect_callMoved hp hok
  have hmem : (processEffect s).mem = moveBytes s.config s.cfg.ks
      (keystreamBytes s.config.ctrWidth s.argMatrix (ndrOf s.cfg.rc).toNat s.len.toNat) s.src.toNat s.dst.toNat
      s.mem := by
    rw [e]
    rfl
  have hstream := initPhase_streamInv hp hc rfl
  rw [hmem]
  constructor
  · intro i hi
    obtain ⟨-, -, hbounds⟩ := hstream
    obtain ⟨hd, hxor⟩ := hbounds (show 0 < s.len.toNat by omega)
    rw [read_moveBytes _ _ _ _ _ _ hm.1 (by rwa [length_keystreamBytes]) ?_ i (by rwa [length_keystreamBytes])]
    · simp [keystreamBytes, inputByte, callKey]
    · rw [length_keystreamBytes]
      intro hks
      obtain ⟨hr, hsep⟩ := hxor hks
      exact ⟨hr, hsep.imp_left (congrArg BitVec.toNat)⟩
  · intro a ha
    refine read_moveBytes_other _ _ _ _ _ _ fun i hi => ?_
    rw [length_keystreamBytes] at hi
    obtain ⟨-, -, hbounds⟩ := hstream
    have hd := (hbounds (show 0 < s.len.toNat by omega)).1
    have hd' : s.dst.toNat + s.len.toNat ≤ 2 ^ s.config.aw := hd
    rw [truncAddr_of_lt (by omega)]
    omega

end Sys2Proof.Machine
end

section
/-! PROOFS. The engine does not see the host's side: its turns neither read nor write the answer of the last
transaction nor what the outside does next. -/

namespace Sys2Proof.Machine

/-- The state with the host's side set: the answer of the last transaction, and what the outside does next. -/
def State.withHost (s : State) (b : BusReply) (es : List Event) : State := { s with bus := b, inbox := es }

variable (s : State) (b : BusReply) (es : List Event)

/-! ### The end of a command -/

theorem raceInputs_withHost (l : List Race) (m : Memory) :
    (s.withHost b es).raceInputs l m = s.raceInputs l m := by
  induction l with
  | nil => rfl
  | cons r l ih =>
    simp only [State.raceInputs, ih]
    rfl

theorem raceOutputs_withHost (l : List Race) (m : Memory) :
    (s.withHost b es).raceOutputs l m = s.raceOutputs l m := by
  induction l with
  | nil => rfl
  | cons r l ih =>
    simp only [State.raceOutputs, ih]
    rfl

theorem complete_withHost : (s.withHost b es).complete = s.complete.withHost b es := by
  have hmem : (s.withHost b es).completed = s.completed := by
    rw [State.completed, raceOutputs_withHost, raceInputs_withHost]
    rfl
  exact congrArg (fun m => { (s.complete.withHost b es) with mem := m }) hmem

theorem raise_bus_withHost : (s.withHost b es).raise .bus = (s.raise .bus).withHost b es := by
  have hmem : (s.withHost b es).settled = s.settled := raceOutputs_withHost s b es _ _
  exact congrArg (fun m => { ((s.raise .bus).withHost b es) with mem := m }) hmem

/-! ### The effects -/

theorem roundPhases_withHost (vec : Bool) (k : Nat) :
    roundPhases vec k (s.withHost b es) = (roundPhases vec k s).withHost b es := by
  induction k generalizing s with
  | zero => rfl
  | succ k ih => exact ih (roundPhase vec s)

theorem blockPass_withHost (vec : Bool) : blockPass vec (s.withHost b es) = (blockPass vec s).withHost b es :=
  congrArg (feedPhase vec) (roundPhases_withHost (loadPhase vec s) b es vec s.ndr.toNat)

theorem emitEffect_withHost (n : BitVec 7) : emitEffect n (s.withHost b es) = (emitEffect n s).withHost b es := by
  unfold emitEffect
  rw [raise_bus_withHost, apply_ite (State.withHost · b es)]
  rfl

theorem processPasses_withHost (fuel : Nat) :
    processPasses fuel (s.withHost b es) = (processPasses fuel s).withHost b es := by
  induction fuel generalizing s with
  | zero => rfl
  | succ fuel ih =>
    simp only [processPasses]
    rw [show (s.withHost b es).vectorPass = s.vectorPass from rfl, blockPass_withHost, raise_bus_withHost,
      apply_ite (State.withHost · b es), apply_ite (State.withHost · b es), ← ih]
    rfl

theorem commandEffect_withHost (i : Instr) :
    commandEffect i (s.withHost b es) = (commandEffect i s).withHost b es := by
  cases i with
  | emit n => exact emitEffect_withHost s b es n
  | block => exact congrArg (State.finish · .feedp) (blockPass_withHost s b es false)
  | process => exact processPasses_withHost (initPhase s) b es _
  | nop | init | loadx | dround | feed => rfl

theorem blockPhase_withHost : blockPhase (s.withHost b es) = (blockPhase s).withHost b es := by
  unfold blockPhase
  rw [show (s.withHost b es).ph = s.ph from rfl]
  cases s.ph with
  | roundp =>
    dsimp only
    rw [apply_ite (State.withHost · b es)]
    rfl
  | loadp | feedp | idle | initp | emitp => rfl

theorem processPhase_withHost : processPhase (s.withHost b es) = (processPhase s).withHost b es := by
  unfold processPhase
  rw [show (s.withHost b es).ph = s.ph from rfl]
  cases s.ph with
  | initp | roundp =>
    dsimp only
    rw [apply_ite (State.withHost · b es)]
    rfl
  | emitp =>
    dsimp only
    rw [raise_bus_withHost, apply_ite (State.withHost · b es), apply_ite (State.withHost · b es)]
    rfl
  | loadp | feedp | idle => rfl

theorem phaseStep_withHost (i : Instr) : phaseStep i (s.withHost b es) = (phaseStep i s).withHost b es := by
  cases i with
  | emit n => exact emitEffect_withHost s b es n
  | block => exact blockPhase_withHost s b es
  | process => exact processPhase_withHost s b es
  | nop | init | loadx | dround | feed => rfl

/-! ### The engine's turn -/

/-- The state after a turn of an engine with command `i` in progress. -/
def engineMove (g : Grain) (i : Instr) (s : State) : State :=
  if s.fin then s.complete
  else if g = .whole ∧ s.ph = firstPhase i then commandEffect i s
  else phaseStep i s

theorem engineTurn_of_current {g : Grain} {i : Instr} {s : State} (hc : s.current = some i) :
    engineTurn g s = .next (engineMove g i s) := by
  have hx : exec i s = .next (commandEffect i s) := by
    rw [exec_eq_runCommand, runCommand_busy (busy_of_current hc)]
  unfold engineTurn engineMove
  rw [hc]
  dsimp only
  rw [hx]
  split
  · rfl
  · cases g with
    | phase => simp
    | whole => by_cases hp : s.ph = firstPhase i <;> simp [hp]

theorem engineMove_withHost (g : Grain) (i : Instr) :
    engineMove g i (s.withHost b es) = (engineMove g i s).withHost b es := by
  unfold engineMove
  rw [complete_withHost, commandEffect_withHost, phaseStep_withHost, apply_ite (State.withHost · b es),
    apply_ite (State.withHost · b es)]
  rfl

end Sys2Proof.Machine
end

section
/-! PROOFS. Host programs: runs of the machine under a list of host events, the register writes, the command and the
wait of which a program consists (30_encoding.md R73 to R75). -/

namespace Sys2Proof.Machine

/-! ### Runs under host events -/

theorem run_succ_of_step (M : Host.Core) (k : Nat) {s t : M.State} (h : M.step s = .next t) :
    M.run (k + 1) s = M.run k t := by
  rw [Host.Core.run, h]

/-- With `es` as what comes next the machine runs from `s` to `t`, whatever the last transaction answered. -/
def HostRuns (s : State) (es : List Event) (t : State) : Prop :=
  ∀ b, ∃ k, core.run k (s.withHost b es) = .next t

/-- A run that begins with one step. -/
theorem HostRuns.of_step {s u t : State} {es es' : List Event} (hrun : HostRuns u es' t)
    (h : ∀ b, ∃ b', step (s.withHost b es) = .next (u.withHost b' es')) : HostRuns s es t := by
  intro b
  obtain ⟨b', hstep⟩ := h b
  obtain ⟨k, hk⟩ := hrun b'
  exact ⟨k + 1, (run_succ_of_step core k hstep).trans hk⟩

/-! ### Register writes -/

theorem regAt_offset (r : Reg) : regAt r.offset = r := by
  cases r with
  | const i => revert i; decide
  | key i => revert i; decide
  | cmd | status | cfg | cap | src | dst | len | ctr0 | ctr1 | nonce0 | nonce1 | reserved => rfl

theorem offset_aligned (r : Reg) : r.offset < 256 ∧ r.offset % 4 = 0 := by
  cases r with
  | const i => revert i; decide
  | key i => revert i; decide
  | cmd | status | cfg | cap | src | dst | len | ctr0 | ctr1 | nonce0 | nonce1 | reserved => decide

theorem writeReg_withHost (r : Reg) (v : Word) (s : State) (b : BusReply) (es : List Event) :
    writeReg r v (s.withHost b es) = (writeReg r v s).withHost b es := by
  cases r <;> rfl

theorem writeReg_busy (r : Reg) (v : Word) (s : State) :
    (writeReg r v s).busy = s.busy ∧ (writeReg r v s).config = s.config := by
  cases r <;> exact ⟨rfl, rfl⟩

/-- A `WR` on an engine that is not busy writes its register. -/
theorem step_wrEvent {s : State} (hb : s.busy = false) {r : Reg} (hr : r ≠ .cmd) (v : Word) (b : BusReply)
    (es : List Event) :
    step (s.withHost b (wrEvent s.config r.offset v :: es)) = .next ((writeReg r v s).withHost .ack es) := by
  obtain ⟨hlt, hal⟩ := offset_aligned r
  refine (handle_wrEvent (s.withHost b es) v hlt hal).trans ?_
  obtain ⟨t, ht⟩ := writeAt_next r.offset v { s.withHost b es with bus := .ack }
  rcases writeAt_cases ht with ⟨hb', -⟩ | ⟨-, hc, -⟩ | ⟨-, -, rfl⟩
  · exact nomatch hb.symm.trans hb'
  · exact absurd ((regAt_offset r).symm.trans hc) hr
  · rw [ht, regAt_offset]
    exact congrArg _ (writeReg_withHost r v s .ack es)

/-- The registers written one after the other. -/
def writeRegs (ws : List (Reg × Word)) (s : State) : State := ws.foldl (fun s p => writeReg p.1 p.2 s) s

theorem HostRuns.of_writes {s t : State} {es : List Event} {ws : List (Reg × Word)} (hb : s.busy = false)
    (hw : ∀ p ∈ ws, p.1 ≠ .cmd) (hrun : HostRuns (writeRegs ws s) es t) :
    HostRuns s (ws.map (fun p => wrEvent s.config p.1.offset p.2) ++ es) t := by
  induction ws generalizing s with
  | nil => exact hrun
  | cons p ws ih =>
    obtain ⟨hp, hws⟩ := List.forall_mem_cons.1 hw
    obtain ⟨hb', hcfg⟩ := writeReg_busy p.1 p.2 s
    have hrest := ih (s := writeReg p.1 p.2 s) (hb'.trans hb) hws hrun
    rw [hcfg] at hrest
    exact hrest.of_step fun b => ⟨_, step_wrEvent hb hp p.2 b _⟩

/-! ### The command -/

theorem commandCheck_withHost (i : Instr) (s : State) (b : BusReply) (es : List Event) :
    commandCheck i (s.withHost b es) = commandCheck i s := by
  cases i <;> rfl

/-- A command whose checks pass on an idle engine is accepted. -/
theorem HostRuns.of_command {s t : State} {es : List Event} {i : Instr} (hidle : Idle s) (hwf : i.wf = true)
    (hc : commandCheck i s = .none) (hrun : HostRuns (s.accept i) es t) :
    HostRuns s (cmdWrite s.config (encode i) :: es) t := by
  obtain ⟨hb, herr⟩ := hidle
  refine hrun.of_step fun b => ⟨.ack, ?_⟩
  refine (handle_cmdWrite (s.withHost b es) (encode i) hb).trans ?_
  show dispatchWord (encode i) (s.withHost .ack es) = _
  have he : (s.withHost .ack es).err = .none := herr
  simp only [dispatchWord, he, decode_encode hwf]
  rw [exec_eq_runCommand, runCommand_accept (s := s.withHost .ack es) hb ((commandCheck_withHost ..).trans hc)]
  rfl

/-! ### The wait -/

/-- The wait for `s` ends in `t`: the last value it read is the final `STATUS`. -/
def WaitEnds (g : Grain) (s t : State) : Prop :=
  HostRuns s [.hostWait g] (t.withHost (.word (statusWord t)) [])

theorem waitEnds_of_not_busy (g : Grain) {s : State} (hb : s.busy = false) : WaitEnds g s s := by
  intro b
  refine ⟨1, ?_⟩
  rcases hostWait_cases g (s.withHost b []) with ⟨-, e⟩ | ⟨hb', -⟩
  · exact congrArg Host.Outcome.next e
  · exact nomatch hb.symm.trans hb'

/-- While `BUSY` reads 1 the engine takes a turn and the host polls again. -/
theorem WaitEnds.of_turn {g : Grain} {i : Instr} {s t : State} (hc : s.current = some i)
    (h : WaitEnds g (engineMove g i s) t) : WaitEnds g s t := by
  have hturn : HostRuns s [.engine g, .hostWait g] (t.withHost (.word (statusWord t)) []) :=
    h.of_step fun b => ⟨b, (engineTurn_of_current (s := s.withHost b [.hostWait g]) hc).trans
      (congrArg _ (engineMove_withHost ..))⟩
  refine hturn.of_step fun b => ⟨.word (statusWord s), ?_⟩
  rcases hostWait_cases g (s.withHost b []) with ⟨hb', -⟩ | ⟨-, e⟩
  · exact nomatch (busy_of_current hc).symm.trans hb'
  · exact congrArg Host.Outcome.next e

theorem WaitEnds.of_phaseTurns {k : Nat} {s t u : State} (hk : phaseTurns k s = .next t)
    (h : WaitEnds .phase t u) : WaitEnds .phase s u := by
  induction k generalizing s with
  | zero =>
    cases hk
    exact h
  | succ k ih =>
    rw [phaseTurns] at hk
    cases hc : s.current with
    | none =>
      rw [show engineTurn .phase s = .next s by simp [engineTurn, hc]] at hk
      exact ih hk
    | some i =>
      rw [engineTurn_of_current hc] at hk
      exact .of_turn hc (ih hk)

/-- The effect of an accepted command takes place during the wait, whichever way the engine moves. -/
theorem WaitEnds.of_effect (g : Grain) {i : Instr} {s t : State} (hp : InProgress i s)
    (h : WaitEnds g (commandEffect i s) t) : WaitEnds g s t := by
  have hc := current_of_inProgress hp
  cases g with
  | whole =>
    obtain ⟨-, hf, -, hph, -⟩ := hp
    refine .of_turn hc ?_
    rwa [engineMove, hf, if_neg Bool.false_ne_true, if_pos ⟨rfl, hph⟩]
  | phase =>
    obtain ⟨k, u, hx, hk⟩ := phasesReachTheWholeEffect i s hp
    rw [exec_eq_runCommand, runCommand_busy (busy_of_current hc)] at hx
    cases hx
    exact .of_phaseTurns hk h

/-- Completion takes place during the wait. -/
theorem waitEnds_complete (g : Grain) {i : Instr} {s : State} (hc : s.current = some i) (hf : s.fin = true) :
    WaitEnds g s s.complete := by
  refine .of_turn hc ?_
  rw [engineMove, if_pos hf]
  exact waitEnds_of_not_busy g rfl

end Sys2Proof.Machine
end

section
/-! PROOFS. The source's call as a host program (30_encoding.md R76): the registers it writes, the checks its arguments
pass, and what it returns. -/

namespace Sys2Proof.Machine

/-! ### The arguments of a call -/

/-- The `CFG.RC` code of a legal round count stands for half as many double-rounds (10_state.md R36). -/
theorem rcOf_eq_some {rounds : Nat} (h : rounds = 20 ∨ rounds = 12 ∨ rounds = 8) :
    ∃ rc, rcOf rounds = some rc ∧ rc ≠ 3 ∧ (ndrOf rc).toNat = rounds / 2 := by
  rcases h with rfl | rfl | rfl
  · exact ⟨0, by decide⟩
  · exact ⟨1, by decide⟩
  · exact ⟨2, by decide⟩

/-- What a write of a `CFG` word sets (10_state.md R20, R22). -/
theorem cfgOf_cfgWord (c : Config) (f : Cfg) :
    cfgOf c (cfgWord f) = ⟨f.rc, f.ks, decide (1 < c.bpi.count) && f.ven⟩ := by
  obtain ⟨hrc, -, hks, -, hven, -⟩ := cfgWord_fields f
  simp only [cfgOf, hrc, hks, hven]

section Buffers

variable {c : Config} {input output n : Nat} {ks : Bool}

/-- A buffer that holds a byte starts at an address, if the range check of the call passes. -/
theorem truncAddr_of_rangeBad (hr : rangeBad c.aw input output n ks = false) (hn : 0 < n) :
    truncAddr c output = output ∧ (ks = false → truncAddr c input = input) := by
  obtain ⟨hd, hs⟩ := rangeBad_eq_false.1 hr hn
  exact ⟨truncAddr_of_lt (by omega), fun hks => truncAddr_of_lt (by have := hs hks; omega)⟩

/-- The checks of a call do not see that the address registers drop the upper bits. -/
theorem rangeBad_truncAddr (hr : rangeBad c.aw input output n ks = false) :
    rangeBad c.aw (truncAddr c input) (truncAddr c output) n ks = false := by
  refine rangeBad_eq_false.2 fun hn => ?_
  obtain ⟨hd, hs⟩ := truncAddr_of_rangeBad hr hn
  obtain ⟨hd', hs'⟩ := rangeBad_eq_false.1 hr hn
  exact ⟨by rwa [hd], fun hks => by rw [hs hks]; exact hs' hks⟩

theorem overlapBad_truncAddr (hr : rangeBad c.aw input output n ks = false)
    (ho : overlapBad input output n ks = false) :
    overlapBad (truncAddr c input) (truncAddr c output) n ks = false := by
  refine overlapBad_eq_false.2 fun hks hn => ?_
  obtain ⟨hd, hs⟩ := truncAddr_of_rangeBad hr hn
  rw [hd, hs hks]
  exact overlapBad_eq_false.1 ho hks hn

theorem rangeOK_truncAddr (h : rangeOK c ks input output n = true) :
    rangeOK c ks (truncAddr c input) (truncAddr c output) n = true := by
  refine (rangeOK_iff ..).2 fun i hi => ?_
  rw [truncAddr_add_truncAddr, truncAddr_add_truncAddr]
  exact (rangeOK_iff ..).1 h i hi

end Buffers

/-! ### The register writes of the program -/

/-- The writes of the eight key registers. -/
def keyWrites (k : Vector Word 8) (l : List (Fin 8)) : List (Reg × Word) := l.map fun i => (.key i, k[i])

/-- The register writes of the source's call, in the order of R76. -/
def callWrites (key : Vector Byte 32) (nonce : Vector Byte 8) (c : Nat) (input output length : Word) (cfg : Cfg) :
    List (Reg × Word) :=
  keyWrites (keyWords key) (List.finRange 8) ++
    ([(.nonce0, (nonceWords nonce)[0]), (.nonce1, (nonceWords nonce)[1]), (.ctr0, BitVec.ofNat 32 (c % 2 ^ 32)),
      (.ctr1, BitVec.ofNat 32 (c / 2 ^ 32)), (.src, input), (.dst, output), (.len, length), (.cfg, cfgWord cfg)] :
        List (Reg × Word))

/-- The state with the argument registers of the source's call written. -/
def State.withCall (s : State) (key : Vector Byte 32) (nonce : Vector Byte 8) (c : Nat) (input output length : Word)
    (cfg : Cfg) : State :=
  { s with
    key := keyWords key
    nonce0 := (nonceWords nonce)[0]
    nonce1 := (nonceWords nonce)[1]
    ctr0 := BitVec.ofNat 32 (c % 2 ^ 32)
    ctr1 := BitVec.ofNat 32 (c / 2 ^ 32)
    src := truncAW s.config input
    dst := truncAW s.config output
    len := length
    cfg := cfgOf s.config (cfgWord cfg) }

theorem assemble_callProgram (key : Vector Byte 32) (nonce : Vector Byte 8) {c : Nat} (input output length : Word)
    {rounds : Nat} (ks ven : Bool) {rc : BitVec 2} (hc : c < 2 ^ 64) (hrc : rcOf rounds = some rc) :
    assemble (callProgram key nonce c input output length rounds ks ven) =
      some ((callWrites key nonce c input output length ⟨rc, ks, ven⟩).map (fun p => .wr p.1.offset p.2) ++
        [issueTxn .process, .wait]) := by
  simp only [callProgram, assemble, Stmt.expand, hrc, if_pos hc, Option.map_some, callWrites, keyWrites,
    List.map_append, List.map_map]
  rfl

/-- Writes of key registers leave each listed word of the key new and the others as they were. -/
theorem writeRegs_keyWrites (l : List (Fin 8)) (k : Vector Word 8) (s : State) :
    ∃ v : Vector Word 8, writeRegs (keyWrites k l) s = { s with key := v } ∧
      ∀ j : Fin 8, v[j] = if j ∈ l then k[j] else s.key[j] := by
  induction l generalizing s with
  | nil => exact ⟨s.key, rfl, fun j => by simp⟩
  | cons i l ih =>
    obtain ⟨v, hv, hj⟩ := ih (writeReg (.key i) k[i] s)
    refine ⟨v, hv, fun j => (hj j).trans ?_⟩
    by_cases hl : j ∈ l
    · simp [hl]
    · by_cases hi : i = j
      · simp [hi, writeReg]
      · have hne : i.val ≠ j.val := Fin.val_ne_of_ne hi
        simp [hl, Ne.symm hi, writeReg, hne]

/-- The eight writes together replace the key. -/
theorem writeRegs_key (k : Vector Word 8) (s : State) :
    writeRegs (keyWrites k (List.finRange 8)) s = { s with key := k } := by
  obtain ⟨v, hv, hj⟩ := writeRegs_keyWrites (List.finRange 8) k s
  have hk : v = k := Vector.ext fun j hlt => by simpa using hj ⟨j, hlt⟩
  rw [hv, hk]

theorem writeRegs_append (ws ws' : List (Reg × Word)) (s : State) :
    writeRegs (ws ++ ws') s = writeRegs ws' (writeRegs ws s) :=
  List.foldl_append

theorem writeRegs_callWrites (key : Vector Byte 32) (nonce : Vector Byte 8) (c : Nat) (input output length : Word)
    (cfg : Cfg) (s : State) :
    writeRegs (callWrites key nonce c input output length cfg) s = s.withCall key nonce c input output length cfg := by
  rw [callWrites, writeRegs_append, writeRegs_key]
  simp only [writeRegs, List.foldl_cons, List.foldl_nil, writeReg, State.withCall]

theorem callWrites_ne_cmd {key : Vector Byte 32} {nonce : Vector Byte 8} {c : Nat} {input output length : Word}
    {cfg : Cfg} : ∀ p ∈ callWrites key nonce c input output length cfg, p.1 ≠ .cmd := by
  refine List.forall_mem_append.2 ⟨List.forall_mem_map.2 fun i _ => nofun, ?_⟩
  simp

/-! ### The checks of the written registers -/

theorem toNat_truncAW {c : Config} (haw : c.aw ≤ 32) (w : Word) : (truncAW c w).toNat = truncAddr c w.toNat :=
  toNat_ofNat_truncAddr haw _

section WithCall

variable {s : State} (key : Vector Byte 32) (nonce : Vector Byte 8) (c : Nat) {input output length : Word} {cfg : Cfg}

theorem withCall_paramInv (hs : ParamInv s) : ParamInv (s.withCall key nonce c input output length cfg) := by
  obtain ⟨hlegal, hslots, -, -, -, hraces⟩ := hs
  exact ⟨hlegal, hslots, one_lt_count_of_cfgOf_ven, truncAW_lt _ _, truncAW_lt _ _, hraces⟩

theorem withCall_ks : (s.withCall key nonce c input output length cfg).cfg.ks = cfg.ks := by
  simp only [State.withCall, cfgOf_cfgWord]

theorem withCall_rc : (s.withCall key nonce c input output length cfg).cfg.rc = cfg.rc := by
  simp only [State.withCall, cfgOf_cfgWord]

theorem withCall_callCheck (haw : s.config.aw ≤ 32) (hrc : cfg.rc ≠ 3)
    (hr : rangeBad s.config.aw input.toNat output.toNat length.toNat cfg.ks = false)
    (ho : overlapBad input.toNat output.toNat length.toNat cfg.ks = false) :
    callCheck (s.withCall key nonce c input output length cfg) = .none := by
  rw [callCheck_eq_none, withCall_ks, withCall_rc]
  have hsrc := toNat_truncAW haw input
  have hdst := toNat_truncAW haw output
  refine ⟨hrc, ?_, ?_⟩
  · show rangeBad s.config.aw (truncAW s.config input).toNat (truncAW s.config output).toNat length.toNat cfg.ks =
      false
    rw [hsrc, hdst]
    exact rangeBad_truncAddr hr
  · show overlapBad (truncAW s.config input).toNat (truncAW s.config output).toNat length.toNat cfg.ks = false
    rw [hsrc, hdst]
    exact overlapBad_truncAddr hr ho

theorem withCall_callMemOK (haw : s.config.aw ≤ 32)
    (hok : rangeOK s.config cfg.ks input.toNat output.toNat length.toNat = true) :
    CallMemOK (s.withCall key nonce c input output length cfg) := by
  rw [CallMemOK, withCall_ks]
  show rangeOK s.config cfg.ks (truncAW s.config input).toNat (truncAW s.config output).toNat length.toNat = true
  rw [toNat_truncAW haw, toNat_truncAW haw]
  exact rangeOK_truncAddr hok

/-! ### What the call is about -/

theorem withCall_dst (haw : s.config.aw ≤ 32) (hn : 0 < length.toNat)
    (hr : rangeBad s.config.aw input.toNat output.toNat length.toNat cfg.ks = false) :
    (s.withCall key nonce c input output length cfg).dst.toNat = output.toNat :=
  (toNat_truncAW haw output).trans (truncAddr_of_rangeBad hr hn).1

/-- The call reads the input buffer that was asked for; its address is not used in keystream-only mode. -/
theorem withCall_inputByte (haw : s.config.aw ≤ 32) (hn : 0 < length.toNat)
    (hr : rangeBad s.config.aw input.toNat output.toNat length.toNat cfg.ks = false) (i : Nat) :
    inputByte (s.withCall key nonce c input output length cfg) i =
      if cfg.ks then 0x00 else Memory.read s.mem (input.toNat + i) := by
  rw [inputByte, withCall_ks]
  cases hks : cfg.ks with
  | true => rfl
  | false =>
    have hsrc : (truncAW s.config input).toNat = input.toNat :=
      (toNat_truncAW haw input).trans ((truncAddr_of_rangeBad hr hn).2 hks)
    exact congrArg (fun a => Memory.read s.mem (a + i)) hsrc

theorem withCall_callKey (i : Nat) :
    callKey (s.withCall key nonce c input output length cfg) i =
      keystream s.config.ctrWidth
        (initMatrix (keyWords key) (BitVec.ofNat 32 c) (BitVec.ofNat 32 (c / 2 ^ 32)) (nonceWords nonce)[0]
          (nonceWords nonce)[1]) (ndrOf cfg.rc).toNat i := by
  have hctr : BitVec.ofNat 32 (c % 2 ^ 32) = BitVec.ofNat 32 c :=
    BitVec.eq_of_toNat_eq (by simp only [BitVec.toNat_ofNat, Nat.mod_mod])
  rw [callKey, withCall_rc, ← hctr]
  rfl

end WithCall

/-! ### PROCESS and its wait -/

/-- What the bytes of a call do not touch. -/
theorem CallMoved.frame {s t : State} (h : CallMoved s t) :
    t.fin = true ∧ t.current = s.current ∧ t.err = s.err ∧ t.races = s.races ∧ t.config = s.config ∧
      t.dst = s.dst ∧ t.len = s.len := by
  obtain ⟨x, ks, sl, p, rfl⟩ := h
  exact ⟨rfl, rfl, rfl, rfl, rfl, rfl, rfl⟩

/-- A call returns the output buffer when the `STATUS` that ended the wait has `BUSY = 0` and `DONE = 1`. -/
theorem callResult_of_status {s t : State} (hbus : t.bus = .word (statusWord s)) (hb : s.busy = false)
    (hd : s.done = true) : t.callResult = some t.outputBuffer := by
  have hdone := (statusWord_flags s).2.1
  simp only [State.callResult, hbus, pollDone_statusWord, hb, hdone, hd]
  rfl

/-- On an idle engine whose argument registers describe a call that passes its checks, PROCESS and a wait end with
the call's output in the output buffer (42_block_and_process.md R115). -/
theorem process_returns (g : Grain) {s : State} (hidle : Idle s) (hp : ParamInv s) (hm : MemInv s)
    (hc : callCheck s = .none) (hok : CallMemOK s) :
    ∃ t, HostRuns s [cmdWrite s.config (encode .process), .hostWait g] t ∧ t.inbox = [] ∧ Idle t ∧
      t.callResult = some ((List.range s.len.toNat).map fun i => inputByte s i ^^^ callKey s i) ∧
      ∀ a, (a < s.dst.toNat ∨ s.dst.toNat + s.len.toNat ≤ a) → Memory.read t.mem a = Memory.read s.mem a := by
  have hacc : InProgress .process (s.accept .process) := ⟨rfl, rfl, rfl, rfl, rfl⟩
  obtain ⟨hlegal, hslots, hven, hsrc, hdst, -⟩ := hp
  have hpa : ParamInv (s.accept .process) := ⟨hlegal, hslots, hven, hsrc, hdst, nofun⟩
  have hframe := (processEffect_callMoved (s := s.accept .process) hpa hok).frame
  have hread := processEffect_read (s := s.accept .process) hpa ⟨hm.1, hm.1⟩ hok hc
  have heff : commandEffect .process (s.accept .process) = processEffect (s.accept .process) := rfl
  have hwait := WaitEnds.of_effect g hacc (t := (processEffect (s.accept .process)).complete)
  rw [heff] at hwait
  generalize processEffect (s.accept .process) = u at hframe hread hwait
  obtain ⟨hfin, hcur, herr, hraces, hconfig, hudst, hulen⟩ := hframe
  obtain ⟨hout, hother⟩ := hread
  have hmem : u.complete.mem = u.mem := completed_of_no_races hraces
  have hrun := hwait (waitEnds_complete g (hcur.trans (current_of_inProgress hacc)) hfin)
  refine ⟨_, HostRuns.of_command hidle rfl hc hrun, rfl, ⟨rfl, herr.trans hidle.2⟩, ?_, fun a ha => ?_⟩
  · rw [callResult_of_status rfl rfl rfl]
    show some ((List.range u.len.toNat).map fun i =>
      Memory.read u.complete.mem (truncAddr u.config (u.dst.toNat + i))) = _
    rw [hulen, hudst, hconfig, hmem]
    refine congrArg some (List.map_congr_left fun i hi => ?_)
    have hi' : i < s.len.toNat := List.mem_range.1 hi
    have hd := (rangeBad_eq_false.1 (callCheck_eq_none.1 hc).2.1 (by omega)).1
    refine (congrArg _ (truncAddr_of_lt ?_)).trans (hout i hi')
    show s.dst.toNat + i < 2 ^ s.config.aw
    omega
  · exact (congrArg (Memory.read · a) hmem).trans (hother a ha)

/-- Settles O59: the program writes the argument registers, issues PROCESS and waits. The registers hold what the
checks are about, but for upper address bits of buffers that are empty or not read; the call's contract then gives
the bytes. How the engine moves during the wait (log 21) makes no difference, and the wait ends because the memory
port answers (log 18). -/
theorem callProgramReturnsTheCipher : Obligations.CallProgramReturnsTheCipher := by
  intro s g key nonce c input output length rounds ks ven hidle _ hp hm hin hrounds hctr hr ho hok
  obtain ⟨rc, hrc, hrc3, hndr⟩ := rcOf_eq_some hrounds
  have haw : s.config.aw ≤ 32 := hp.1.2.1
  obtain ⟨t, hrun, hinbox, hidle', hresult, hother⟩ :=
    process_returns g (s := s.withCall key nonce c input output length ⟨rc, ks, ven⟩) hidle
      (withCall_paramInv key nonce c hp) hm (withCall_callCheck key nonce c haw hrc3 hr ho)
      (withCall_callMemOK key nonce c haw hok)
  rw [← writeRegs_callWrites] at hrun
  obtain ⟨k, hk⟩ := hrun.of_writes hidle.1 callWrites_ne_cmd s.bus
  refine ⟨_, k, t, ?_, hk, hinbox, hidle', hresult.trans ?_, fun a ha => ?_⟩
  · rw [State.withProgram, assemble_callProgram key nonce input output length ks ven hctr hrc, hin, Option.map_some,
      List.append_nil, List.map_append, List.map_map]
    rfl
  · refine congrArg some (List.map_congr_left fun i hi => ?_)
    have hn : 0 < length.toNat := Nat.zero_lt_of_lt (List.mem_range.1 hi)
    rw [withCall_inputByte key nonce c haw hn hr, withCall_callKey, hndr]
  · refine hother a ?_
    show a < _ ∨ _ + length.toNat ≤ a
    by_cases hn : 0 < length.toNat
    · rwa [withCall_dst key nonce c haw hn hr]
    · omega

end Sys2Proof.Machine
end

section
/-! PROOFS. The ARX datapath: rotations of bits and of lanes, the quarter-round and the double-round as bijections,
the lane form, the layout of the base matrix, feed-forward, serialisation and the counter (40_arx_datapath.md R77 to
R94). -/

namespace Sys2Proof.Machine

/-! ### Rotation of bits -/

/-- The bits of a word that a rotation by `n` brings round fit below the ones it moves up. -/
theorem word_div_lt (v : Word) {n : Nat} (hn : n < 32) : v.toNat / 2 ^ (32 - n) < 2 ^ n :=
  Nat.div_lt_of_lt_mul (by rw [← Nat.pow_add, Nat.sub_add_cancel hn.le]; exact v.isLt)

/-- Moving up by `n` places modulo `2 ^ 32` keeps the low `32 - n` bits. -/
theorem word_mul_mod (v : Word) {n : Nat} (hn : n < 32) :
    v.toNat * 2 ^ n % 2 ^ 32 = 2 ^ n * (v.toNat % 2 ^ (32 - n)) := by
  have hpow : 2 ^ (32 - n) * 2 ^ n = 2 ^ 32 := by rw [← Nat.pow_add, Nat.sub_add_cancel hn.le]
  rw [← hpow, Nat.mul_mod_mul_right, Nat.mul_comm]

/-- The two addends of a rotation do not meet: the low `32 - n` bits of `v` move up `n` places, and the high `n` bits
come in below them. -/
theorem rotl_toNat (v : Word) {n : Nat} (hn : n < 32) :
    (rotl v n).toNat = 2 ^ n * (v.toNat % 2 ^ (32 - n)) + v.toNat / 2 ^ (32 - n) := by
  have hlow : v.toNat % 2 ^ (32 - n) < 2 ^ (32 - n) := Nat.mod_lt _ (Nat.two_pow_pos _)
  have hsum : 2 ^ n * (v.toNat % 2 ^ (32 - n)) + v.toNat / 2 ^ (32 - n) < 2 ^ 32 :=
    calc 2 ^ n * (v.toNat % 2 ^ (32 - n)) + v.toNat / 2 ^ (32 - n)
        < 2 ^ n * (v.toNat % 2 ^ (32 - n) + 1) := Nat.add_lt_add_left (word_div_lt v hn) _
      _ ≤ 2 ^ n * 2 ^ (32 - n) := Nat.mul_le_mul_left _ hlow
      _ = 2 ^ 32 := by rw [← Nat.pow_add, Nat.add_sub_cancel' hn.le]
  rw [rotl, BitVec.toNat_add, BitVec.toNat_shiftLeft, BitVec.toNat_ushiftRight, Nat.shiftLeft_eq,
    Nat.shiftRight_eq_div_pow, word_mul_mod v hn, Nat.mod_eq_of_lt hsum]

theorem rotl_getLsbD (v : Word) {n i : Nat} (hn : n < 32) (hi : i < 32) :
    (rotl v n).getLsbD ((i + n) % 32) = v.getLsbD i := by
  rw [BitVec.getLsbD, BitVec.getLsbD, rotl_toNat v hn, Nat.testBit_two_pow_mul_add _ (word_div_lt v hn)]
  by_cases hwrap : i + n < 32
  · rw [Nat.mod_eq_of_lt hwrap, if_neg (by omega), Nat.add_sub_cancel, Nat.testBit_mod_two_pow]
    simp only [show i < 32 - n by omega, decide_true, Bool.true_and]
  · have hmod : (i + n) % 32 = i - (32 - n) := by omega
    rw [hmod, if_pos (by omega), Nat.testBit_div_two_pow, Nat.sub_add_cancel (by omega)]

/-- Rotating on to 32 places in all puts every bit back. -/
theorem rotl_rotl (v : Word) {n k : Nat} (h : 0 < n) (hk : 0 < k) (hnk : n + k = 32) : rotl (rotl v n) k = v := by
  refine BitVec.eq_of_getLsbD_eq fun i hi => ?_
  have hback : ((i + n) % 32 + k) % 32 = i := by omega
  have hk' := rotl_getLsbD (rotl v n) (n := k) (by omega) (Nat.mod_lt (i + n) (by decide : 0 < 32))
  rw [hback] at hk'
  rw [hk', rotl_getLsbD v (by omega) hi]

/-- Settles O4: the two addends of `rotl` have no bit in common, so the sum has no carry and each bit of it is a bit
of `v`. -/
theorem rotlMovesEveryBit : Obligations.RotlMovesEveryBit := by
  intro v n _ hn
  refine ⟨?_, fun i hi => rotl_getLsbD v hn hi⟩
  rw [rotl_toNat v hn, word_mul_mod v hn]

/-! ### The quarter-round is a bijection -/

/-- Half a quarter-round, with its two rotation amounts: `QR` is two of these (R81). -/
def halfQR (i j : Nat) (p : Word × Word × Word × Word) : Word × Word × Word × Word :=
  let (a, b, c, d) := p
  let a := add32 a b
  let d := rotl (xor32 d a) i
  let c := add32 c d
  let b := rotl (xor32 b c) j
  (a, b, c, d)

/-- The four steps of `halfQR i j` undone, last step first. -/
def halfQRInv (i j : Nat) (p : Word × Word × Word × Word) : Word × Word × Word × Word :=
  let (a, b, c, d) := p
  let b := xor32 (rotl b (32 - j)) c
  let c := c - d
  let d := xor32 (rotl d (32 - i)) a
  let a := a - b
  (a, b, c, d)

theorem xor32_xor32_cancel (u v : Word) : xor32 (xor32 u v) v = u := by
  rw [xor32, xor32, BitVec.xor_assoc, BitVec.xor_self, BitVec.xor_zero]

theorem halfQR_bijective {i j : Nat} (hi : 0 < i ∧ i < 32) (hj : 0 < j ∧ j < 32) : Function.Bijective (halfQR i j) := by
  have hback (v : Word) {n : Nat} (hn : 0 < n ∧ n < 32) : rotl (rotl v n) (32 - n) = v :=
    rotl_rotl v hn.1 (by omega) (by omega)
  have hforth (v : Word) {n : Nat} (hn : 0 < n ∧ n < 32) : rotl (rotl v (32 - n)) n = v :=
    rotl_rotl v (by omega) hn.1 (by omega)
  refine Function.bijective_iff_has_inverse.2 ⟨halfQRInv i j, fun p => ?_, fun p => ?_⟩
  · simp only [halfQR, halfQRInv, hback _ hi, hback _ hj, xor32_xor32_cancel, add32, BitVec.add_sub_cancel]
  · simp only [halfQR, halfQRInv, hforth _ hi, hforth _ hj, xor32_xor32_cancel, add32, BitVec.sub_add_cancel]

/-- `QR` as a function on 128 bits. -/
def quarterRound (p : Word × Word × Word × Word) : Word × Word × Word × Word := QR p.1 p.2.1 p.2.2.1 p.2.2.2

theorem quarterRound_eq_halfQR : quarterRound = halfQR 8 7 ∘ halfQR 16 12 := rfl

theorem quarterRound_bijective : Function.Bijective quarterRound := by
  rw [quarterRound_eq_halfQR]
  exact (halfQR_bijective (by decide) (by decide)).comp (halfQR_bijective (by decide) (by decide))

/-- Settles O7: `QR` is two half rounds, and each of the four steps of a half round can be undone. -/
theorem quarterRoundIsABijection : Obligations.QuarterRoundIsABijection := quarterRound_bijective

/-! ### The double-round is a bijection -/

/-- A matrix as its four columns. -/
def columns : Matrix ≃ (Word × Word × Word × Word) × (Word × Word × Word × Word) ×
    (Word × Word × Word × Word) × (Word × Word × Word × Word) where
  toFun m := ((m.a.l0, m.b.l0, m.c.l0, m.d.l0), (m.a.l1, m.b.l1, m.c.l1, m.d.l1),
    (m.a.l2, m.b.l2, m.c.l2, m.d.l2), (m.a.l3, m.b.l3, m.c.l3, m.d.l3))
  invFun := fun ((a0, b0, c0, d0), (a1, b1, c1, d1), (a2, b2, c2, d2), (a3, b3, c3, d3)) =>
    ⟨⟨a0, a1, a2, a3⟩, ⟨b0, b1, b2, b3⟩, ⟨c0, c1, c2, c3⟩, ⟨d0, d1, d2, d3⟩⟩
  left_inv _ := rfl
  right_inv _ := rfl

/-- The lane rotations that bring the diagonals of a matrix into its columns (R89). -/
def skew : Matrix ≃ Matrix where
  toFun m := ⟨m.a, lanerot m.b 1, lanerot m.c 2, lanerot m.d 3⟩
  invFun m := ⟨m.a, lanerot m.b 3, lanerot m.c 2, lanerot m.d 1⟩
  left_inv _ := rfl
  right_inv _ := rfl

theorem colRound_eq_map_columns : colRound =
    columns.symm ∘ Prod.map quarterRound (Prod.map quarterRound (Prod.map quarterRound quarterRound)) ∘ columns := rfl

theorem diagRound_eq_colRound_skew : diagRound = skew.symm ∘ colRound ∘ skew := rfl

theorem colRound_bijective : Function.Bijective colRound := by
  have hq := quarterRound_bijective
  rw [colRound_eq_map_columns]
  exact columns.symm.bijective.comp ((hq.prodMap (hq.prodMap (hq.prodMap hq))).comp columns.bijective)

theorem diagRound_bijective : Function.Bijective diagRound := by
  rw [diagRound_eq_colRound_skew]
  exact skew.symm.bijective.comp (colRound_bijective.comp skew.bijective)

/-- Settles O8: the column phase is `QR` on the four columns, and the diagonal phase is the column phase between lane
rotations. -/
theorem doubleRoundIsABijection : Obligations.DoubleRoundIsABijection := diagRound_bijective.comp colRound_bijective

/-! ### The counter -/

/-- With 64 bits, `k` advances add `k` to the counter of words 13 and 12. -/
theorem ctrIncBy_w64_counter (m : Matrix) (k : Nat) :
    (ctrIncBy .w64 m k).d.l1 ++ (ctrIncBy .w64 m k).d.l0 = (m.d.l1 ++ m.d.l0 : BitVec 64) + BitVec.ofNat 64 k := by
  have hinc (m : Matrix) : (ctrInc .w64 m).d.l1 ++ (ctrInc .w64 m).d.l0 = (m.d.l1 ++ m.d.l0 : BitVec 64) + 1 :=
    BitVec.extractLsb'_append_extractLsb'
  induction k with
  | zero => exact (BitVec.add_zero _).symm
  | succ k ih => rw [ctrIncBy, hinc, ih, BitVec.ofNat_add, BitVec.add_assoc]; rfl

/-- With 32 bits, `k` advances add `k` to word 12. -/
theorem ctrIncBy_w32_l0 (m : Matrix) (k : Nat) : (ctrIncBy .w32 m k).d.l0 = m.d.l0 + BitVec.ofNat 32 k := by
  have hinc (m : Matrix) : (ctrInc .w32 m).d.l0 = m.d.l0 + 1 := rfl
  induction k with
  | zero => exact (BitVec.add_zero _).symm
  | succ k ih => rw [ctrIncBy, hinc, ih, BitVec.ofNat_add, BitVec.add_assoc]; rfl

theorem ctrIncBy_w32_l1 (m : Matrix) (k : Nat) : (ctrIncBy .w32 m k).d.l1 = m.d.l1 := by
  induction k with
  | zero => rfl
  | succ k ih => exact ih

theorem ctrIncBy_words_other (w : CtrWidth) (m : Matrix) (k : Nat) {i : Nat} (h : i < 16) (h12 : i ≠ 12)
    (h13 : i ≠ 13) : (ctrIncBy w m k).words[i] = m.words[i] := by
  induction k with
  | zero => rfl
  | succ k ih =>
    simp only [ctrIncBy, ctrInc_words]
    rw [Vector.getElem_set_ne _ _ (Ne.symm h13), Vector.getElem_set_ne _ _ (Ne.symm h12), ih]

/-- A 64-bit counter as a number: its high word counts `2 ^ 32`. -/
theorem toNat_word_append (hi lo : Word) : (hi ++ lo).toNat = hi.toNat * 2 ^ 32 + lo.toNat := by
  rw [BitVec.toNat_append, ← Nat.shiftLeft_add_eq_or_of_lt lo.isLt, Nat.shiftLeft_eq]

/-- Settles O12, by induction on the number of advances for each width and for the words that stay. -/
theorem counterAdvanceWrapsSilently : Obligations.CounterAdvanceWrapsSilently := by
  intro m k
  refine ⟨?_, ?_, ctrIncBy_w32_l1 m k, fun w i h h12 h13 => ctrIncBy_words_other w m k h h12 h13, fun w => ⟨rfl, rfl⟩⟩
  · have hcounter := congrArg BitVec.toNat (ctrIncBy_w64_counter m k)
    rw [BitVec.toNat_add, BitVec.toNat_ofNat, Nat.add_mod_mod, toNat_word_append, toNat_word_append] at hcounter
    exact hcounter
  · have hword := congrArg BitVec.toNat (ctrIncBy_w32_l0 m k)
    rw [BitVec.toNat_add, BitVec.toNat_ofNat, Nat.add_mod_mod] at hword
    exact hword

/-! ### Rows and lanes -/

theorem lanerot1_lanes (v : Row) {i : Nat} (h : i < 4) :
    (lanerot1 v).lanes[i] = v.lanes[(i + 1) % 4]'(Nat.mod_lt _ (by decide)) := by
  interval_cases i <;> rfl

theorem lanerot_lanes (v : Row) (n : Nat) {i : Nat} (h : i < 4) :
    (lanerot v n).lanes[i] = v.lanes[(i + n) % 4]'(Nat.mod_lt _ (by decide)) := by
  induction n generalizing i with
  | zero => simp only [lanerot, Nat.add_zero, Nat.mod_eq_of_lt h]
  | succ n ih =>
    have hmod : ((i + 1) % 4 + n) % 4 = (i + (n + 1)) % 4 := by omega
    simp only [lanerot, lanerot1_lanes _ h, ih (Nat.mod_lt _ (by decide)), hmod]

theorem lanerot_lanerot (v : Row) (n k : Nat) : lanerot (lanerot v n) k = lanerot v (n + k) := by
  induction k with
  | zero => rfl
  | succ k ih => rw [lanerot, ih, ← Nat.add_assoc, ← lanerot]

theorem lanerot_four (v : Row) : lanerot v 4 = v := rfl

/-- Settles O5, by induction on the number of lanes; four rotations in all are none. -/
theorem laneRotationMovesTowardsLaneZero : Obligations.LaneRotationMovesTowardsLaneZero := by
  intro v n _ hn
  refine ⟨fun i h => lanerot_lanes v n h, ?_⟩
  rw [lanerot_lanerot, Nat.add_sub_cancel' (by omega), lanerot_four]

theorem vadd_lanes (u v : Row) {i : Nat} (h : i < 4) : (vadd u v).lanes[i] = add32 u.lanes[i] v.lanes[i] := by
  interval_cases i <;> rfl

theorem vxor_lanes (u v : Row) {i : Nat} (h : i < 4) : (vxor u v).lanes[i] = xor32 u.lanes[i] v.lanes[i] := by
  interval_cases i <;> rfl

theorem vrotl_lanes (v : Row) (n : Nat) {i : Nat} (h : i < 4) : (vrotl v n).lanes[i] = rotl v.lanes[i] n := by
  interval_cases i <;> rfl

/-- Settles O6: each row operation of `VQR` is the word operation of `QR` in every lane, and the lane form differs
from the indexed form only in how it names the words. -/
theorem laneFormIsTheDoubleRound : Obligations.LaneFormIsTheDoubleRound := by
  refine ⟨fun a b c d i h => ?_, DRlane_eq_DR⟩
  simp only [QR, VQR, vadd_lanes _ _ h, vxor_lanes _ _ h, vrotl_lanes _ _ h]

/-! ### The base matrix, feed-forward and serialisation -/

/-- Settles O9: the words of the base matrix in the order of R77, the key words one by one. -/
theorem initMatrixLayout : Obligations.InitMatrixLayout := by
  intro key c0 c1 n0 n1
  refine ⟨rfl, rfl, rfl, rfl, fun i h => ?_, rfl, rfl, rfl, rfl⟩
  interval_cases i <;> rfl

theorem feedForward_words (y m : Matrix) {i : Nat} (h : i < 16) :
    (feedForward y m).words[i] = add32 y.words[i] m.words[i] := by
  interval_cases i <;> rfl

/-- Settles O10: the four row additions are the sixteen word additions. -/
theorem feedForwardAddsAllWords : Obligations.FeedForwardAddsAllWords := by
  intro y m i h
  rw [feedForward_words y m h, add32, BitVec.toNat_add]

/-- Settles O11: byte `4i + k` is byte `k` of word `i`. -/
theorem serialisationIsLittleEndian : Obligations.SerialisationIsLittleEndian := by
  intro z i k hi hk
  have hdiv : (4 * i + k) / 4 = i := by omega
  have hmod : (4 * i + k) % 4 = k := by omega
  simp only [ser, Vector.getElem_ofFn, hdiv, hmod, byteOf]

end Sys2Proof.Machine
end

section
/-! PROOFS. The stage commands: which checks accept them, the effect of each, and the bytes of EMIT
(41_stage_commands.md R100 to R108; 42_block_and_process.md R113, R114). -/

namespace Sys2Proof.Machine

/-! ### Acceptance -/

/-- A check that fails sets `ERR` to what it answers and clears `DONE` (60_exceptions.md R150). -/
theorem exec_of_check {i : Instr} {s : State} {e : Err} (hb : s.busy = false) (hc : commandCheck i s = e)
    (he : e ≠ .none) : exec i s = .next { s with err := e, done := false } := by
  subst hc
  exact exec_raise_eq hb he

theorem exec_of_check_none {i : Instr} {s : State} (hb : s.busy = false) (hc : commandCheck i s = .none) :
    exec i s = .next (s.accept i) := by
  rw [exec_eq_runCommand, runCommand_accept hb hc]

theorem rangeBad_eq_true {aw s d n : Nat} {ks : Bool} :
    rangeBad aw s d n ks = true ↔ 0 < n ∧ (2 ^ aw < d + n ∨ (ks = false ∧ 2 ^ aw < s + n)) := by
  simp [rangeBad]

theorem overlapBad_eq_true {s d n : Nat} {ks : Bool} :
    overlapBad s d n ks = true ↔ ks = false ∧ 0 < n ∧ s ≠ d ∧ s < d + n ∧ d < s + n := by
  simp [overlapBad, and_assoc]

/-- Settles O22: both commands make the checks of a call, and each check is the predicate written out. -/
theorem callChecksInOrder : Obligations.CallChecksInOrder := by
  intro i s hidle hi
  obtain ⟨hb, -⟩ := hidle
  have hcheck : commandCheck i s = callCheck s := by rcases hi with rfl | rfl <;> rfl
  dsimp only
  rw [← rangeBad_eq_true, ← overlapBad_eq_true]
  refine ⟨fun hrc => exec_of_check hb (hcheck.trans ?_) nofun, fun hrc hr => exec_of_check hb (hcheck.trans ?_) nofun,
    fun hrc hr ho => exec_of_check hb (hcheck.trans ?_) nofun,
    fun hrc hr ho => exec_of_check_none hb (hcheck.trans ?_)⟩
  · rw [callCheck, if_pos hrc]
  · rw [callCheck, if_neg hrc, if_pos hr]
  · rw [callCheck, if_neg hrc, if_neg hr, if_pos ho]
  · rw [callCheck, if_neg hrc, if_neg hr, if_neg ho]

/-- Without SEQ's condition (60_exceptions.md R144) only EMIT has a check left, that of its byte count. -/
theorem commandCheck_of_not_seqBad {i : Instr} {s : State} (hi : i ≠ .init) (hp : i ≠ .process)
    (hs : ¬SeqBad i s) :
    commandCheck i s =
      if (∃ n, i = .emit n) ∧ s.rem.toNat < (byteCount i).toNat then .range else .none := by
  cases i with
  | init => exact absurd rfl hi
  | process => exact absurd rfl hp
  | nop => simp [commandCheck]
  | loadx | block =>
    have hsv : s.sv = true := by simpa [SeqBad] using hs
    simp [commandCheck, baseCheck, hsv]
  | dround =>
    have hxv : s.xv = true := by by_contra h; exact hs (.inl (by simpa using h))
    have hlt : ¬s.ndr.toNat ≤ s.drc.toNat := fun h => hs (.inr ⟨hxv, h⟩)
    simp [commandCheck, droundCheck, hxv, hlt]
  | feed =>
    have hxv : s.xv = true := by by_contra h; exact hs (.inl (by simpa using h))
    have heq : s.drc.toNat = s.ndr.toNat := by by_contra h; exact hs (.inr ⟨hxv, h⟩)
    simp [commandCheck, feedCheck, hxv, heq]
  | emit n =>
    have hkv : s.kv = true := by simpa [SeqBad] using hs
    simp [commandCheck, emitCheck, hkv, byteCount]

/-- Settles O23: where SEQ does not apply, the byte count of EMIT is the only check that can still fail. -/
theorem stageCommandsAreAccepted : Obligations.StageCommandsAreAccepted := by
  intro i s hidle hi hp hs
  obtain ⟨hb, -⟩ := hidle
  have hcheck := commandCheck_of_not_seqBad hi hp hs
  constructor
  · rintro (hn | hn)
    · rw [if_neg (by omega)] at hcheck
      exact exec_of_check_none hb hcheck
    · rw [if_neg fun h => h.1.elim hn] at hcheck
      exact exec_of_check_none hb hcheck
  · rintro n rfl hn
    rw [if_pos ⟨⟨n, rfl⟩, hn⟩] at hcheck
    exact exec_of_check hb hcheck nofun

/-! ### The effects -/

theorem exec_of_inProgress {i : Instr} {s : State} (h : InProgress i s) : exec i s = .next (commandEffect i s) := by
  rw [exec_eq_runCommand, runCommand_busy h.1]

/-- A stage command ends in the phase in which it began. -/
theorem finish_of_ph {s : State} {p : Phase} (h : s.ph = p) : s.finish p = { s with fin := true } := by
  subst h
  rfl

/-- The effect of a command that is one stage `f` of the pipeline. -/
theorem exec_stage {i : Instr} {s : State} (h : InProgress i s) {f : State → State}
    (he : commandEffect i s = (f s).finish (firstPhase i)) (hf : (f s).ph = s.ph) :
    exec i s = .next { f s with fin := true } := by
  have ⟨_, _, _, hph, _⟩ := h
  rw [exec_of_inProgress h, he, finish_of_ph (hf.trans hph)]

/-- Settles O28: the effect is only marked complete (log 9). -/
theorem nopHasNoEffect : Obligations.NopHasNoEffect := fun _ h => exec_stage (f := id) h rfl rfl

/-- Settles O29: INIT is the one stage `initPhase`. -/
theorem initLatchesTheCall : Obligations.InitLatchesTheCall := fun _ h => exec_stage (f := initPhase) h rfl rfl

/-- Settles O30: LOADX is the one stage `loadPhase` on slot 0. -/
theorem loadxCopiesTheBaseMatrix : Obligations.LoadxCopiesTheBaseMatrix :=
  fun _ h => exec_stage (f := loadPhase false) h rfl rfl

/-- Settles O31: DROUND is the one stage `roundPhase` on slot 0. -/
theorem droundIsOneDoubleRound : Obligations.DroundIsOneDoubleRound :=
  fun _ h => exec_stage (f := roundPhase false) h rfl rfl

/-- Settles O32: FEED is the one stage `feedPhase` on slot 0, which advances the counter by one block. -/
theorem feedFinalisesTheBlock : Obligations.FeedFinalisesTheBlock :=
  fun s h => ⟨feedForward s.X s.S, exec_stage (f := feedPhase false) h rfl rfl⟩

/-! ### The bytes of EMIT -/

/-- A pointer moved on by `n` and back again is where it was. -/
theorem truncAddr_back {c : Config} {p n : Nat} (hp : p < 2 ^ c.aw) (hn : n ≤ 2 ^ c.aw) :
    truncAddr c (truncAddr c (p + n) + 2 ^ c.aw - n) = p := by
  rw [Nat.add_sub_assoc hn, truncAddr_add_truncAddr, show p + n + (2 ^ c.aw - n) = p + 2 ^ c.aw by omega, truncAddr,
    Nat.add_mod_right, Nat.mod_eq_of_lt hp]

section Emit

variable {s : State} {n : BitVec 7} (hcur : s.current = some (.emit n)) (hsp : s.sp.toNat < 2 ^ s.config.aw)
  (hdp : s.dp.toNat < 2 ^ s.config.aw)
include hcur hsp hdp

/-- Before its effect the ranges of EMIT begin at the pointers. -/
theorem footprint_emit_before (hfin : s.fin = false) :
    s.footprint = ⟨s.ksl, s.sp.toNat, s.dp.toNat, n.toNat⟩ := by
  simp [State.footprint, hcur, hfin, truncAddr, Nat.mod_eq_of_lt hsp, Nat.mod_eq_of_lt hdp]

/-- After its effect they begin where the pointers stood before. -/
theorem footprint_emit_after (haw : s.config.aw ≤ 32) (hn : n.toNat ≤ 2 ^ s.config.aw) (p : Phase) :
    ((emitPhase n.toNat s).finish p).footprint = ⟨s.ksl, s.sp.toNat, s.dp.toNat, n.toNat⟩ := by
  have hcur' : ((emitPhase n.toNat s).finish p).current = some (.emit n) := hcur
  simp only [State.footprint, hcur', finish_fin, finish_sp, finish_dp, finish_ksl, finish_config, emitPhase_sp,
    emitPhase_dp, emitPhase_ksl, emitPhase_config, if_true, toNat_ofNat_truncAddr haw, truncAddr_back hsp hn,
    truncAddr_back hdp hn]

end Emit

/-- What an EMIT stage of at most `REM` bytes of one block does to memory. -/
theorem emitPhase_read {n : Nat} {s : State} (hn : n ≤ 64) (hrem : n ≤ s.rem.toNat) (hm : MemInv s)
    (hsv : s.sv = true) (hs : StreamInv s) :
    (∀ i (h : i < 64), i < n → Memory.read (emitPhase n s).mem (s.dp.toNat + i) =
      (if s.ksl then 0x00 else Memory.read s.mem (s.sp.toNat + i)) ^^^ s.KS[i]) ∧
    ∀ a, (a < s.dp.toNat ∨ s.dp.toNat + n ≤ a) → Memory.read (emitPhase n s).mem a = Memory.read s.mem a := by
  obtain ⟨-, -, hbounds⟩ := hs hsv
  have hlen : (s.KS.toList.take n).length = n := by simpa using hn
  rw [emitPhase_mem, take_readyBytes s hn]
  constructor
  · intro i _ hi
    obtain ⟨hd, hxor⟩ := hbounds (by omega)
    rw [read_moveBytes _ _ _ _ _ _ hm.1 (by omega) ?_ i (by omega)]
    · simp
    · intro hks
      obtain ⟨hr, hsep⟩ := hxor hks
      refine ⟨by omega, ?_⟩
      rcases hsep with h | h | h
      · exact .inl (congrArg BitVec.toNat h)
      · exact .inr (.inl (by omega))
      · exact .inr (.inr (by omega))
  · intro a ha
    refine read_moveBytes_other _ _ _ _ _ _ fun i hi => ?_
    obtain ⟨hd, -⟩ := hbounds (by omega)
    rw [truncAddr_of_lt (by omega)]
    omega

/-- Settles O33: the effect is one EMIT stage, since `MemOK` admits its accesses; the stream invariant keeps its ranges
from wrapping, and from meeting unless they are identical. -/
theorem emitMovesExactlyItsBytes : Obligations.EmitMovesExactlyItsBytes := by
  intro n s h hn hrem hlegal hm hsv hs hok
  have hcur := current_of_inProgress h
  have ⟨_, hfin, _, hph, _⟩ := h
  obtain ⟨h8, h32, -⟩ := hlegal
  obtain ⟨hsp, hdp, -⟩ := hs hsv
  have h256 : 2 ^ 8 ≤ 2 ^ s.config.aw := Nat.pow_le_pow_right (by decide) h8
  have heff : commandEffect (.emit n) s = (emitPhase n.toNat s).finish .emitp := if_pos hok
  obtain ⟨hout, hother⟩ := emitPhase_read hn hrem hm hsv hs
  refine ⟨_, (exec_of_inProgress h).trans (congrArg _ heff), ?_, hout, hother,
    footprint_emit_before hcur hsp hdp hfin, ?_⟩
  · rw [finish_of_ph (s := emitPhase n.toNat s) (p := .emitp) hph]
    rfl
  · rw [footprint_emit_before hcur hsp hdp hfin, footprint_emit_after hcur hsp hdp h32 (by omega)]

end Sys2Proof.Machine
end

section
/-! PROOFS. Commands issued one after the other: the state in which each stage command ends, and that the stages of a
block and of a call do what BLOCK and PROCESS do (41_stage_commands.md R109; 42_block_and_process.md R113, R114). -/

namespace Sys2Proof.Machine

/-! ### One command -/

theorem run_of_step {s t : State} (k : Nat) (h : step s = .next t) : core.run (k + 1) s = core.run k t :=
  run_succ_of_step core k h

/-- A command whose checks pass is accepted, and its word acknowledged. -/
theorem step_command {i : Instr} {s : State} (hidle : Idle s) (hwf : i.wf = true) (hc : commandCheck i s = .none)
    (b : BusReply) :
    step (s.withHost b [cmdWrite s.config (encode i)]) = .next ((s.accept i).withHost .ack []) := by
  obtain ⟨hb, herr⟩ := hidle
  refine (handle_cmdWrite (s.withHost b []) (encode i) hb).trans ?_
  show dispatchWord (encode i) (s.withHost .ack []) = _
  have he : (s.withHost .ack []).err = .none := herr
  simp only [dispatchWord, he, decode_encode hwf]
  exact exec_of_check_none (s := s.withHost .ack []) hb ((commandCheck_withHost ..).trans hc)

/-- Three steps take a command whose checks pass through acceptance, effect and completion, unless BUS ends it. -/
theorem issue_of_effect {i : Instr} {s t : State} (hidle : Idle s) (hwf : i.wf = true) (hc : commandCheck i s = .none)
    (ht : commandEffect i (s.accept i) = t) (hcur : t.current = some i) (hfin : t.fin = true) :
    issue i s = .next (t.complete.withHost .ack []) := by
  have haccept := step_command hidle hwf hc s.bus
  have hacc : InProgress i (s.accept i) := ⟨rfl, rfl, rfl, rfl, rfl⟩
  have heffect : step ((s.accept i).withHost .ack []) = .next (t.withHost .ack []) := by
    refine (engineTurn_of_current (g := .whole) (s := (s.accept i).withHost .ack [])
      (current_of_inProgress hacc)).trans ?_
    rw [engineMove_withHost, ← ht]
    simp [engineMove]
  have hcomplete : step (t.withHost .ack []) = .next (t.complete.withHost .ack []) := by
    refine (engineTurn_of_current (g := .whole) (s := t.withHost .ack []) hcur).trans ?_
    rw [engineMove_withHost, engineMove, if_pos hfin]
  exact ((run_of_step 2 haccept).trans (run_of_step 1 heffect)).trans (run_of_step 0 hcomplete)

/-- The state at rest after a command that no other agent raced with, with the host's write acknowledged. -/
def State.atRest (s : State) : State :=
  { s with
    busy := false, done := true, op := 0x00, ph := .idle, emitN := 0, fin := false, accMem := [], accKS := zeroBlock
    races := [], bus := .ack, inbox := [] }

@[simp] theorem atRest_err (s : State) : s.atRest.err = s.err := rfl
@[simp] theorem atRest_mem (s : State) : s.atRest.mem = s.mem := rfl

section Stages

variable {s : State} (hidle : Idle s)
include hidle

theorem issue_init (hc : callCheck s = .none) : issue .init s = .next (initPhase s).atRest :=
  issue_of_effect (i := .init) hidle rfl hc rfl rfl rfl

theorem issue_loadx (hs : s.sv = true) : issue .loadx s = .next (loadPhase false s).atRest :=
  issue_of_effect (i := .loadx) hidle rfl (if_pos hs) rfl rfl rfl

theorem issue_dround (hl : RoundsLeft s) : issue .dround s = .next (roundPhase false s).atRest :=
  issue_of_effect (i := .dround) hidle rfl ((if_pos hl.1).trans (if_neg (Nat.not_le.2 hl.2))) rfl rfl rfl

theorem issue_feed (hd : RoundsDone s) : issue .feed s = .next (feedPhase false s).atRest :=
  issue_of_effect (i := .feed) hidle rfl ((if_pos hd.1).trans (if_pos hd.2)) rfl rfl rfl

theorem issue_block (hs : s.sv = true) : issue .block s = .next (blockPass false s).atRest := by
  have heff : commandEffect .block (s.accept .block) = (blockPass false (s.accept .block)).finish .feedp := rfl
  rw [blockPass_false] at heff ⊢
  exact issue_of_effect (i := .block) hidle rfl (if_pos hs) heff rfl rfl

theorem issue_emit {n : BitVec 7} (hn : n.toNat ≤ 64) (hk : s.kv = true) (hrem : n.toNat ≤ s.rem.toNat)
    (hok : s.emitOK n.toNat = true) : issue (.emit n) s = .next (emitPhase n.toNat s).atRest := by
  have heff : commandEffect (.emit n) (s.accept (.emit n)) = (emitPhase n.toNat (s.accept (.emit n))).finish .emitp :=
    if_pos hok
  exact issue_of_effect (i := .emit n) hidle (decide_eq_true hn) ((if_pos hk).trans (if_neg (Nat.not_lt.2 hrem))) heff
    (current_of_inProgress (s := s.accept (.emit n)) ⟨rfl, rfl, rfl, rfl, rfl⟩) rfl

end Stages

/-! ### The stages of a block -/

theorem issueAll_cons {i : Instr} {l : List Instr} {s t : State} (h : issue i s = .next t) :
    issueAll (i :: l) s = issueAll l t := by
  rw [issueAll, h]

theorem issueAll_append {l l' : List Instr} {s t : State} (h : issueAll l s = .next t) :
    issueAll (l ++ l') s = issueAll l' t := by
  induction l generalizing s with
  | nil => cases h; rfl
  | cons i l ih =>
    rw [List.cons_append, issueAll]
    rw [issueAll] at h
    cases hi : issue i s with
    | next u => rw [hi] at h; exact ih h
    | fault f => exact nomatch f
    | refused r => rw [hi] at h; cases h

/-- While double-rounds are left, `k` DROUNDs are `k` double-rounds. -/
theorem issueAll_drounds (k : Nat) {s : State} (he : s.err = .none) (hx : s.xv = true)
    (hk : s.drc.toNat + k ≤ s.ndr.toNat) :
    issueAll (List.replicate k .dround) s.atRest = .next (roundPhases false k s).atRest := by
  induction k generalizing s with
  | zero => rfl
  | succ k ih =>
    have hlt : s.drc.toNat < s.ndr.toNat := by omega
    have hd := roundPhase_drc_toNat false hlt
    rw [List.replicate_succ, issueAll_cons (issue_dround (s := s.atRest) ⟨rfl, he⟩ ⟨hx, hlt⟩)]
    exact ih (s := roundPhase false s) he hx (by rw [hd, roundPhase_ndr]; omega)

/-- The stages of a block are one pass (R109, R113). -/
theorem issueAll_blockStages {s : State} (hidle : Idle s) (hs : s.sv = true) :
    issueAll (blockStages s.ndr.toNat) s = .next (blockPass false s).atRest := by
  have hrounds := issueAll_drounds s.ndr.toNat (s := loadPhase false s) hidle.2 rfl (by simp)
  have hdone : RoundsDone (roundPhases false s.ndr.toNat (loadPhase false s)) := by
    have hle := s.ndr.toNat_le
    rw [roundPhases_false]
    refine ⟨rfl, ?_⟩
    show (0#5 + BitVec.ofNat 5 s.ndr.toNat).toNat = s.ndr.toNat
    rw [BitVec.zero_add, BitVec.toNat_ofNat]
    omega
  have herr : (roundPhases false s.ndr.toNat (loadPhase false s)).err = .none := by
    rw [roundPhases_false]
    exact hidle.2
  rw [blockStages, issueAll_cons (issue_loadx hidle hs), issueAll_append hrounds,
    issueAll_cons (issue_feed (s := (roundPhases false s.ndr.toNat (loadPhase false s)).atRest) ⟨rfl, herr⟩ hdone)]
  rfl

/-- Settles O54: both end at rest after one pass. -/
theorem stagesOfABlockEqualBlock : Obligations.StagesOfABlockEqualBlock := by
  intro s hidle _ hs
  refine ⟨_, issueAll_blockStages hidle hs, issue_block hidle hs, ?_, rfl⟩
  rw [blockPass_false]
  exact hidle.2

/-! ### The stages of a call -/

/-- The stage commands of the blocks of `n` bytes: those of a call but for INIT (R109). -/
def streamStages (ndr n : Nat) : List Instr :=
  (List.range ((n + 63) / 64)).flatMap fun q => blockStages ndr ++ [Instr.emit (BitVec.ofNat 7 (min 64 (n - 64 * q)))]

theorem callStages_eq (ndr len : Nat) : callStages ndr len = .init :: streamStages ndr len := rfl

/-- The first block, then the rest. -/
theorem streamStages_of_pos (ndr : Nat) {n : Nat} (hn : 0 < n) :
    streamStages ndr n =
      blockStages ndr ++ .emit (BitVec.ofNat 7 (min 64 n)) :: streamStages ndr (n - min 64 n) := by
  have hk : (n + 63) / 64 = (n - min 64 n + 63) / 64 + 1 := by omega
  have hq : ∀ q, n - 64 * (q + 1) = n - min 64 n - 64 * q := by omega
  rw [streamStages, hk, List.range_succ_eq_map, List.flatMap_cons, List.flatMap_map]
  simp only [hq, Nat.mul_zero, Nat.sub_zero, List.append_assoc, List.singleton_append, streamStages]

/-- The state with other contents of `X` and `KS`, which a block under way leaves behind. -/
def State.withBlock (s : State) (x : Matrix) (ks : Block) : State := { s with X := x, KS := ks }

@[simp] theorem withBlock_err (s : State) (x : Matrix) (ks : Block) : (s.withBlock x ks).err = s.err := rfl
@[simp] theorem withBlock_mem (s : State) (x : Matrix) (ks : Block) : (s.withBlock x ks).mem = s.mem := rfl
@[simp] theorem streamed_err (s : State) (n : Nat) : (s.streamed n).err = s.err := rfl

theorem BetweenPasses.withBlock {s : State} (h : BetweenPasses s) {x : Matrix} {ks : Block} :
    BetweenPasses (s.withBlock x ks) := { h with }

/-- A block's stages and an EMIT move the next bytes of the call, as a scalar pass of PROCESS does. -/
theorem emitPhase_blockPass_eq {s : State} (h : BetweenPasses s) {n : Nat} (h0 : 0 < n) (hn : n ≤ 64) :
    emitPhase n (blockPass false s) =
      (s.streamed n).withBlock (feedForward (rounds s.S s.ndr.toNat) s.S) (blockBytes s.S s.ndr.toNat) := by
  have hctr : (n + 63) / 64 = 1 := by omega
  have hready : (blockPass false s).readyBytes.take n = keystreamBytes s.config.ctrWidth s.S s.ndr.toNat n := by
    rw [take_readyBytes _ hn, blockPass_false, ← keystreamBytes_block s.config.ctrWidth, take_keystreamBytes _ _ _ hn]
  rw [blockPass_false] at hready ⊢
  simp only [emitPhase, hready, State.streamed, hctr, ctrIncBy, h.xv, h.kv, h.drc, State.withBlock]

/-- Moving bytes of the call leaves it between two passes. -/
theorem BetweenPasses.streamed {s : State} (h : BetweenPasses s) {n : Nat} (hn : n ≤ s.rem.toNat) :
    BetweenPasses (s.streamed n) := by
  have addr := toNat_ofNat_truncAddr h.aw
  refine { h with sp := ?_, dp := ?_, ok := ?_ }
  · exact (addr _).trans_lt (truncAddr_lt _ _)
  · exact (addr _).trans_lt (truncAddr_lt _ _)
  · rw [streamed_rem hn]
    simp only [State.streamed, addr]
    refine rangeOK_drop ?_
    rw [Nat.add_sub_cancel' hn]
    exact h.ok

/-- Moving a block, or the tail, and then what is left completes the call. -/
theorem streamed_min {s : State} (h : BetweenPasses s) :
    (s.streamed (min 64 s.rem.toNat)).streamed (s.rem.toNat - min 64 s.rem.toNat) = s.streamed s.rem.toNat := by
  rcases Nat.le_total 64 s.rem.toNat with hle | hle
  · rw [Nat.min_eq_left hle]
    refine (streamed_add h.aw 1 _).trans ?_
    rw [Nat.add_sub_cancel' hle]
  · have hs := h.streamed (Nat.le_refl s.rem.toNat)
    rw [Nat.min_eq_right hle, Nat.sub_self, streamed_zero hs.sp hs.dp]

/-- The stages of a block and an EMIT of at most what is left, issued at rest. -/
theorem issueAll_block_emit {s : State} (h : BetweenPasses s) (hs : s.sv = true) (he : s.err = .none) {n : Nat}
    (hn : n ≤ 64) (hrem : n ≤ s.rem.toNat) (l : List Instr) :
    issueAll (blockStages s.ndr.toNat ++ .emit (BitVec.ofNat 7 n) :: l) s.atRest =
      issueAll l (emitPhase n (blockPass false s)).atRest := by
  have htoNat : (BitVec.ofNat 7 n).toNat = n := by rw [BitVec.toNat_ofNat]; omega
  have hblock : issueAll (blockStages s.ndr.toNat) s.atRest = .next (blockPass false s).atRest := by
    refine (issueAll_blockStages (s := s.atRest) ⟨rfl, he⟩ hs).trans ?_
    rw [blockPass_false, blockPass_false]
    rfl
  have hf := callFrame_blockPass false s
  have herr : (blockPass false s).err = .none := by rw [blockPass_false]; exact he
  have hok : (blockPass false s).emitOK n = true := by
    rw [State.emitOK, hf.config, hf.ksl, hf.sp, hf.dp]
    exact rangeOK_of_le h.ok hrem
  have hemit : issue (.emit (BitVec.ofNat 7 n)) (blockPass false s).atRest =
      .next (emitPhase (BitVec.ofNat 7 n).toNat (blockPass false s).atRest).atRest := by
    refine issue_emit (s := (blockPass false s).atRest) ⟨rfl, herr⟩ ?_ rfl ?_ ?_ <;> rw [htoNat]
    · exact hn
    · exact hrem.trans_eq (congrArg BitVec.toNat hf.rem).symm
    · exact hok
  rw [htoNat] at hemit
  rw [issueAll_append hblock, issueAll_cons hemit]
  rfl

/-- The stages and EMITs of the blocks that are left move the bytes that are left. -/
theorem issueAll_streamStages {s : State} (h : BetweenPasses s) (hs : s.sv = true) (he : s.err = .none) :
    ∃ x ks, issueAll (streamStages s.ndr.toNat s.rem.toNat) s.atRest =
      .next ((s.streamed s.rem.toNat).withBlock x ks).atRest := by
  induction hr : s.rem.toNat using Nat.strong_induction_on generalizing s with
  | h r ih =>
    subst hr
    rcases Nat.eq_zero_or_pos s.rem.toNat with h0 | hpos
    · rw [h0, streamed_zero h.sp h.dp]
      exact ⟨s.X, s.KS, rfl⟩
    · have hn64 : min 64 s.rem.toNat ≤ 64 := Nat.min_le_left ..
      have hnrem : min 64 s.rem.toNat ≤ s.rem.toNat := Nat.min_le_right ..
      have hnpos : 0 < min 64 s.rem.toNat := by omega
      have hdone := streamed_min h
      rw [streamStages_of_pos _ hpos]
      generalize min 64 s.rem.toNat = n at hn64 hnrem hnpos hdone
      rw [issueAll_block_emit h hs he hn64 hnrem, emitPhase_blockPass_eq h hnpos hn64, ← hdone]
      exact ih (s.rem.toNat - n) (by omega) (s := (s.streamed n).withBlock _ _) (h.streamed hnrem).withBlock hs he
        (streamed_rem hnrem)

/-- The outcome is a state without error, with the bytes moved of the call that the argument registers of `s`
describe. -/
def EndsCall (s : State) (o : Host.Outcome State Fault Refusal) : Prop :=
  ∃ t, o = .next t ∧ t.err = .none ∧ t.mem = ((initPhase s).streamed s.len.toNat).mem

section Call

variable {s : State} (hidle : Idle s) (hp : ParamInv s) (hc : callCheck s = .none) (hok : CallMemOK s)
include hidle hp hc hok

/-- INIT, the stages and the EMITs move the bytes of the call. -/
theorem callStages_endsCall : EndsCall s (issueAll (callStages (ndrOf s.cfg.rc).toNat s.len.toNat) s) := by
  obtain ⟨x, ks, h⟩ := issueAll_streamStages (initPhase_betweenPasses hp hok) rfl hidle.2
  rw [initPhase_ndr, initPhase_rem] at h
  rw [callStages_eq, issueAll_cons (issue_init hidle hc)]
  exact ⟨_, h, by simpa using hidle.2, by simp⟩

/-- PROCESS moves the bytes of the call, and completes. -/
theorem process_endsCall : EndsCall s (issue .process s) := by
  have hmoved := processEffect_callMoved ((engineFrame_accept s .process).paramsKept hp).2 hok
  obtain ⟨hfin, hcur, herr, hraces, -⟩ := hmoved.frame
  have hacc := current_of_inProgress (s := s.accept .process) (i := .process) ⟨rfl, rfl, rfl, rfl, rfl⟩
  have hmem : (processEffect (s.accept .process)).mem = ((initPhase s).streamed s.len.toNat).mem := by
    obtain ⟨x, ks, sl, p, e⟩ := hmoved
    rw [e]
    rfl
  exact ⟨_, issue_of_effect (t := processEffect (s.accept .process)) hidle rfl hc rfl (hcur.trans hacc) hfin,
    herr.trans hidle.2, (completed_of_no_races hraces).trans hmem⟩

end Call

/-- Settles O55: both move the bytes of the call that the argument registers describe. -/
theorem stagesOfACallEqualProcess : Obligations.StagesOfACallEqualProcess := by
  intro s hidle _ hp hc hok
  obtain ⟨t, ht, hte, htm⟩ := callStages_endsCall hidle hp hc hok
  obtain ⟨u, hu, hue, hum⟩ := process_endsCall hidle hp hc hok
  exact ⟨t, u, ht, hu, hte, hue, htm.trans hum.symm⟩

end Sys2Proof.Machine
end

section
/-! PROOFS. BLOCK, the contract of a call, and calls compared with one another: the two paths, calls of the same cipher,
and a call that is split in two (42_block_and_process.md R113 to R122). -/

namespace Sys2Proof.Machine

/-- Settles O34: the effect is one scalar pass. -/
theorem blockIsBlockFn : Obligations.BlockIsBlockFn := by
  intro s h
  have heff : commandEffect .block s = (blockPass false s).finish .feedp := rfl
  refine ⟨feedForward (rounds s.S s.ndr.toNat) s.S, ?_⟩
  rw [exec_of_inProgress h, heff, blockPass_false]
  rfl

/-! ### The contract of a call -/

theorem exec_process {s : State} (h : InProgress .process s) : exec .process s = .next (processEffect s) :=
  exec_of_inProgress h

/-- The buffers of a call stay the engine's until completion (20_memory.md R54). -/
theorem footprint_processEffect {s : State} (hcur : s.current = some .process) (hp : ParamInv s) (hok : CallMemOK s) :
    (processEffect s).footprint = ⟨s.cfg.ks, s.src.toNat, s.dst.toNat, s.len.toNat⟩ := by
  have hmoved := processEffect_callMoved hp hok
  have hcur' : (processEffect s).current = some .process := hmoved.frame.2.1.trans hcur
  obtain ⟨x, ks, sl, p, e⟩ := hmoved
  rw [footprint_of_process hcur', e]
  rfl

/-- Settles O35: the bytes are those of `processEffect_read`; the rest is read off the state in which the passes end. -/
theorem processContract : Obligations.ProcessContract := by
  rintro s ⟨hin, herr, hc, hp, hm, hok⟩
  have hcur := current_of_inProgress hin
  obtain ⟨hout, hother⟩ := processEffect_read hp hm hok hc
  refine ⟨processEffect s, exec_process hin, hout, hother, ?_⟩
  rw [footprint_processEffect hcur hp hok, footprint_of_process hcur]
  obtain ⟨hbusy, -, hop, -⟩ := hin
  obtain ⟨x, ks, sl, p, e⟩ := processEffect_callMoved hp hok
  have hrem : (processEffect s).rem = 0 := by simp [e, State.streamed]
  refine ⟨?_, ?_, ?_, hrem, ?_⟩ <;> rw [e]
  · rfl
  · rfl
  · rfl
  · exact ⟨rfl, rfl, rfl, rfl, rfl, rfl, rfl, herr, hbusy, rfl, hop, rfl, rfl,
      ⟨rfl, rfl, rfl, rfl, rfl, rfl, rfl, rfl, rfl⟩, rfl, rfl⟩

/-! ### The two paths -/

/-- Once a pass has been made, a call ends in the phase of EMIT. -/
theorem processPasses_emitp (fuel : Nat) {s : State} (h : BetweenPasses s) (hph : s.ph = .emitp) :
    (processPasses fuel s).ph = .emitp := by
  induction fuel generalizing s with
  | zero => exact hph
  | succ fuel ih =>
    by_cases h0 : s.rem = 0
    · rw [processPasses_of_rem_eq_zero _ h0]
      exact hph
    · rw [processPasses, if_neg h0]
      dsimp only
      rw [if_pos h.emitOK]
      exact ih h.pass rfl

/-- The phase in which the effect of PROCESS ends: an empty call makes no pass (10_state.md R38). -/
def lastPhase (s : State) : Phase := if s.len = 0 then s.ph else .emitp

theorem processEffect_ph {s : State} (hp : ParamInv s) (hok : CallMemOK s) : (processEffect s).ph = lastPhase s := by
  have h := initPhase_betweenPasses hp hok
  unfold processEffect lastPhase
  by_cases h0 : s.len = 0
  · rw [processPasses_of_rem_eq_zero (s := initPhase s) _ h0, if_pos h0]
    rfl
  · rw [processPasses, if_neg (show ¬(initPhase s).rem = 0 from h0), if_neg h0]
    dsimp only
    rw [if_pos h.emitOK]
    exact processPasses_emitp _ h.pass rfl

/-- The state in which the effect of PROCESS ends. Only what holds no value is left open. -/
theorem processEffect_eq {s : State} (hp : ParamInv s) (hok : CallMemOK s) :
    ∃ x ks sl, processEffect s = { (initPhase s).streamed s.len.toNat with
      X := x, KS := ks, slots := sl, ph := lastPhase s, fin := true } := by
  have hph := processEffect_ph hp hok
  obtain ⟨x, ks, sl, p, e⟩ := processEffect_callMoved hp hok
  rw [e] at hph
  cases hph
  exact ⟨x, ks, sl, e⟩

/-- Of the parameters, only the address width matters to where bytes move. -/
theorem moveBytes_of_aw_eq {c c' : Config} (h : c'.aw = c.aw) (ksl : Bool) (ks : List Byte) (sp dp : Nat) (m : Memory) :
    moveBytes c' ksl ks sp dp m = moveBytes c ksl ks sp dp m := by
  have htrunc : truncAddr c' = truncAddr c := funext fun v => by rw [truncAddr, truncAddr, h]
  induction ks generalizing sp dp m with
  | nil => rfl
  | cons k ks ih => rw [moveBytes, moveBytes, htrunc, ih]

/-- The state with another number of slots, other slots, and vector iterations allowed or not. -/
def State.withPath (s : State) (b : Bpi) (v : Bool) (sl : List Slot) : State :=
  { s with config := { s.config with bpi := b }, cfg := { s.cfg with ven := v }, slots := sl }

theorem streamed_withPath (s : State) (b : Bpi) (v : Bool) (sl : List Slot) (n : Nat) :
    (initPhase (s.withPath b v sl)).streamed n = { ((initPhase s).streamed n).withPath b v sl with venl := v } := by
  have hmem : ((initPhase (s.withPath b v sl)).streamed n).mem = ((initPhase s).streamed n).mem :=
    moveBytes_of_aw_eq (c := s.config) (c' := (s.withPath b v sl).config) rfl ..
  exact congrArg (fun m => { ((initPhase s).streamed n).withPath b v sl with venl := v, mem := m }) hmem

/-- Settles O52: neither the bytes moved nor the phase depend on `BPI`, `VEN` or the slots. -/
theorem vectorAndScalarPathsAgree : Obligations.VectorAndScalarPathsAgree := by
  rintro s u b v sl ⟨hin, -, -, hp, -, hok⟩ hu ⟨hin', -, -, hp', -, hok'⟩
  obtain ⟨x, ks, sl₁, e⟩ := processEffect_eq hp hok
  obtain ⟨x', ks', sl₂, e'⟩ := processEffect_eq hp' hok'
  change u = s.withPath b v sl at hu
  refine ⟨_, _, exec_process hin, exec_process hin', ?_⟩
  rw [e, e', hu, streamed_withPath]
  rfl

/-! ### Calls with the same keystream -/

/-- What a call writes (R115). -/
theorem CallReady.output {s t : State} (h : CallReady s) (ht : exec .process s = .next t) {i : Nat}
    (hi : i < s.len.toNat) : Memory.read t.mem (s.dst.toNat + i) = inputByte s i ^^^ callKey s i := by
  obtain ⟨hin, -, hc, hp, hm, hok⟩ := h
  rw [exec_process hin] at ht
  cases ht
  exact (processEffect_read hp hm hok hc).1 i hi

theorem inputByte_of_xor {s : State} (h : s.cfg.ks = false) (i : Nat) :
    inputByte s i = Memory.read s.mem (s.src.toNat + i) := by
  simp [inputByte, h]

theorem inputByte_of_keystream {s : State} (h : s.cfg.ks = true) (i : Nat) : inputByte s i = 0 := by
  simp [inputByte, h]

theorem callKey_of_sameCipher {s u : State} (h : SameCipher s u) (i : Nat) : callKey u i = callKey s i := by
  obtain ⟨hkey, hn0, hn1, hc0, hc1, hrc, hw⟩ := h
  simp only [callKey, State.argMatrix, hkey, hn0, hn1, hc0, hc1, hrc, hw]

/-- Settles O56: the keystream byte, combined in twice, cancels. -/
theorem involution : Obligations.Involution := by
  intro s u t v hs hu hsame hlen hks hks' ht hread hv i hi
  have hi' : i < u.len.toNat := by rwa [hlen]
  rw [hu.output hv hi', inputByte_of_xor hks', hread i hi, hs.output ht hi, inputByte_of_xor hks,
    callKey_of_sameCipher hsame, BitVec.xor_assoc, BitVec.xor_self, BitVec.xor_zero]

/-- Settles O57: what is written for zeros is the keystream. -/
theorem keystreamIndependence : Obligations.KeystreamIndependence := by
  intro s u t v hs hu hsame hlen hks hzero ht hv
  have hzeros : ∀ i, i < s.len.toNat → Memory.read t.mem (s.dst.toNat + i) = callKey s i := fun i hi => by
    rw [hs.output ht hi, inputByte_of_xor hks, hzero i hi]
    exact BitVec.zero_xor
  have hout : ∀ i, i < s.len.toNat → Memory.read v.mem (u.dst.toNat + i) = inputByte u i ^^^ callKey s i :=
    fun i hi => by rw [hu.output hv (by rwa [hlen]), callKey_of_sameCipher hsame]
  constructor
  · intro hxor i hi
    rw [hzeros i hi, hout i hi, inputByte_of_xor hxor, BitVec.xor_comm, BitVec.xor_assoc, BitVec.xor_self,
      BitVec.xor_zero]
  · intro hkey i hi
    rw [hzeros i hi, hout i hi, inputByte_of_keystream hkey]
    exact BitVec.zero_xor

/-! ### A call that is split -/

/-- The counter advance changes words 12 and 13 alone (40_arx_datapath.md R94). -/
theorem ctrIncBy_eq (w : CtrWidth) (m : Matrix) (k : Nat) :
    ctrIncBy w m k = { m with d := { m.d with l0 := (ctrIncBy w m k).d.l0, l1 := (ctrIncBy w m k).d.l1 } } := by
  induction k with
  | zero => rfl
  | succ k ih =>
    rw [ctrIncBy, ih]
    cases w <;> rfl

/-- The counter-start `(c0', c1')` is `k` blocks on from `(c0, c1)`, in a counter of the given width. -/
def CounterAhead (w : CtrWidth) (k : Nat) (c0 c1 c0' c1' : Word) : Prop :=
  match w with
  | .w64 => c1'.toNat * 2 ^ 32 + c0'.toNat = (c1.toNat * 2 ^ 32 + c0.toNat + k) % 2 ^ 64
  | .w32 => c1' = c1 ∧ c0'.toNat = (c0.toNat + k) % 2 ^ 32

/-- Advancing the base matrix is starting at the advanced counter. -/
theorem ctrIncBy_initMatrix {w : CtrWidth} {k : Nat} {c0 c1 c0' c1' : Word} (h : CounterAhead w k c0 c1 c0' c1')
    (key : Vector Word 8) (n0 n1 : Word) :
    ctrIncBy w (initMatrix key c0 c1 n0 n1) k = initMatrix key c0' c1' n0 n1 := by
  obtain ⟨h64, h32, h32', -⟩ := counterAdvanceWrapsSilently (initMatrix key c0 c1 n0 n1) k
  rw [ctrIncBy_eq]
  suffices hd : (ctrIncBy w (initMatrix key c0 c1 n0 n1) k).d.l0 = c0' ∧
      (ctrIncBy w (initMatrix key c0 c1 n0 n1) k).d.l1 = c1' by
    rw [hd.1, hd.2]
    rfl
  cases w with
  | w64 =>
    have hcounter := h64.trans h.symm
    generalize ctrIncBy .w64 (initMatrix key c0 c1 n0 n1) k = m at hcounter
    change m.d.l1.toNat * 2 ^ 32 + m.d.l0.toNat = _ at hcounter
    exact ⟨by bv_omega, by bv_omega⟩
  | w32 => exact ⟨BitVec.eq_of_toNat_eq (h32.trans h.2.symm), h32'.trans h.1.symm⟩

/-- Settles O58: the calls write the same bytes combined with the same keystream, which the call on the rest enters at
byte `64 k`. -/
theorem splitCallsAgree : Obligations.SplitCallsAgree := by
  intro s f g s' f' g' k hs hf hg hsame _ hkey hn0 hn1 hrc hw _ hctr hflen hslen hfin hgin hs' hf' hg'
  have hahead : CounterAhead s.config.ctrWidth k s.ctr0 s.ctr1 g.ctr0 g.ctr1 := hctr
  have hstart : g.argMatrix = ctrIncBy s.config.ctrWidth s.argMatrix k := by
    rw [State.argMatrix, hkey, hn0, hn1, State.argMatrix, ctrIncBy_initMatrix hahead]
  have hgkey : ∀ i, callKey g i = callKey s (64 * k + i) := fun i => by
    rw [callKey, hstart, hw, hrc, keystream_ctrIncBy, callKey]
  constructor
  · intro i hi
    rw [hf.output hf' (by omega), hs.output hs' (by omega), hfin i hi, callKey_of_sameCipher hsame]
  · intro i hi
    rw [hg.output hg' hi, Nat.add_assoc, hs.output hs' (by omega), hgin i hi, hgkey]

end Sys2Proof.Machine
end

section
/-! PROOFS. Host register access: what a write and a read of each offset do, the acknowledge, and which step runs the
meaning of a command (43_host_register_access.md R124 to R128). -/

namespace Sys2Proof.Machine

/-! ### The register at an offset -/

/-- Past the keys, and at 0x1C, no register stands (10_state.md R14). -/
theorem regAt_reserved {off : Nat} (h : off = 0x1C ∨ 0x60 ≤ off) : regAt off = .reserved := by
  unfold regAt
  split <;> simp_all

theorem regAt_const {i : Nat} (h : i < 4) : regAt (0x30 + 4 * i) = .const ⟨i, h⟩ := regAt_offset (.const ⟨i, h⟩)

theorem regAt_key {i : Nat} (h : i < 8) : regAt (0x40 + 4 * i) = .key ⟨i, h⟩ := regAt_offset (.key ⟨i, h⟩)

/-- The offsets a write of which changes nothing are those of `CAP`, the constants and no register (R124). -/
theorem regAt_readOnly {off : Nat} (hal : off % 4 = 0)
    (h : off = 0x0C ∨ (0x30 ≤ off ∧ off ≤ 0x3C) ∨ off = 0x1C ∨ 0x60 ≤ off) :
    regAt off = .cap ∨ (∃ i, regAt off = .const i) ∨ regAt off = .reserved := by
  rcases h with rfl | ⟨hlo, hhi⟩ | h
  · exact .inl rfl
  · obtain ⟨i, rfl⟩ : ∃ i, off = 0x30 + 4 * i := ⟨(off - 0x30) / 4, by omega⟩
    exact .inr (.inl ⟨_, regAt_const (by omega)⟩)
  · exact .inr (.inr (regAt_reserved h))

/-- The keys and the offsets without a register read 0 (R125; 10_state.md R29, R30). -/
theorem readReg_eq_zero (s : State) {off : Nat} (hal : off % 4 = 0) (h : off = 0x1C ∨ 0x40 ≤ off) :
    readReg s (regAt off) = 0 := by
  by_cases hkey : 0x40 ≤ off ∧ off < 0x60
  · obtain ⟨i, rfl⟩ : ∃ i, off = 0x40 + 4 * i := ⟨(off - 0x40) / 4, by omega⟩
    rw [regAt_key (by omega)]
    rfl
  · rw [regAt_reserved (by omega)]
    rfl

/-! ### Writes -/

/-- A write of the block on a busy engine is dropped, whatever its offset, and sets `WRB`. -/
theorem step_wrEvent_busy {s : State} (hb : s.busy = true) (data : Word) {off : Nat} (hlt : off < 256)
    (hal : off % 4 = 0) : step (s.facing (wrEvent s.config off data)) = .next { s with wrb := true, bus := .ack } := by
  rw [step_facing, handle_wrEvent s data hlt hal, writeAt, if_pos hb]

/-- A write of any register but `CMD` on an engine that is not busy writes that register. -/
theorem step_wrEvent_reg {s : State} (hb : s.busy = false) (data : Word) {off : Nat} {r : Reg} (hlt : off < 256)
    (hal : off % 4 = 0) (hr : regAt off = r) (hne : r ≠ .cmd) :
    step (s.facing (wrEvent s.config off data)) = .next (writeReg r data { s with bus := .ack }) := by
  subst hr
  rw [step_facing, handle_wrEvent s data hlt hal]
  obtain ⟨t, ht⟩ := writeAt_next off data { s with bus := .ack }
  rcases writeAt_cases ht with ⟨hb', -⟩ | ⟨-, hc, -⟩ | ⟨-, -, rfl⟩
  · exact nomatch hb.symm.trans hb'
  · exact absurd hc hne
  · exact ht

/-- See `step_wrEvent_reg`: the write at the register's own offset. -/
theorem step_wrEvent_offset {s : State} (hb : s.busy = false) (data : Word) (r : Reg) (hne : r ≠ .cmd) :
    step (s.facing (wrEvent s.config r.offset data)) = .next (writeReg r data { s with bus := .ack }) :=
  step_wrEvent_reg hb data (offset_aligned r).1 (offset_aligned r).2 (regAt_offset r) hne

theorem one_lt_bpi_count (b : Bpi) : 1 < b.count ↔ b ≠ .one := by
  cases b <;> decide

/-- `VEN` stays 0 on a scalar-only engine (10_state.md R22). -/
theorem cfgOf_ven (c : Config) (data : Word) :
    (cfgOf c data).ven = if c.bpi = .one then false else data.getLsbD 8 := by
  by_cases h : c.bpi = .one <;> simp [cfgOf, one_lt_bpi_count, h]

/-- Settles O15: on a busy engine the write is dropped before its offset matters; on another the offset gives the
register, and only `CFG`'s `VEN` and the width of the address registers make a field differ from the data. -/
theorem hostWriteByOffset : Obligations.HostWriteByOffset := by
  intro s data
  refine ⟨fun hb off hlt hal => step_wrEvent_busy hb data hlt hal, fun hb => ?_⟩
  have hreg := step_wrEvent_offset hb data
  refine ⟨handle_cmdWrite s data hb, hreg .status nofun, ?_, hreg .src nofun, hreg .dst nofun, hreg .len nofun,
    hreg .ctr0 nofun, hreg .ctr1 nofun, hreg .nonce0 nofun, hreg .nonce1 nofun, fun i h => hreg (.key ⟨i, h⟩) nofun,
    fun off hlt hal h => ?_⟩
  · rw [← cfgOf_ven]
    exact hreg .cfg nofun
  · rcases regAt_readOnly hal h with hr | ⟨i, hr⟩ | hr <;> exact step_wrEvent_reg hb data hlt hal hr nofun

/-! ### Reads -/

theorem step_rdEvent (s : State) (r : Reg) :
    step (s.facing (rdEvent s.config r.offset)) = .next { s with bus := .word (readReg s r) } := by
  obtain ⟨hlt, hal⟩ := offset_aligned r
  rw [step_facing, handle_rdEvent s hlt hal, regAt_offset]

/-- `CAP` holds `BPI` in bits 2:0 and `CTR64` in bit 4 (10_state.md R23). -/
theorem capWord_eq (c : Config) :
    capWord c = BitVec.ofNat 32 (c.bpi.count + 16 * (if c.ctrWidth = .w64 then 1 else 0)) := by
  unfold capWord
  cases c.bpi <;> cases c.ctrWidth <;> decide

/-- Settles O16: the offset gives the register, and the answer is what that register reads as. -/
theorem hostReadByOffset : Obligations.HostReadByOffset := by
  intro s answer
  have hreg := step_rdEvent s
  refine ⟨hreg .cmd, hreg .status, hreg .cfg, ?_, hreg .src, hreg .dst, hreg .len, hreg .ctr0, hreg .ctr1,
    hreg .nonce0, hreg .nonce1, hreg (.const 0), hreg (.const 1), hreg (.const 2), hreg (.const 3), fun off hlt hal h => ?_⟩
  · rw [← capWord_eq]
    exact hreg .cap
  · show step (s.facing (rdEvent s.config off)) = _
    rw [step_facing, handle_rdEvent s hlt hal, readReg_eq_zero s hal h]

/-! ### The step that runs a command -/

/-- On an idle engine a `CMD` write of a word that decodes runs the meaning of the command. -/
theorem step_cmdWrite {s : State} (hidle : Idle s) {w : Word} {i : Instr} (hd : decode w = some i) :
    step (s.facing (cmdWrite s.config w)) = exec i { s with bus := .ack } := by
  obtain ⟨hb, herr⟩ := hidle
  rw [step_facing, handle_cmdWrite s w hb, dispatchWord, herr, hd]

/-- `withFetchWord` places the `CMD` write of the word. -/
theorem withFetchWord_toNat (s : State) (w : Word) : s.withFetchWord 32 w.toNat = s.facing (cmdWrite s.config w) := by
  rw [State.withFetchWord, Nat.mod_eq_of_lt w.isLt, BitVec.ofNat_toNat, BitVec.setWidth_eq]

/-- Settles O13: both states face the same `CMD` write. -/
theorem stepIssuesTheDecodedCommand : Obligations.StepIssuesTheDecodedCommand := by
  intro s w i hidle hd
  rw [withFetchWord_toNat]
  exact ⟨step_cmdWrite hidle hd, step_cmdWrite hidle hd⟩

/-- Before its effect the engine's turn does all of a command, or one phase of it. -/
theorem engineTurn_of_inProgress {i : Instr} {s : State} (h : InProgress i s) :
    engineTurn .whole s = exec i s ∧ engineTurn .phase s = .next (phaseStep i s) := by
  have ⟨_, hfin, _, hph, _⟩ := h
  simp [engineTurn, current_of_inProgress h, hfin, hph]

/-- Settles O14: with nothing from outside the step is a whole turn of the engine (log 7). -/
theorem stepRunsTheCommandInProgress : Obligations.StepRunsTheCommandInProgress := by
  intro i s h
  obtain ⟨hwhole, hphase⟩ := engineTurn_of_inProgress h
  exact ⟨hwhole, hphase, (engineTurn_of_inProgress (s := s.withInbox []) h).1⟩

/-! ### The acknowledge -/

/-- Settles O25: a `STATUS` write with bit 31 set leaves the engine idle, where the next `CMD` write is dispatched. -/
theorem acknowledgeClearsOnlyErr : Obligations.AcknowledgeClearsOnlyErr := by
  intro s data hb h31
  have hack : step (s.facing (wrEvent s.config 0x04 data)) = .next { s with
      err := .none, wrb := if data.getLsbD 5 then false else s.wrb, bus := .ack } := by
    refine (step_wrEvent_offset hb data .status nofun).trans ?_
    rw [writeReg, writeStatus, if_pos h31]
  refine ⟨hack, fun t ht w i hd => ?_, fun herr h5 => ?_⟩
  · have hidle : Idle t := by
      cases hack.symm.trans ht
      exact ⟨hb, rfl⟩
    exact step_cmdWrite hidle hd
  · rw [hack, h5, ← herr]
    rfl

end Sys2Proof.Machine
end

section
/-! PROOFS. The end of a command: completion and what it shows of a race, and that every accepted command and every
wait end (43_host_register_access.md R127; 20_memory.md R62; 70_reset_and_hazards.md R179). -/

namespace Sys2Proof.Machine

/-! ### Memory at completion -/

/-- A write that is recorded as a race was admitted (log 23). -/
theorem memOK_of_mem_races {s : State} (h : ParamInv s) {r : Race} (hr : r ∈ s.races) :
    memOK s.config r.addr = true := by
  obtain ⟨-, -, -, -, -, hok⟩ := h
  exact hok r hr

section Window

variable {s : State} (hseq : SeqInv s) (hparam : ParamInv s)
include hseq hparam

/-- The engine's buffers do not wrap onto themselves, so an index finds one byte of them. -/
theorem bufferIndex_of_lt_count {j base : Nat} (hj : j < s.footprint.count) (hb : base < 2 ^ s.config.aw) :
    bufferIndex s.config base (truncAddr s.config (base + j)) = j :=
  bufferIndex_truncAddr s.config hb (hj.trans_le (footprint_bounds hseq hparam).2.2)

theorem ownsOutput_of_lt_count {j : Nat} (hj : j < s.footprint.count) :
    s.ownsOutput (truncAddr s.config (s.footprint.dst + j)) = true := by
  rw [State.ownsOutput, inBuffer, bufferIndex_of_lt_count hseq hparam hj (footprint_bounds hseq hparam).2.1]
  exact decide_eq_true hj

/-- Two bytes of the output buffer at one address are the same byte. -/
theorem eq_of_output_eq {j k : Nat} (hj : j < s.footprint.count) (hk : k < s.footprint.count)
    (h : truncAddr s.config (s.footprint.dst + j) = truncAddr s.config (s.footprint.dst + k)) : j = k := by
  have hdst := (footprint_bounds hseq hparam).2.1
  rw [← bufferIndex_of_lt_count hseq hparam hj hdst, h, bufferIndex_of_lt_count hseq hparam hk hdst]

/-- A raced input byte is the byte at its index of the input buffer. -/
theorem raced_input {r : Race} (hr : r ∈ s.races) (ho : s.ownsInput r.addr = true) :
    s.footprint.ks = false ∧ bufferIndex s.config s.footprint.src r.addr < s.footprint.count ∧
      r.addr = truncAddr s.config (s.footprint.src + bufferIndex s.config s.footprint.src r.addr) := by
  rw [State.ownsInput, inBuffer, Bool.and_eq_true, Bool.not_eq_true', decide_eq_true_iff] at ho
  have haddr := memOK_lt (memOK_of_mem_races hparam hr)
  exact ⟨ho.1, ho.2, (truncAddr_bufferIndex s.config (footprint_bounds hseq hparam).1 haddr).symm⟩

/-- Completion changes no byte outside the output buffer. -/
theorem read_completed_outside {a : Nat} (ha : s.ownsOutput a = false) :
    Memory.read s.completed a = Memory.read s.mem a := by
  rw [State.completed, read_raceOutputs_other s _ (.inl ha)]
  refine read_raceInputs_other s _ fun r hr ho e => ?_
  obtain ⟨-, hlt, -⟩ := raced_input hseq hparam hr ho
  rw [e, ownsOutput_of_lt_count hseq hparam hlt] at ha
  cases ha

/-- Completion changes no output byte that no other agent touched. -/
theorem read_completed_untouched {j : Nat} (hj : j < s.footprint.count) (hu : Untouched s j) :
    Memory.read s.completed (truncAddr s.config (s.footprint.dst + j)) =
      Memory.read s.mem (truncAddr s.config (s.footprint.dst + j)) := by
  rw [State.completed, read_raceOutputs_other s _ (.inr fun r hr => (hu r hr).1)]
  refine read_raceInputs_other s _ fun r hr ho e => ?_
  obtain ⟨hks, hlt, hsrc⟩ := raced_input hseq hparam hr ho
  rw [← eq_of_output_eq hseq hparam hj hlt e] at hsrc
  rcases (hu r hr).2 with hks' | hne
  · exact nomatch hks.symm.trans hks'
  · exact hne hsrc

/-- An output byte whose input byte another agent wrote, and which no other agent wrote itself, is made of the input
byte the engine saw. -/
theorem read_completed_raced_input (hm : MemInv s) {j : Nat} (hj : j < s.footprint.count)
    (hks : s.footprint.ks = false) (hout : ∀ r ∈ s.races, r.addr ≠ truncAddr s.config (s.footprint.dst + j))
    (hin : ∃ r ∈ s.races, r.addr = truncAddr s.config (s.footprint.src + j)) :
    Memory.read s.completed (truncAddr s.config (s.footprint.dst + j)) =
      seenByte (truncAddr s.config (s.footprint.src + j))
        (Memory.read s.accMem (truncAddr s.config (s.footprint.src + j))) s.races ^^^ s.outputKey j := by
  obtain ⟨q, hq, hqa⟩ := hin
  have hidx := bufferIndex_of_lt_count hseq hparam hj (footprint_bounds hseq hparam).1
  have hok : memOK s.config (truncAddr s.config (s.footprint.src + j)) = true := hqa ▸ memOK_of_mem_races hparam hq
  have hown : s.ownsInput q.addr = true := by
    simp [State.ownsInput, inBuffer, hks, hqa, hidx, hj]
  rw [State.completed, read_raceOutputs_other s _ (.inr hout)]
  refine read_raceInputs s hm.1 ?_ (fun r hr ho e => ?_) ⟨q, hq, hown, by rw [hqa, hidx]⟩
  · simp [State.newByte, hks, hok]
  · exact eq_of_output_eq hseq hparam (raced_input hseq hparam hr ho).2.1 hj e

end Window

/-- Settles O36: the turn is `State.complete`, whose memory differs from the effect's only in output bytes that a race
touched; such a byte is found by its index, since the buffers do not wrap onto themselves (log 14). -/
theorem completionIsAStepOfItsOwn : Obligations.CompletionIsAStepOfItsOwn := by
  intro i s g hc hfin
  refine ⟨s.completed, ?_, completed_of_no_races, ?_⟩
  · refine (engineTurn_of_current hc).trans ?_
    rw [engineMove, if_pos hfin]
    rfl
  · rintro ⟨-, hseq, hparam, hm, -⟩
    refine ⟨fun a => read_completed_outside hseq hparam, fun j hj => ?_⟩
    refine ⟨read_completed_untouched hseq hparam hj, fun hks hout hin => ?_⟩
    refine ⟨_, ?_, read_completed_raced_input hseq hparam hm hj hks hout hin⟩
    exact seenByte_cases _ _ s.races

/-! ### Every command ends -/

/-- The command has ended: with `DONE`, or with the error BUS. -/
abbrev Ended (s : State) : Prop :=
  s.busy = false ∧ ((s.done = true ∧ s.err = .none) ∨ (s.done = false ∧ s.err = .bus))

/-- The effect of command `i` is complete, without error; completion is to follow (log 9). -/
abbrev EffectDone (i : Instr) (s : State) : Prop := s.current = some i ∧ s.fin = true ∧ s.err = .none

theorem raise_bus_ended (s : State) : Ended (s.raise .bus) := ⟨rfl, .inr ⟨rfl, rfl⟩⟩

/-- Every pass of a call leaves the call in progress without error, so its passes end complete or in BUS. -/
theorem processEffect_ends {s : State} (hc : s.current = some .process) (he : s.err = .none) :
    EffectDone .process (processEffect s) ∨ Ended (processEffect s) := by
  unfold processEffect
  have hpass (u : State) (h : u.current = some .process ∧ u.err = .none) :
      (blockPass u.vectorPass u).current = some .process ∧ (blockPass u.vectorPass u).err = .none := by
    obtain ⟨x, ks, sl, e⟩ := blockPass_frame u.vectorPass u
    rw [e]
    exact h
  rcases processPasses_cases (fun u => u.current = some .process ∧ u.err = .none) (fun u h _ _ => hpass u h)
    ((s.len.toNat + 63) / 64 + 1) (initPhase s) ⟨hc, he⟩ with ⟨u, ⟨huc, hue⟩, e⟩ | ⟨u, -, -, -, e⟩
  · rw [e]
    exact .inl ⟨huc, rfl, hue⟩
  · rw [e]
    exact .inr (raise_bus_ended _)

/-- The effect of the command in progress ends complete, or in BUS. -/
theorem commandEffect_ends {i : Instr} {s : State} (hc : s.current = some i) (he : s.err = .none) :
    EffectDone i (commandEffect i s) ∨ Ended (commandEffect i s) := by
  cases i with
  | nop | init | loadx | dround | feed => exact .inl ⟨hc, rfl, he⟩
  | emit n =>
    show EffectDone _ (emitEffect n s) ∨ Ended (emitEffect n s)
    unfold emitEffect
    split
    · exact .inl ⟨hc, rfl, he⟩
    · exact .inr (raise_bus_ended s)
  | block =>
    obtain ⟨x, ks, sl, e⟩ := blockPass_frame false s
    refine .inl ?_
    rw [show commandEffect .block s = (blockPass false s).finish .feedp from rfl, e]
    exact ⟨hc, rfl, he⟩
  | process => exact processEffect_ends hc he

theorem complete_ended {i : Instr} {s : State} (h : EffectDone i s) : Ended s.complete := by
  obtain ⟨-, -, he⟩ := h
  exact ⟨rfl, .inl ⟨rfl, he⟩⟩

/-- With nothing from outside, a complete effect is followed by completion. -/
theorem step_of_effectDone {i : Instr} {s : State} (h : EffectDone i s) (b : BusReply) :
    step (s.withHost b []) = .next (s.complete.withHost b []) := by
  obtain ⟨hc, hfin, -⟩ := h
  refine (engineTurn_of_current (g := .whole) (s := s.withHost b []) hc).trans ?_
  rw [engineMove_withHost, engineMove, if_pos hfin]

/-- With nothing from outside, an engine at rest stays at rest. -/
theorem step_of_not_busy {s : State} (hb : s.busy = false) (b : BusReply) :
    step (s.withHost b []) = .next (s.withHost b []) := by
  have hc : (s.withHost b []).current = none := current_of_not_busy hb
  show engineTurn .whole (s.withHost b []) = _
  rw [engineTurn, hc]

/-- With nothing from outside, an accepted command performs its whole effect (log 7). -/
theorem step_of_inProgress {i : Instr} {s : State} (h : InProgress i s) (b : BusReply) :
    step (s.withHost b []) = .next ((commandEffect i s).withHost b []) := by
  have h' : InProgress i (s.withHost b []) := h
  refine (engineTurn_of_inProgress h').1.trans ?_
  rw [exec_of_inProgress h', commandEffect_withHost]

/-- An accepted command ends within two turns, and a wait for it ends in the same state. -/
theorem ends_of_inProgress {i : Instr} {s : State} (h : InProgress i s) (he : s.err = .none) :
    ∃ t, Ended t ∧ core.run 2 (s.withInbox []) = .next (t.withHost s.bus []) ∧ ∀ g, WaitEnds g s t := by
  have hrun := run_of_step 1 (step_of_inProgress h s.bus)
  rcases commandEffect_ends (current_of_inProgress h) he with hdone | hend
  · have ⟨hc, hfin, _⟩ := hdone
    exact ⟨_, complete_ended hdone, hrun.trans (run_of_step 0 (step_of_effectDone hdone s.bus)),
      fun g => .of_effect g h (waitEnds_complete g hc hfin)⟩
  · exact ⟨_, hend, hrun.trans (run_of_step 0 (step_of_not_busy hend.1 s.bus)),
      fun g => .of_effect g h (waitEnds_of_not_busy g hend.1)⟩

/-- Settles O45: the effect of an accepted command ends complete or in BUS, because the memory port answers every
access (log 18); completion is the second turn (log 9). -/
theorem acceptedCommandEnds : Obligations.AcceptedCommandEnds := by
  intro i s h hs
  have he : s.err = .none := (running_of_seqInv hs (current_of_inProgress h)).1.err
  obtain ⟨t, ⟨hb, hend⟩, hrun, hwait⟩ := ends_of_inProgress h he
  refine ⟨⟨_, hrun, hb, hend⟩, fun g => ?_⟩
  obtain ⟨k, hk⟩ := hwait g s.bus
  exact ⟨k, _, hk, rfl, hb, rfl, hend⟩

end Sys2Proof.Machine
end

section
/-! PROOFS. The errors found at a `CMD` write: the illegal words, the commands out of sequence, and the writes that a
latched error drops (60_exceptions.md R142, R144, R150, R154). -/

namespace Sys2Proof.Machine

/-! ### Dispatch -/

/-- A latched error drops the command (60_exceptions.md R154). -/
theorem dispatchWord_of_err {s : State} (h : s.err ≠ .none) (w : Word) : dispatchWord w s = .next s := by
  cases he : s.err with
  | none => exact absurd he h
  | illcmd | rounds | seq | range | overlap | bus => rw [dispatchWord, he]

/-- Settles O24: the write reaches `Dispatch`, which a latched error makes drop it. -/
theorem latchedErrorDropsCommands : Obligations.LatchedErrorDropsCommands := by
  intro s w herror
  obtain ⟨hb, herr⟩ := herror
  rw [step_facing, handle_cmdWrite s w hb]
  exact dispatchWord_of_err (s := { s with bus := .ack }) herr w

/-! ### Illegal words -/

/-- The opcodes without a row of format Z are EMIT's and those of 0x08 and more (30_encoding.md R69). -/
theorem formatZ_eq_none {op : BitVec 8} : formatZ op = none ↔ op.toNat = 0x05 ∨ 0x08 ≤ op.toNat := by
  unfold formatZ
  split_ifs <;> simp_all
  bv_omega

/-- The illegal words, by their fields. -/
theorem decode_eq_none {w : Word} :
    decode w = none ↔
      0x08 ≤ (opcodeField w).toNat ∨ ((opcodeField w).toNat ≠ 0x05 ∧ w.extractLsb' 0 24 ≠ 0) ∨
        ((opcodeField w).toNat = 0x05 ∧ (w.extractLsb' 7 17 ≠ 0 ∨ 64 < (w.extractLsb' 0 7).toNat)) := by
  have hop : opcodeField w = 0x05 ↔ (opcodeField w).toNat = 0x05 := BitVec.toNat_inj.symm
  unfold decode
  by_cases h5 : (opcodeField w).toNat = 0x05
  · rw [if_pos (hop.2 h5), ite_eq_right_iff]
    simp [h5, not_and_or, -not_and]
  · rw [if_neg (mt hop.1 h5)]
    by_cases hz : w.extractLsb' 0 24 = 0
    · rw [if_pos hz, formatZ_eq_none]
      simp [h5, hz]
    · rw [if_neg hz]
      exact ⟨fun _ => .inr (.inl ⟨h5, hz⟩), fun _ => rfl⟩

/-- Settles O20: the two formats have different illegal words; `Dispatch` raises ILLCMD for either. -/
theorem illegalWordRaisesIllcmd : Obligations.IllegalWordRaisesIllcmd := by
  intro s w hidle
  obtain ⟨hb, herr⟩ := hidle
  refine ⟨decode_eq_none, fun hd => ?_⟩
  rw [step_facing, handle_cmdWrite s w hb, dispatchWord, herr, hd]
  rfl

/-! ### Commands out of sequence -/

/-- SEQ is what the checks answer exactly under the conditions of R144. -/
theorem commandCheck_eq_seq {i : Instr} {s : State} : commandCheck i s = .seq ↔ SeqBad i s := by
  cases i with
  | nop => exact ⟨nofun, False.elim⟩
  | init | process =>
    simp only [commandCheck, callCheck, SeqBad, iff_false]
    split_ifs <;> decide
  | loadx | block => cases hsv : s.sv <;> simp [commandCheck, baseCheck, SeqBad, hsv]
  | dround => cases hxv : s.xv <;> simp [commandCheck, droundCheck, SeqBad, hxv]
  | feed => cases hxv : s.xv <;> simp [commandCheck, feedCheck, SeqBad, hxv]
  | emit n =>
    cases hkv : s.kv with
    | false => simp [commandCheck, emitCheck, SeqBad, hkv]
    | true =>
      simp only [commandCheck, emitCheck, SeqBad, hkv, if_true]
      split <;> simp

/-- On an idle engine a command ends in an error exactly when that is what its checks answer. -/
theorem exec_eq_raise_iff {i : Instr} {s : State} (hidle : Idle s) {e : Err} (he : e ≠ .none) :
    exec i s = .next { s with err := e, done := false } ↔ commandCheck i s = e := by
  obtain ⟨hb, herr⟩ := hidle
  refine ⟨fun h => ?_, fun h => exec_of_check hb h he⟩
  by_cases hc : commandCheck i s = .none
  · have haccept : s.accept i = { s with err := e, done := false } :=
      Host.Outcome.next.inj ((exec_of_check_none hb hc).symm.trans h)
    exact absurd ((congrArg State.err haccept).symm.trans herr) he
  · exact congrArg State.err (Host.Outcome.next.inj ((exec_raise_eq hb hc).symm.trans h))

/-- Settles O21: a command is accepted or ends in the error that its checks answer. -/
theorem seqIsRaisedExactlyWhen : Obligations.SeqIsRaisedExactlyWhen :=
  fun _ _ hidle => (exec_eq_raise_iff (e := .seq) hidle nofun).trans commandCheck_eq_seq

end Sys2Proof.Machine
end

section
/-! PROOFS. An access that `MemOK` refuses: the memory that BUS leaves, and that EMIT and PROCESS end in BUS
(60_exceptions.md R147, R151; 20_memory.md R62). -/

namespace Sys2Proof.Machine

/-! ### The memory of an interrupted command -/

section Settled

variable {s : State} (hparam : ParamInv s) (hdst : s.footprint.dst < 2 ^ s.config.aw)
  (hn : s.footprint.count ≤ 2 ^ s.config.aw)
include hdst hn

include hparam in
/-- The end of a command before its completion changes no byte outside its output buffer. -/
theorem read_settled_outside {a : Nat}
    (ha : ∀ i, i < s.footprint.count → a ≠ truncAddr s.config (s.footprint.dst + i)) :
    Memory.read s.settled a = Memory.read s.mem a := by
  have hrace : s.ownsOutput a = false ∨ ∀ r ∈ s.races, r.addr ≠ a := by
    by_cases hlt : a < 2 ^ s.config.aw
    · left
      rw [← Bool.not_eq_true, State.ownsOutput, inBuffer_iff _ hdst hn hlt]
      rintro ⟨i, hi, e⟩
      exact ha i hi e
    · right
      rintro r hr rfl
      exact hlt (memOK_lt (memOK_of_mem_races hparam hr))
  rw [State.settled, read_raceOutputs_other s _ hrace, read_settleBytes_other _ _ _ _ _ _ _ ha]

/-- An output byte that no other agent touched is old or new (R151). -/
theorem read_settled_untouched (hm : MemInv s) {i : Nat} (hi : i < s.footprint.count) (hu : Untouched s i) :
    OldOrNew s i (Memory.read s.settled (truncAddr s.config (s.footprint.dst + i))) := by
  have hidx {k : Nat} (hk : k < s.footprint.count) :
      bufferIndex s.config s.footprint.dst (truncAddr s.config (s.footprint.dst + k)) = k :=
    bufferIndex_truncAddr s.config hdst (hk.trans_le hn)
  have hinj : ∀ j k, j < s.footprint.count → k < s.footprint.count →
      truncAddr s.config (s.footprint.dst + j) = truncAddr s.config (s.footprint.dst + k) → j = k :=
    fun j k hj hk e => by rw [← hidx hj, e, hidx hk]
  rw [State.settled, read_raceOutputs_other s _ (.inr fun r hr => (hu r hr).1)]
  rcases read_settleBytes s.config s.draw s.newByte s.accMem s.footprint.dst s.footprint.count s.mem hm.1 hinj i hi with
    hold | hnew
  · exact .inl hold
  · exact oldOrNew_of_newByte hu hnew.symm

end Settled

/-! ### EMIT -/

/-- The ranges of an EMIT whose effect has not begun, wherever the pointers stand. -/
theorem footprint_emit_of_not_fin {s : State} {n : BitVec 7} (hcur : s.current = some (.emit n))
    (hfin : s.fin = false) :
    s.footprint = ⟨s.ksl, truncAddr s.config s.sp.toNat, truncAddr s.config s.dp.toNat, n.toNat⟩ := by
  simp [State.footprint, hcur, hfin, truncAddr]

theorem outputKey_emit {s : State} {n : BitVec 7} (hcur : s.current = some (.emit n)) {i : Nat} (hi : i < 64) :
    s.outputKey i = s.accKS[i] := by
  simp [State.outputKey, hcur, hi]

/-- Settles O26: the effect is BUS alone, raised before a byte has moved; the memory it leaves is the one of a command
ended before completion (that this holds in a run with a race is log 14). -/
theorem refusedAccessEndsEmitWithBus : Obligations.RefusedAccessEndsEmitWithBus := by
  intro n s h hn hparam hm hks hno
  have hcur := current_of_inProgress h
  have hexec : exec (.emit n) s = .next (s.raise .bus) :=
    (exec_of_inProgress h).trans (congrArg _ (if_neg (Bool.eq_false_iff.1 hno)))
  have hframe := engineFrame_exec hexec
  have ⟨_, hfin, _⟩ := h
  have ⟨⟨haw, _⟩, _⟩ := hparam
  have hfoot := footprint_emit_of_not_fin hcur hfin
  have hdst : s.footprint.dst < 2 ^ s.config.aw := hfoot ▸ truncAddr_lt _ _
  have h256 : 2 ^ 8 ≤ 2 ^ s.config.aw := Nat.pow_le_pow_right (by decide) haw
  have hcount : s.footprint.count ≤ 2 ^ s.config.aw := by rw [hfoot]; dsimp only; omega
  refine ⟨_, hexec, rfl, rfl, rfl, rfl, rfl, rfl, rfl, rfl, rfl, hframe.wrb, hframe.registers, fun a ha => ?_,
    fun i hi64 hi hu => ?_⟩
  · refine read_settled_outside hparam hdst hcount ?_
    simpa only [hfoot, truncAddr_add_truncAddr] using ha
  · have hbyte := read_settled_untouched hdst hcount hm (show i < s.footprint.count by rwa [hfoot]) hu
    simp only [OldOrNew, hfoot, truncAddr_add_truncAddr, outputKey_emit hcur hi64, hks] at hbyte
    exact hbyte

/-! ### The passes of a call -/

/-- What the passes of a call leave as it was when one of them ends in BUS: the engine's frame, the command, the
memory kept from acceptance and the races, and each byte outside what was left of the output buffer. -/
structure PassesFrame (s t : State) : Prop where
  engine : EngineFrame s t
  current : t.current = s.current := by rfl
  accMem : t.accMem = s.accMem := by rfl
  races : t.races = s.races := by rfl
  wf : Memory.wf s.mem = true → Memory.wf t.mem = true := by exact id
  mem : ∀ a, (∀ i, i < s.rem.toNat → a ≠ truncAddr s.config (s.dp.toNat + i)) →
    Memory.read t.mem a = Memory.read s.mem a := by exact fun _ _ => rfl

theorem passesFrame_blockPass (vec : Bool) (s : State) : PassesFrame s (blockPass vec s) := by
  have hengine := engineFrame_blockPass vec s
  obtain ⟨x, ks, sl, e⟩ := blockPass_frame vec s
  rw [e] at hengine ⊢
  exact { engine := hengine }

/-- A pass changes no byte outside its range, and the passes after it none outside what it leaves. -/
theorem PassesFrame.of_pass {s t : State} (haw : s.config.aw ≤ 32)
    (h : PassesFrame { emitPhase s.passBytes (blockPass s.vectorPass s) with ph := .emitp } t) : PassesFrame s t := by
  have hb := passesFrame_blockPass s.vectorPass s
  have hf := callFrame_blockPass s.vectorPass s
  have hle := passBytes_le_rem s
  refine ⟨((hb.engine.trans (engineFrame_emitPhase _ _)).setPh _).trans h.engine, h.current.trans hb.current,
    h.accMem.trans hb.accMem, h.races.trans hb.races, fun hw => h.wf (wf_moveBytes _ _ _ _ _ (hb.wf hw)),
    fun a ha => ?_⟩
  refine (h.mem a fun i hi => ?_).trans ((read_moveBytes_other _ _ _ _ _ _ fun i hi => ?_).trans (hb.mem a ha))
  · dsimp only at hi ⊢
    rw [pass_rem] at hi
    rw [emitPhase_dp, emitPhase_config, hf.config, hf.dp, toNat_ofNat_truncAddr haw, truncAddr_add_truncAddr,
      Nat.add_assoc]
    exact ha _ (by omega)
  · rw [hf.config, hf.dp]
    exact ha i ((hi.trans_le (List.length_take_le _ _)).trans_le hle)

/-- The accesses of a movement in two parts. -/
theorem rangeOK_append {c : Config} {ksl : Bool} {sp dp n m : Nat} (h : rangeOK c ksl sp dp n = true)
    (h' : rangeOK c ksl (truncAddr c (sp + n)) (truncAddr c (dp + n)) m = true) :
    rangeOK c ksl sp dp (n + m) = true := by
  refine (rangeOK_iff ..).2 fun i hi => ?_
  rcases Nat.lt_or_ge i n with hlt | hge
  · exact (rangeOK_iff ..).1 h i hlt
  · obtain ⟨k, rfl⟩ := Nat.exists_eq_add_of_le hge
    have hk := (rangeOK_iff ..).1 h' k (by omega)
    rwa [truncAddr_add_truncAddr, truncAddr_add_truncAddr, Nat.add_assoc, Nat.add_assoc] at hk

/-- `MemOK` refuses one of the accesses of the bytes that are left. -/
abbrev RefusedAhead (s : State) : Prop := rangeOK s.config s.ksl s.sp.toNat s.dp.toNat s.rem.toNat = false

theorem RefusedAhead.rem_ne_zero {s : State} (h : RefusedAhead s) : s.rem ≠ 0 := by
  intro h0
  rw [RefusedAhead, h0] at h
  cases h

/-- A pass whose own accesses are admitted leaves the refused one ahead. -/
theorem RefusedAhead.pass {s : State} (haw : s.config.aw ≤ 32) (h : RefusedAhead s)
    (hok : (blockPass s.vectorPass s).emitOK s.passBytes = true) :
    RefusedAhead { emitPhase s.passBytes (blockPass s.vectorPass s) with ph := .emitp } := by
  have hf := callFrame_blockPass s.vectorPass s
  rw [State.emitOK, hf.config, hf.ksl, hf.sp, hf.dp] at hok
  rw [RefusedAhead, ← Bool.not_eq_true]
  dsimp only
  rw [pass_rem, emitPhase_sp, emitPhase_dp, emitPhase_config, emitPhase_ksl, hf.config, hf.ksl, hf.sp, hf.dp,
    toNat_ofNat_truncAddr haw, toNat_ofNat_truncAddr haw]
  intro hleft
  have hall := rangeOK_append hok hleft
  rw [Nat.add_sub_cancel' (passBytes_le_rem s), h] at hall
  cases hall

/-- The passes reach the refused access, and the one that would make it ends in BUS; `fuel` passes suffice. -/
theorem processPasses_refused (fuel : Nat) {s : State} (haw : s.config.aw ≤ 32) (hfuel : s.rem.toNat ≤ 64 * fuel)
    (h : RefusedAhead s) : ∃ u, PassesFrame s u ∧ processPasses fuel s = u.raise .bus := by
  induction fuel generalizing s with
  | zero => exact absurd (BitVec.eq_of_toNat_eq (Nat.le_zero.mp hfuel)) h.rem_ne_zero
  | succ fuel ih =>
    rw [processPasses, if_neg h.rem_ne_zero]
    dsimp only
    by_cases hok : (blockPass s.vectorPass s).emitOK s.passBytes = true
    · have hmin := min_le_passBytes s
      obtain ⟨u, hu, e⟩ := ih (s := { emitPhase s.passBytes (blockPass s.vectorPass s) with ph := .emitp })
        ((callFrame_blockPass s.vectorPass s).config ▸ haw)
        (show (emitPhase _ _).rem.toNat ≤ _ by rw [pass_rem]; omega) (h.pass haw hok)
      exact ⟨u, hu.of_pass haw, (if_pos hok).trans e⟩
    · exact ⟨_, passesFrame_blockPass _ s, if_neg hok⟩

/-! ### PROCESS -/

/-- A call one of whose accesses is refused ends in BUS, in a state that the passes before it leave. -/
theorem processEffect_refused {s : State} (hparam : ParamInv s)
    (hno : rangeOK s.config s.cfg.ks s.src.toNat s.dst.toNat s.len.toNat = false) :
    ∃ u, PassesFrame (initPhase s) u ∧ processEffect s = u.raise .bus := by
  obtain ⟨⟨-, haw, -⟩, -⟩ := hparam
  exact processPasses_refused _ (s := initPhase s) haw (show s.len.toNat ≤ _ by omega) hno

/-- A call whose checks pass does not wrap. -/
theorem truncAddr_dst_add {s : State} (hc : callCheck s = .none) {i : Nat} (hi : i < s.len.toNat) :
    truncAddr s.config (s.dst.toNat + i) = s.dst.toNat + i ∧
      (s.cfg.ks = false → truncAddr s.config (s.src.toNat + i) = s.src.toNat + i) := by
  obtain ⟨-, hrange, -⟩ := callCheck_eq_none.1 hc
  obtain ⟨hd, hs⟩ := rangeBad_eq_false.1 hrange (by omega)
  exact ⟨truncAddr_of_lt (by omega), fun hks => truncAddr_of_lt (by have := hs hks; omega)⟩

/-- A call's keystream is the one its argument registers describe. -/
theorem outputKey_process {s : State} (hcur : s.current = some .process) (i : Nat) : s.outputKey i = callKey s i := by
  rw [State.outputKey, hcur]
  rfl

section Call

variable {s u : State} (hcur : s.current = some .process) (h : PassesFrame (initPhase s) u)
include hcur h

/-- The buffers of the call stay the engine's. -/
theorem PassesFrame.footprint : u.footprint = ⟨s.cfg.ks, s.src.toNat, s.dst.toNat, s.len.toNat⟩ := by
  obtain ⟨hcfg, hsrc, hdst, hlen, -⟩ := h.engine.registers
  rw [footprint_of_process (h.current.trans hcur), hcfg, hsrc, hdst, hlen]
  rfl

theorem PassesFrame.outputKey (i : Nat) : u.outputKey i = callKey s i := by
  obtain ⟨hcfg, -, -, -, hctr0, hctr1, hnonce0, hnonce1, hkey⟩ := h.engine.registers
  rw [outputKey_process (h.current.trans hcur), callKey, State.argMatrix, h.engine.config, hcfg, hctr0, hctr1, hnonce0,
    hnonce1, hkey]
  rfl

end Call

/-- Settles O27: the passes before the refused one move bytes of the output buffer only, and leave the buffers, the
keystream, the old bytes and the races of the call as they were, from which BUS then settles every output byte (that
this holds in a run with a race is log 14). -/
theorem refusedAccessEndsProcessWithBus : Obligations.RefusedAccessEndsProcessWithBus := by
  intro s h _ hc hparam hm hno
  have hcur := current_of_inProgress h
  obtain ⟨u, hu, e⟩ := processEffect_refused hparam hno
  have hexec : exec .process s = .next (u.raise .bus) := (exec_process h).trans (congrArg _ e)
  have hframe := engineFrame_exec hexec
  have hfoot := hu.footprint hcur
  have hconfig : u.config = s.config := hu.engine.config
  have hparam' : ParamInv u := (hu.engine.paramsKept hparam).2
  have hm' : MemInv u := ⟨hu.wf hm.1, hu.accMem ▸ hm.2⟩
  have ⟨_, _, _, _, hdst', _⟩ := hparam
  have hdst : u.footprint.dst < 2 ^ u.config.aw := by rwa [hfoot, hconfig]
  have hcount : u.footprint.count ≤ 2 ^ u.config.aw := by
    rw [hfoot, hconfig]
    exact len_le_of_callCheck hc
  refine ⟨_, hexec, rfl, rfl, rfl, rfl, rfl, rfl, rfl, rfl, rfl, hframe.wrb, hframe.registers, fun a ha => ?_,
    fun i hi hu' => ?_⟩
  · have hout : ∀ i, i < s.len.toNat → a ≠ truncAddr s.config (s.dst.toNat + i) := fun i hi => by
      rw [(truncAddr_dst_add hc hi).1]
      omega
    refine (read_settled_outside hparam' hdst hcount ?_).trans (hu.mem a hout)
    rwa [hfoot, hconfig]
  · have huntouched : Untouched u i := by
      rw [Untouched, footprint_of_process hcur] at hu'
      rwa [Untouched, hfoot, hconfig, hu.races]
    have hbyte := read_settled_untouched hdst hcount hm' (show i < u.footprint.count by rwa [hfoot]) huntouched
    rw [OldOrNew, hu.outputKey hcur, hfoot, hconfig, hu.accMem] at hbyte
    obtain ⟨hd, hs⟩ := truncAddr_dst_add hc hi
    dsimp only at hbyte
    rw [hd] at hbyte
    refine hbyte.imp_right fun hnew => hnew.trans ?_
    cases hks : s.cfg.ks with
    | true => rfl
    | false => rw [hs hks]; rfl

end Sys2Proof.Machine
end

section
/-! PROOFS. The transitions between idle, busy and error, each with its cause (60_exceptions.md R156, R157). -/

namespace Sys2Proof.Machine

/-! ### The engine's turns -/

/-- The command is still in progress, or BUS has ended it. -/
abbrev BusyOrBus (s : State) : Prop := s.busy = true ∨ s.err = .bus

theorem blockPhase_busy (s : State) : (blockPhase s).busy = s.busy := by
  unfold blockPhase
  cases s.ph with
  | roundp =>
    dsimp only
    split <;> rfl
  | loadp | feedp | idle | initp | emitp => rfl

theorem processPhase_busyOrBus {s : State} (hb : s.busy = true) : BusyOrBus (processPhase s) := by
  unfold processPhase
  cases s.ph with
  | initp | roundp =>
    dsimp only
    split <;> exact .inl hb
  | emitp =>
    dsimp only
    split
    · split <;> exact .inl hb
    · exact .inr rfl
  | loadp | feedp | idle => exact .inl hb

theorem emitEffect_busyOrBus {n : BitVec 7} {s : State} (hb : s.busy = true) : BusyOrBus (emitEffect n s) := by
  unfold emitEffect
  split
  · exact .inl hb
  · exact .inr rfl

theorem phaseStep_busyOrBus (i : Instr) {s : State} (hb : s.busy = true) : BusyOrBus (phaseStep i s) := by
  cases i with
  | nop | init | loadx | dround | feed => exact .inl hb
  | emit n => exact emitEffect_busyOrBus hb
  | block => exact .inl ((blockPhase_busy s).trans hb)
  | process => exact processPhase_busyOrBus hb

theorem blockPass_busy (vec : Bool) (s : State) : (blockPass vec s).busy = s.busy := by
  obtain ⟨x, ks, sl, e⟩ := blockPass_frame vec s
  rw [e]

theorem processEffect_busyOrBus {s : State} (hb : s.busy = true) : BusyOrBus (processEffect s) := by
  unfold processEffect
  rcases processPasses_cases (fun u => u.busy = true) (fun u hu _ _ => (blockPass_busy _ u).trans hu)
    ((s.len.toNat + 63) / 64 + 1) (initPhase s) hb with ⟨u, hu, e⟩ | ⟨u, -, -, -, e⟩ <;> rw [e]
  · exact .inl hu
  · exact .inr rfl

theorem commandEffect_busyOrBus (i : Instr) {s : State} (hb : s.busy = true) : BusyOrBus (commandEffect i s) := by
  cases i with
  | nop | init | loadx | dround | feed => exact .inl hb
  | emit n => exact emitEffect_busyOrBus hb
  | block => exact .inl ((blockPass_busy false s).trans hb)
  | process => exact processEffect_busyOrBus hb

/-- Everything a turn of the engine can do to a busy engine: the command goes on, completes, or ends in BUS. -/
theorem engineTurn_of_busy {g : Grain} {s t : State} (hs : SeqInv s) (hb : s.busy = true)
    (h : engineTurn g s = .next t) :
    t.busy = true ∨ (Idle t ∧ s.fin = true) ∨ (t.busy = false ∧ t.err = .bus ∧ s.fin = false) := by
  have ⟨_, _, hbusy⟩ := hs
  obtain ⟨i, hc, -⟩ := hbusy hb
  have herr : s.err = .none := (running_of_seqInv hs hc).1.err
  cases (engineTurn_of_current hc).symm.trans h
  unfold engineMove
  cases hfin : s.fin with
  | true => exact .inr (.inl ⟨⟨rfl, herr⟩, rfl⟩)
  | false =>
    have hmove : BusyOrBus (if g = .whole ∧ s.ph = firstPhase i then commandEffect i s else phaseStep i s) := by
      split
      · exact commandEffect_busyOrBus i hb
      · exact phaseStep_busyOrBus i hb
    rw [if_neg nofun]
    generalize (if g = .whole ∧ s.ph = firstPhase i then commandEffect i s else phaseStep i s) = u at hmove
    cases hu : u.busy with
    | true => exact .inl rfl
    | false => exact .inr (.inr ⟨rfl, hmove.resolve_left (by simp [hu]), rfl⟩)

/-- An engine that is not busy has nothing to do. -/
theorem engineTurn_of_not_busy {g : Grain} {s t : State} (hb : s.busy = false) (h : engineTurn g s = .next t) :
    t = s := by
  rw [engineTurn, current_of_not_busy hb] at h
  cases h
  rfl

/-! ### The events -/

theorem regAt_eq_cmd {off : Nat} : regAt off = .cmd ↔ off = 0x00 := by
  unfold regAt
  split <;> simp_all

/-- The engine stands in `t` where it stands in `s`: idle, busy, or with the same error latched. -/
abbrev SameStanding (s t : State) : Prop := t.busy = s.busy ∧ t.err = s.err

theorem writeReg_sameStanding {r : Reg} (hr : r ≠ .status) (data : Word) (s : State) :
    SameStanding s (writeReg r data s) := by
  cases r with
  | status => exact absurd rfl hr
  | cmd | cfg | cap | src | dst | len | ctr0 | ctr1 | nonce0 | nonce1 | const | key | reserved => exact ⟨rfl, rfl⟩

/-- Everything a host write can do to where the engine stands: nothing, or what `Dispatch` or a write of `STATUS` does
on an engine that is not busy. -/
theorem hostWrite_standing {addr size : Nat} {data : Word} {s t : State} (h : hostWrite addr size data s = .next t) :
    SameStanding s t ∨
    (s.busy = false ∧ Event.hostWrite addr size data = cmdWrite s.config data ∧
      dispatchWord data { s with bus := .ack } = .next t) ∨
    (s.busy = false ∧ Event.hostWrite addr size data = wrEvent s.config 0x04 data ∧
      t = writeStatus data { s with bus := .ack }) := by
  unfold hostWrite at h
  split at h
  · cases h
    exact .inl ⟨rfl, rfl⟩
  · cases h
    exact .inl ⟨rfl, rfl⟩
  · rename_i off hsel
    obtain ⟨rfl, rfl, -, -⟩ := select_eq_at hsel
    rcases writeAt_cases h with ⟨-, rfl⟩ | ⟨hb, hr, hd⟩ | ⟨hb, -, rfl⟩
    · exact .inl ⟨rfl, rfl⟩
    · obtain rfl := regAt_eq_cmd.1 hr
      exact .inr (.inl ⟨hb, rfl, hd⟩)
    · by_cases hr : regAt off = .status
      · obtain rfl := regAt_eq_status.1 hr
        exact .inr (.inr ⟨hb, rfl, rfl⟩)
      · exact .inl (writeReg_sameStanding hr data _)

/-- Everything an event can do to where the engine stands. -/
theorem handle_standing {e : Event} {s t : State} (h : handle e s = .next t) :
    SameStanding s t ∨
    (s.busy = false ∧ ∃ w, e = cmdWrite s.config w ∧ dispatchWord w { s with bus := .ack } = .next t) ∨
    (s.busy = false ∧ ∃ data, e = wrEvent s.config 0x04 data ∧ t = writeStatus data { s with bus := .ack }) ∨
    (∃ g, engineTurn g s = .next t) ∨ (e = .reset ∧ Idle t) := by
  cases e with
  | hostWrite addr size data =>
    rcases hostWrite_standing h with hsame | ⟨hb, he, hd⟩ | ⟨hb, he, ht⟩
    · exact .inl hsame
    · exact .inr (.inl ⟨hb, data, he, hd⟩)
    · exact .inr (.inr (.inl ⟨hb, data, he, ht⟩))
  | hostRead addr size =>
    cases h
    unfold hostRead
    split <;> exact .inl ⟨rfl, rfl⟩
  | hostWait g =>
    cases h
    exact .inl ⟨rfl, rfl⟩
  | engine g => exact .inr (.inr (.inr (.inl ⟨g, h⟩)))
  | memWrite a v =>
    cases h
    rcases memWrite_cases a v s with ⟨-, e⟩ | ⟨-, -, e⟩ | ⟨-, -, -, e⟩ <;> rw [e] <;> exact .inl ⟨rfl, rfl⟩
  | memRead a =>
    cases h
    rcases memRead_cases a s with ⟨-, e⟩ | ⟨-, -, e⟩ | ⟨-, -, e⟩ <;> rw [e] <;> exact .inl ⟨rfl, rfl⟩
  | reset =>
    cases h
    exact .inr (.inr (.inr (.inr ⟨rfl, rfl, rfl⟩)))

/-- On an idle engine `Dispatch` accepts the command the word decodes to, or raises an error that is not BUS. -/
theorem dispatchWord_of_idle {w : Word} {s t : State} (hidle : Idle s) (h : dispatchWord w s = .next t) :
    (∃ i, decode w = some i ∧ t = s.accept i) ∨ (t.busy = false ∧ t.err ≠ .none ∧ t.err ≠ .bus) := by
  obtain ⟨hb, herr⟩ := hidle
  rcases dispatchWord_cases h with ⟨he, -⟩ | ⟨-, -, rfl⟩ | ⟨-, i, hd, hx⟩
  · exact absurd herr he
  · exact .inr ⟨hb, nofun, nofun⟩
  · by_cases hc : commandCheck i s = .none
    · cases (exec_of_check_none hb hc).symm.trans hx
      exact .inl ⟨i, hd, rfl⟩
    · cases (exec_raise_eq hb hc).symm.trans hx
      exact .inr ⟨hb, hc, commandCheck_ne_bus i s⟩

/-! ### From each standing -/

/-- The acknowledge and reset clear the error of an engine that is not busy. -/
theorem err_of_clearsErr {e : Event} {s t : State} (hb : s.busy = false) (he : clearsErr s e)
    (h : handle e s = .next t) : t.err = .none := by
  cases e with
  | hostWrite addr size data =>
    obtain ⟨rfl, rfl, h31⟩ := he
    obtain ⟨hack, -⟩ := acknowledgeClearsOnlyErr s data hb h31
    cases hack.symm.trans h
    rfl
  | reset =>
    cases h
    rfl
  | hostRead | hostWait | engine | memWrite | memRead => exact he.elim

/-- An idle engine becomes busy or takes an error only by what `Dispatch` does at a `CMD` write. -/
theorem handle_of_idle {e : Event} {s t : State} (hidle : Idle s) (h : handle e s = .next t) :
    (t.busy = true → ∃ w i, e = cmdWrite s.config w ∧ decode w = some i ∧ t.op = i.opcode) ∧
      (t.err ≠ .none → t.busy = false ∧ t.err ≠ .bus ∧ ∃ w, e = cmdWrite s.config w) := by
  suffices hcases : Idle t ∨ ∃ w, e = cmdWrite s.config w ∧ dispatchWord w { s with bus := .ack } = .next t by
    rcases hcases with ⟨hb, herr⟩ | ⟨w, he, hd⟩
    · exact ⟨fun hb' => absurd (hb.symm.trans hb') nofun, fun hne => absurd herr hne⟩
    · rcases dispatchWord_of_idle (s := { s with bus := .ack }) hidle hd with ⟨i, hi, rfl⟩ | ⟨hb, -, hne⟩
      · exact ⟨fun _ => ⟨w, i, he, hi, rfl⟩, fun hne => absurd hidle.2 hne⟩
      · exact ⟨fun hb' => absurd (hb.symm.trans hb') nofun, fun _ => ⟨hb, hne, w, he⟩⟩
  have ⟨hb, herr⟩ := hidle
  rcases handle_standing h with ⟨eb, ee⟩ | ⟨-, hcmd⟩ | ⟨-, data, -, rfl⟩ | ⟨g, hg⟩ | ⟨-, ht⟩
  · exact .inl ⟨eb.trans hb, ee.trans herr⟩
  · exact .inr hcmd
  · exact .inl ⟨hb, by simp [writeStatus, herr]⟩
  · rw [engineTurn_of_not_busy hb hg]
    exact .inl hidle
  · exact .inl ht

/-- A latched error stays as it is, and the engine at rest, until the acknowledge or reset clears it. -/
theorem handle_of_inError {e : Event} {s t : State} (herror : InError s) (h : handle e s = .next t) :
    t.busy = false ∧ (t.err = .none ↔ clearsErr s e) ∧ (t.err = .none ∨ t.err = s.err) := by
  have ⟨hb, herr⟩ := herror
  suffices hcases : t.busy = false ∧ (t.err = s.err ∨ (t.err = .none ∧ clearsErr s e)) by
    obtain ⟨hb', hsame | ⟨hnone, hc⟩⟩ := hcases
    · exact ⟨hb', ⟨fun hnone => absurd (hsame.symm.trans hnone) herr, fun hc => err_of_clearsErr hb hc h⟩, .inr hsame⟩
    · exact ⟨hb', ⟨fun _ => hc, fun _ => hnone⟩, .inl hnone⟩
  rcases handle_standing h with ⟨eb, ee⟩ | ⟨-, w, -, hd⟩ | ⟨-, data, rfl, rfl⟩ | ⟨g, hg⟩ | ⟨rfl, hb', herr'⟩
  · exact ⟨eb.trans hb, .inl ee⟩
  · cases (dispatchWord_of_err (s := { s with bus := .ack }) herr w).symm.trans hd
    exact ⟨hb, .inl rfl⟩
  · refine ⟨hb, ?_⟩
    cases h31 : data.getLsbD 31 with
    | true => exact .inr ⟨by rw [writeStatus, if_pos h31], rfl, rfl, h31⟩
    | false => exact .inl (by rw [writeStatus, h31]; rfl)
  · rw [engineTurn_of_not_busy hb hg]
    exact ⟨hb, .inl rfl⟩
  · exact ⟨hb', .inr ⟨herr', trivial⟩⟩

/-- A busy engine is left busy, or idle by completion or reset, or in the error BUS. -/
theorem handle_of_busy {e : Event} {s t : State} (hs : SeqInv s) (hb : s.busy = true) (h : handle e s = .next t) :
    t.busy = true ∨ (Idle t ∧ (s.fin = true ∨ e = .reset)) ∨ (t.busy = false ∧ t.err = .bus ∧ s.fin = false) := by
  have hnb : s.busy ≠ false := by simp [hb]
  rcases handle_standing h with ⟨eb, -⟩ | ⟨hb', -⟩ | ⟨hb', -⟩ | ⟨g, hg⟩ | ⟨he, ht⟩
  · exact .inl (eb.trans hb)
  · exact absurd hb' hnb
  · exact absurd hb' hnb
  · exact (engineTurn_of_busy hs hb hg).imp_right (.imp_left (.imp_right .inl))
  · exact .inr (.inl ⟨ht, .inr he⟩)

/-- Settles O46: with no event the engine's turn moves a busy engine only; an event moves the engine as it stands. -/
theorem stateTransitionsAreTheListedOnes : Obligations.StateTransitionsAreTheListedOnes := by
  intro s t hs h
  rcases step_cases h with ⟨hin, h⟩ | ⟨e, rest, hin, h⟩
  · have hnext (p : Event → Prop) : ¬NextEvent s p := by simp [NextEvent, hin]
    refine ⟨fun ⟨hb, herr⟩ => ?_, fun ⟨hb, herr⟩ => ?_,
      fun hb => (engineTurn_of_busy hs hb h).imp_right (.imp_left (.imp_right .inl))⟩
    · cases engineTurn_of_not_busy hb h
      exact ⟨fun hb' => absurd (hb.symm.trans hb') nofun, fun he => absurd herr he⟩
    · cases engineTurn_of_not_busy hb h
      exact ⟨hb, ⟨fun he => absurd he herr, fun he => absurd he (hnext _)⟩, .inr rfl⟩
  · have hnext (p : Event → Prop) : NextEvent s p ↔ p e := by simp [NextEvent, hin]
    have hclear : clearsErr (s.withInbox rest) e = clearsErr s e := by cases e <;> rfl
    simp only [hnext, ← hclear]
    exact ⟨fun hidle => handle_of_idle (s := s.withInbox rest) hidle h,
      fun herror => handle_of_inError (s := s.withInbox rest) herror h,
      fun hb => handle_of_busy (s := s.withInbox rest) hs hb h⟩

end Sys2Proof.Machine
end

section
/-! PROOFS. The reset input, and what the host finds between acceptance and completion of a command
(70_reset_and_hazards.md R166, R167, R180; 10_state.md R40). -/

namespace Sys2Proof.Machine

/-! ### Reset -/

/-- Reset leaves the memory of a command ended before its completion. -/
theorem resetInput_mem (s : State) : (resetInput s).mem = s.settled := rfl

/-- `VEN` is 1 after reset where there is a vector path (10_state.md R22, R40). -/
theorem cfgWord_resetInput (s : State) :
    cfgWord (resetInput s).cfg = if s.config.bpi = .one then 0x00000000 else 0x00000100 := by
  show cfgWord ⟨0, false, decide (1 < s.config.bpi.count)⟩ = _
  cases s.config.bpi <;> decide

/-- Settles O49: reset ends the command as BUS does, so each output byte settles at its old or its new value (that
this holds in a run with a race is log 14). -/
theorem resetDuringACallLeavesOldOrNewBytes : Obligations.ResetDuringACallLeavesOldOrNewBytes := by
  rintro s ⟨-, hseq, hparam, hm, -⟩
  obtain ⟨-, hdst, hn⟩ := footprint_bounds hseq hparam
  refine ⟨resetInput s, rfl, fun a ha => ?_, fun i hi hu => ?_⟩ <;> rw [resetInput_mem]
  · refine read_settled_outside hparam hdst hn fun i hi e => ?_
    rw [e, ownsOutput_of_lt_count hseq hparam hi] at ha
    cases ha
  · exact read_settled_untouched hdst hn hm hi hu

/-- Settles O48: every value is the reset state's, but for the parameters and for memory, which settles only with a
command in progress. -/
theorem resetInputGivesTheResetValues : Obligations.ResetInputGivesTheResetValues := by
  intro s
  have hstatus : statusWord (resetInput s) = statusWord State.reset := rfl
  refine ⟨resetInput s, rfl, hstatus.trans (by decide), rfl, rfl, cfgWord_resetInput s, rfl, rfl, rfl, rfl, rfl, rfl, rfl,
    rfl, rfl, fun i h => ?_, rfl, rfl, settled_of_not_busy⟩
  exact Vector.getElem_replicate h

/-! ### The busy window -/

/-- A turn of the engine that the schedule names, whatever the host's side. -/
theorem step_engine {g : Grain} {s t : State} (h : engineTurn g s = .next t) (b : BusReply) (es : List Event) :
    step (s.withHost b (.engine g :: es)) = .next (t.withHost b es) := by
  show engineTurn g (s.withHost b es) = _
  cases hc : s.current with
  | none =>
    have hc' : (s.withHost b es).current = none := hc
    rw [engineTurn, hc] at h
    cases h
    rw [engineTurn, hc']
  | some i =>
    cases (engineTurn_of_current hc).symm.trans h
    exact (engineTurn_of_current (s := s.withHost b es) hc).trans (congrArg _ (engineMove_withHost ..))

/-- Two whole turns take an accepted command to its end (43_host_register_access.md R127). -/
theorem twoTurns_end {i : Instr} {s : State} (h : InProgress i s) (he : s.err = .none) :
    ∃ u t, engineTurn .whole s = .next u ∧ engineTurn .whole u = .next t ∧ Ended t := by
  have heffect := (engineTurn_of_inProgress h).1.trans (exec_of_inProgress h)
  rcases commandEffect_ends (current_of_inProgress h) he with hdone | hend
  · have ⟨hc, hfin, _⟩ := hdone
    refine ⟨_, _, heffect, (engineTurn_of_current hc).trans ?_, complete_ended hdone⟩
    rw [engineMove, if_pos hfin]
  · refine ⟨_, _, heffect, ?_, hend⟩
    rw [engineTurn, current_of_not_busy hend.1]

/-- A command that is accepted passes its checks. -/
theorem commandCheck_of_accepted {i : Instr} {s : State} (hb : s.busy = false)
    (h : exec i s = .next (AcceptedState i s)) : commandCheck i s = .none := by
  by_contra hc
  have hbusy : s.busy = true := congrArg State.busy (Host.Outcome.next.inj ((exec_raise_eq hb hc).symm.trans h) :)
  exact nomatch hb.symm.trans hbusy

section Accepted

variable {i : Instr} {s : State} (hidle : Idle s) (hwf : i.wf = true) (h : exec i s = .next (AcceptedState i s))
include hidle hwf h

/-- The `CMD` write of a command whose checks pass is its acceptance, whatever comes next. -/
theorem step_cmdWrite_accept (es : List Event) :
    step (s.withInbox (cmdWrite s.config (encode i) :: es)) = .next ((s.accept i).withHost .ack es) := by
  have ⟨hb, _⟩ := hidle
  refine (step_cmdWrite (s := s.withInbox es) hidle (decode_encode hwf)).trans ?_
  exact exec_of_check_none (s := s.withHost .ack es) hb
    ((commandCheck_withHost ..).trans (commandCheck_of_accepted hb h))

/-- One schedule of R180: the host's next access comes right after the acceptance. -/
theorem run_accepted {e : Event} {t : State} (ht : step ((s.accept i).withHost .ack [e]) = .next t) :
    core.run 2 (s.withInbox [cmdWrite s.config (encode i), e]) = .next t :=
  (run_of_step 1 (step_cmdWrite_accept hidle hwf h [e])).trans (run_of_step 0 ht)

/-- The other: the command ends before the host's next access. -/
theorem run_ended :
    ∃ t, Ended t ∧ EngineFrame s t ∧ ∀ {e u}, step (t.withHost .ack [e]) = .next u →
      core.run 4 (s.withInbox [cmdWrite s.config (encode i), .engine .whole, .engine .whole, e]) = .next u := by
  obtain ⟨v, t, hv, ht, hend⟩ := twoTurns_end (s := s.accept i) ⟨rfl, rfl, rfl, rfl, rfl⟩ hidle.2
  refine ⟨t, hend, ((engineFrame_accept s i).trans (engineFrame_engineTurn hv)).trans (engineFrame_engineTurn ht),
    fun {e u} hu => ?_⟩
  calc core.run 4 (s.withInbox [cmdWrite s.config (encode i), .engine .whole, .engine .whole, e])
      = core.run 3 ((s.accept i).withHost .ack [.engine .whole, .engine .whole, e]) :=
        run_of_step 3 (step_cmdWrite_accept hidle hwf h _)
    _ = core.run 2 (v.withHost .ack [.engine .whole, e]) := run_of_step 2 (step_engine hv _ _)
    _ = core.run 1 (t.withHost .ack [e]) := run_of_step 1 (step_engine ht _ _)
    _ = .next u := run_of_step 0 hu

end Accepted

/-- What `STATUS` shows of a command that has ended: `BUSY` is 0, and `DONE` or the code of BUS is set. -/
theorem statusWord_of_ended {s : State} (h : Ended s) :
    (statusWord s).getLsbD 0 = false ∧ ((statusWord s).getLsbD 1 = true ∨ (statusWord s).extractLsb' 8 4 = 6) := by
  obtain ⟨hbusy, hdone, -⟩ := statusWord_flags s
  obtain ⟨-, herr, -⟩ := statusWord_fields s
  obtain ⟨hb, hend⟩ := h
  rw [hbusy, hdone, herr]
  refine ⟨hb, hend.imp (·.1) fun hbus => ?_⟩
  rw [hbus.2]
  rfl

/-- Settles O51: the host's access comes right after the acceptance, or after the two turns that end the command. -/
theorem busyWindowAdmitsBothOutcomes : Obligations.BusyWindowAdmitsBothOutcomes := by
  intro i s v hidle hwf h
  obtain ⟨t, hend, hframe, hrun⟩ := run_ended hidle hwf h
  have ⟨hb, _⟩ := hend
  obtain ⟨-, -, -, -, -, -, -, -, hkey⟩ := hframe.registers
  have hread := step_rdEvent (t.withHost .ack []) .status
  have hwrite := step_wrEvent hb (r := .key 0) nofun v .ack []
  rw [hframe.config] at hwrite
  rw [show (t.withHost .ack []).config = s.config from hframe.config] at hread
  refine ⟨⟨_, _, run_accepted hidle hwf h (step_rdEvent ((s.accept i).withHost .ack []) .status), rfl, ?_⟩,
    ⟨_, _, hrun hread, rfl, statusWord_of_ended hend⟩,
    ⟨_, run_accepted hidle hwf h
      (step_wrEvent_busy (s := (s.accept i).withHost .ack []) rfl v (off := 0x40) (by decide) rfl), rfl, rfl⟩,
    ⟨_, hrun hwrite, congrArg (Vector.set · 0 v) hkey, hframe.wrb⟩⟩
  obtain ⟨hbusy, hdone, -⟩ := statusWord_flags ((s.accept i).withHost .ack [])
  exact ⟨hbusy, hdone⟩

end Sys2Proof.Machine
end
